-- ==== Sys2Proof/Word.lean ====
section
/-! DEFINITION. The word, byte and field types of the machine (00_scope.md R9, R12; 30_encoding.md R100). -/

namespace Sys2Proof

/-- The unit of memory access, register content and instruction encoding: 32 bits (R9, R100). -/
abbrev Word := BitVec 32

/-- One byte of Memory (R52). -/
abbrev Byte := BitVec 8

/-- A register number 0 to 31, as an `rs`, `rt` or `rd` field holds it (R104). -/
abbrev Reg := BitVec 5

/-- The 5-bit shift amount field `sa` (R100). -/
abbrev Shamt := BitVec 5

/-- The 16-bit immediate field `imm16` (R100). -/
abbrev Imm16 := BitVec 16

/-- The 26-bit jump target field `target26` (R100). -/
abbrev Target26 := BitVec 26

/-- Bits [25:6] of SYSCALL, which no rule uses (R115). -/
abbrev SysCode := BitVec 20

end Sys2Proof
end

