-- ==== Sys2Proof/Machine/Flags.lean ====
section
/-! DEFINITION. The hardware has no flags, condition codes or predicates (10_state.md R25). What takes their place: the
comparisons that SLT and SLTI write to a register (41_alu_register.md R209; 42_alu_immediate.md R233) and the conditions that
branches test (45_control_transfer.md R291 to R296). -/

namespace Sys2Proof.Machine

/-- `1 if a <s b else 0`, of SLT and SLTI. -/
def setLess (a b : Word) : Word := if a.slt b then 1 else 0

/-- The condition of BEQ. -/
def condEq (a b : Word) : Bool := a == b

/-- The condition of BNE. -/
def condNe (a b : Word) : Bool := a != b

/-- The condition of BLEZ: `signed(opA) <= 0`. -/
def condLez (a : Word) : Bool := a.toInt ≤ 0

/-- The condition of BGTZ: `signed(opA) > 0`. -/
def condGtz (a : Word) : Bool := 0 < a.toInt

/-- The condition of BLTZ: `signed(opA) < 0`. -/
def condLtz (a : Word) : Bool := a.toInt < 0

/-- The condition of BGEZ: `signed(opA) >= 0`. -/
def condGez (a : Word) : Bool := 0 ≤ a.toInt

end Sys2Proof.Machine
end

