-- ==== Sys2Proof/Syntax.lean ====
section
/-! DEFINITION. The 44 instructions of 30_encoding.md R112, one constructor per row of spec/opcode_table.json. -/

namespace Sys2Proof

/-- The instruction set (30_encoding.md R112). A constructor carries every field of its word that is not fixed by the
opcode maps R110, R111 and R113, those that R115 ignores included: so a word has one instruction, and an instruction one
word (log 12). -/
inductive Instr where
  -- 41_alu_register.md: `OP rd, rs, rt`, with `sa` ignored
  | add (rd rs rt : Reg) (sa : Shamt)
  | addu (rd rs rt : Reg) (sa : Shamt)
  | sub (rd rs rt : Reg) (sa : Shamt)
  | subu (rd rs rt : Reg) (sa : Shamt)
  | and (rd rs rt : Reg) (sa : Shamt)
  | or (rd rs rt : Reg) (sa : Shamt)
  | xor (rd rs rt : Reg) (sa : Shamt)
  | nor (rd rs rt : Reg) (sa : Shamt)
  | slt (rd rs rt : Reg) (sa : Shamt)
  -- 41_alu_register.md: `OP rd, rt, sa`, with `rs` ignored
  | sll (rd rs rt : Reg) (sa : Shamt)
  | srl (rd rs rt : Reg) (sa : Shamt)
  | sra (rd rs rt : Reg) (sa : Shamt)
  -- 42_alu_immediate.md: `OP rt, rs, imm` (LUI ignores `rs`)
  | addi (rt rs : Reg) (imm : Imm16)
  | addiu (rt rs : Reg) (imm : Imm16)
  | slti (rt rs : Reg) (imm : Imm16)
  | andi (rt rs : Reg) (imm : Imm16)
  | ori (rt rs : Reg) (imm : Imm16)
  | xori (rt rs : Reg) (imm : Imm16)
  | lui (rt rs : Reg) (imm : Imm16)
  -- 43_muldiv_hilo.md: `OP rs, rt`, with `rd` and `sa` ignored
  | mult (rd rs rt : Reg) (sa : Shamt)
  | multu (rd rs rt : Reg) (sa : Shamt)
  | div (rd rs rt : Reg) (sa : Shamt)
  | divu (rd rs rt : Reg) (sa : Shamt)
  -- 43_muldiv_hilo.md: `MFHI rd`, `MFLO rd`, `MTHI rs`, `MTLO rs`, with the other fields ignored
  | mfhi (rd rs rt : Reg) (sa : Shamt)
  | mflo (rd rs rt : Reg) (sa : Shamt)
  | mthi (rd rs rt : Reg) (sa : Shamt)
  | mtlo (rd rs rt : Reg) (sa : Shamt)
  -- 44_load_store.md: `OP rt, offset(rs)`
  | lb (rt rs : Reg) (imm : Imm16)
  | lh (rt rs : Reg) (imm : Imm16)
  | lw (rt rs : Reg) (imm : Imm16)
  | sb (rt rs : Reg) (imm : Imm16)
  | sh (rt rs : Reg) (imm : Imm16)
  | sw (rt rs : Reg) (imm : Imm16)
  -- 45_control_transfer.md: branches (BLEZ and BGTZ ignore `rt`; `rt` selects BLTZ and BGEZ)
  | beq (rt rs : Reg) (imm : Imm16)
  | bne (rt rs : Reg) (imm : Imm16)
  | blez (rt rs : Reg) (imm : Imm16)
  | bgtz (rt rs : Reg) (imm : Imm16)
  | bltz (rs : Reg) (imm : Imm16)
  | bgez (rs : Reg) (imm : Imm16)
  -- 45_control_transfer.md: jumps (JR ignores `rd`, `rt`, `sa`; JALR ignores `rt`, `sa`)
  | j (target : Target26)
  | jal (target : Target26)
  | jr (rd rs rt : Reg) (sa : Shamt)
  | jalr (rd rs rt : Reg) (sa : Shamt)
  -- 46_system.md: SYSCALL ignores bits [25:6]
  | syscall (code : SysCode)
deriving DecidableEq, Repr

end Sys2Proof
end

