-- ==== Sys2Proof/WellFormed.lean ====
section
/-! DEFINITION. Which terms of `Instr` are instructions of the machine. Every field has its width by its type, so one check
remains: the all-zero word is a bubble and is not an SLL (30_encoding.md R114). -/

namespace Sys2Proof

/-- The term is not the SLL whose word is 0x00000000. That word is BUBBLE, "before SLL" (30_encoding.md R114); "any other
SLL, including SLL r0, r0, 1, executes" (41_alu_register.md R210). -/
abbrev Instr.wf (i : Instr) : Prop := i ≠ .sll 0 0 0 0

end Sys2Proof
end

