-- ==== Sys2Proof/Decode.lean ====
section
/-! DEFINITION. Instruction words: fields, byte order, the decoder of 30_encoding.md R114, and the encoder written from the
same tables R101, R110, R111 and R113. -/

namespace Sys2Proof

/-! ### Fields (R100) -/

/-- `op = ir[31:26]`. -/
def opField (w : Word) : BitVec 6 := w.extractLsb' 26 6

/-- `rs = ir[25:21]`. -/
def rsField (w : Word) : Reg := w.extractLsb' 21 5

/-- `rt = ir[20:16]`. -/
def rtField (w : Word) : Reg := w.extractLsb' 16 5

/-- `rd = ir[15:11]`. -/
def rdField (w : Word) : Reg := w.extractLsb' 11 5

/-- `sa = ir[10:6]`. -/
def saField (w : Word) : Shamt := w.extractLsb' 6 5

/-- `fn = ir[5:0]`. -/
def fnField (w : Word) : BitVec 6 := w.extractLsb' 0 6

/-- `imm16 = ir[15:0]`. -/
def immField (w : Word) : Imm16 := w.extractLsb' 0 16

/-- `target26 = ir[25:0]`. -/
def targetField (w : Word) : Target26 := w.extractLsb' 0 26

/-- Bits [25:6], which SYSCALL ignores (R115). -/
def codeField (w : Word) : SysCode := w.extractLsb' 6 20

/-! ### Byte order (20_memory.md R64): the byte at the lowest address is bits [7:0] -/

/-- The word whose bytes, from the lowest address up, are `b0`, `b1`, `b2`, `b3`. -/
def wordOfBytes (b0 b1 b2 b3 : Byte) : Word := b3 ++ b2 ++ b1 ++ b0

/-- The byte of a word that stands `k` addresses above its lowest, `v[8k+7 : 8k]` (20_memory.md R63). -/
def byteOfWord (w : Word) (k : Nat) : Byte := w.extractLsb' (8 * k) 8

/-! ### The decoder -/

/-- The class of a word (R114). -/
inductive Decoded where
  /-- The word 0x00000000: no instruction. -/
  | bubble
  /-- No row of R110, R111 or R113: "a non-fatal diagnostic" (R117). -/
  | unimplemented
  | instr (i : Instr)
deriving DecidableEq, Repr

/-- The SPECIAL map R111, selected by `fn`. -/
def decodeSpecial (w : Word) : Decoded :=
  let rd := rdField w
  let rs := rsField w
  let rt := rtField w
  let sa := saField w
  match (fnField w).toNat with
  | 0x00 => .instr (.sll rd rs rt sa)
  | 0x02 => .instr (.srl rd rs rt sa)
  | 0x03 => .instr (.sra rd rs rt sa)
  | 0x08 => .instr (.jr rd rs rt sa)
  | 0x09 => .instr (.jalr rd rs rt sa)
  | 0x0C => .instr (.syscall (codeField w))
  | 0x10 => .instr (.mfhi rd rs rt sa)
  | 0x11 => .instr (.mthi rd rs rt sa)
  | 0x12 => .instr (.mflo rd rs rt sa)
  | 0x13 => .instr (.mtlo rd rs rt sa)
  | 0x18 => .instr (.mult rd rs rt sa)
  | 0x19 => .instr (.multu rd rs rt sa)
  | 0x1A => .instr (.div rd rs rt sa)
  | 0x1B => .instr (.divu rd rs rt sa)
  | 0x20 => .instr (.add rd rs rt sa)
  | 0x21 => .instr (.addu rd rs rt sa)
  | 0x22 => .instr (.sub rd rs rt sa)
  | 0x23 => .instr (.subu rd rs rt sa)
  | 0x24 => .instr (.and rd rs rt sa)
  | 0x25 => .instr (.or rd rs rt sa)
  | 0x26 => .instr (.xor rd rs rt sa)
  | 0x27 => .instr (.nor rd rs rt sa)
  | 0x2A => .instr (.slt rd rs rt sa)
  | _ => .unimplemented

/-- The REGIMM map R113, selected by `rt`. -/
def decodeRegimm (w : Word) : Decoded :=
  match (rtField w).toNat with
  | 0x00 => .instr (.bltz (rsField w) (immField w))
  | 0x01 => .instr (.bgez (rsField w) (immField w))
  | _ => .unimplemented

/-- The primary opcode map R110. -/
def decodePrimary (w : Word) : Decoded :=
  let rs := rsField w
  let rt := rtField w
  let imm := immField w
  match (opField w).toNat with
  | 0x00 => decodeSpecial w
  | 0x01 => decodeRegimm w
  | 0x02 => .instr (.j (targetField w))
  | 0x03 => .instr (.jal (targetField w))
  | 0x04 => .instr (.beq rt rs imm)
  | 0x05 => .instr (.bne rt rs imm)
  | 0x06 => .instr (.blez rt rs imm)
  | 0x07 => .instr (.bgtz rt rs imm)
  | 0x08 => .instr (.addi rt rs imm)
  | 0x09 => .instr (.addiu rt rs imm)
  | 0x0A => .instr (.slti rt rs imm)
  | 0x0C => .instr (.andi rt rs imm)
  | 0x0D => .instr (.ori rt rs imm)
  | 0x0E => .instr (.xori rt rs imm)
  | 0x0F => .instr (.lui rt rs imm)
  | 0x20 => .instr (.lb rt rs imm)
  | 0x21 => .instr (.lh rt rs imm)
  | 0x23 => .instr (.lw rt rs imm)
  | 0x28 => .instr (.sb rt rs imm)
  | 0x29 => .instr (.sh rt rs imm)
  | 0x2B => .instr (.sw rt rs imm)
  | _ => .unimplemented

/-- `decode(ir)` (R114): total, and the all-zero word is a bubble before anything else. -/
def decode (w : Word) : Decoded :=
  if w = 0 then .bubble else decodePrimary w

/-- The decoder on the four bytes of an instruction as Memory holds them, the lowest address first (R102; 20_memory.md R64). -/
def decodeBytes (b0 b1 b2 b3 : Byte) : Decoded := decode (wordOfBytes b0 b1 b2 b3)

/-- What the decoder reads from the bits `w` of an instruction of `nbits` bits, its words laid out as Memory holds them. A
word of more than 32 bits is no instruction (R102), and the all-zero word is a bubble (R114; log 11). -/
def decodeTableWord (nbits w : Nat) : Option Instr :=
  let v : Word := BitVec.ofNat 32 (w % 2 ^ nbits)
  match decodeBytes (byteOfWord v 0) (byteOfWord v 1) (byteOfWord v 2) (byteOfWord v 3) with
  | .instr i => if nbits ≤ 32 then some i else none
  | .bubble => none
  | .unimplemented => none

/-! ### The encoder, from the formats R101 and the maps R110, R111 and R113 -/

/-- An R-format word: `op` = 0. -/
def rWord (rd rs rt : Reg) (sa : Shamt) (fn : BitVec 6) : Word := 0#6 ++ rs ++ rt ++ rd ++ sa ++ fn

/-- An I-format word. -/
def iWord (op : BitVec 6) (rt rs : Reg) (imm : Imm16) : Word := op ++ rs ++ rt ++ imm

/-- A J-format word. -/
def jWord (op : BitVec 6) (target : Target26) : Word := op ++ target

/-- SYSCALL's word: an R-format word whose bits [25:6] are one field. -/
def sysWord (code : SysCode) (fn : BitVec 6) : Word := 0#6 ++ code ++ fn

/-- The word of an instruction. -/
def encode : Instr → Word
  | .add rd rs rt sa => rWord rd rs rt sa 0x20
  | .addu rd rs rt sa => rWord rd rs rt sa 0x21
  | .sub rd rs rt sa => rWord rd rs rt sa 0x22
  | .subu rd rs rt sa => rWord rd rs rt sa 0x23
  | .and rd rs rt sa => rWord rd rs rt sa 0x24
  | .or rd rs rt sa => rWord rd rs rt sa 0x25
  | .xor rd rs rt sa => rWord rd rs rt sa 0x26
  | .nor rd rs rt sa => rWord rd rs rt sa 0x27
  | .slt rd rs rt sa => rWord rd rs rt sa 0x2A
  | .sll rd rs rt sa => rWord rd rs rt sa 0x00
  | .srl rd rs rt sa => rWord rd rs rt sa 0x02
  | .sra rd rs rt sa => rWord rd rs rt sa 0x03
  | .addi rt rs imm => iWord 0x08 rt rs imm
  | .addiu rt rs imm => iWord 0x09 rt rs imm
  | .slti rt rs imm => iWord 0x0A rt rs imm
  | .andi rt rs imm => iWord 0x0C rt rs imm
  | .ori rt rs imm => iWord 0x0D rt rs imm
  | .xori rt rs imm => iWord 0x0E rt rs imm
  | .lui rt rs imm => iWord 0x0F rt rs imm
  | .mult rd rs rt sa => rWord rd rs rt sa 0x18
  | .multu rd rs rt sa => rWord rd rs rt sa 0x19
  | .div rd rs rt sa => rWord rd rs rt sa 0x1A
  | .divu rd rs rt sa => rWord rd rs rt sa 0x1B
  | .mfhi rd rs rt sa => rWord rd rs rt sa 0x10
  | .mflo rd rs rt sa => rWord rd rs rt sa 0x12
  | .mthi rd rs rt sa => rWord rd rs rt sa 0x11
  | .mtlo rd rs rt sa => rWord rd rs rt sa 0x13
  | .lb rt rs imm => iWord 0x20 rt rs imm
  | .lh rt rs imm => iWord 0x21 rt rs imm
  | .lw rt rs imm => iWord 0x23 rt rs imm
  | .sb rt rs imm => iWord 0x28 rt rs imm
  | .sh rt rs imm => iWord 0x29 rt rs imm
  | .sw rt rs imm => iWord 0x2B rt rs imm
  | .beq rt rs imm => iWord 0x04 rt rs imm
  | .bne rt rs imm => iWord 0x05 rt rs imm
  | .blez rt rs imm => iWord 0x06 rt rs imm
  | .bgtz rt rs imm => iWord 0x07 rt rs imm
  | .bltz rs imm => iWord 0x01 0x00 rs imm
  | .bgez rs imm => iWord 0x01 0x01 rs imm
  | .j target => jWord 0x02 target
  | .jal target => jWord 0x03 target
  | .jr rd rs rt sa => rWord rd rs rt sa 0x08
  | .jalr rd rs rt sa => rWord rd rs rt sa 0x09
  | .syscall code => sysWord code 0x0C

end Sys2Proof
end

