-- ==== Sys2Proof/Config.lean ====
section
/-! DEFINITION. The parameters of the machine (00_scope.md R10, 10_state.md R53), their default values, and the free value
`DIV_OVERFLOW`. -/

namespace Sys2Proof

/-- A region of Memory (20_memory.md R60): it covers the addresses `base` (the spec's `begin`) to `base + size - 1`. -/
structure Region where
  name : String
  base : Nat
  size : Nat
deriving DecidableEq, Repr

/-- The parameters of 00_scope.md R10 that the machine's state functions read. `MISS_PENALTY` is an argument of the bounded
run (log 6) and `DIV_OVERFLOW` is the free value below (log 5). -/
structure Config where
  /-- `REGIONS` (20_memory.md R60). -/
  regions : List Region
  /-- `TEXT_BASE`: where the loader places the program, and the reset PC (20_memory.md R68). -/
  textBase : Word
  /-- `CACHE_ENABLED` (20_memory.md R80): true for this hardware. -/
  cacheEnabled : Bool
  /-- `FORWARDING_INIT` (10_state.md R45): the forwarding mode at power-on. -/
  forwardingInit : Bool
deriving DecidableEq, Repr

/-- Two regions share no address (20_memory.md R60: the regions do not overlap). -/
abbrev Region.disjoint (g h : Region) : Prop := g.base + g.size ≤ h.base ∨ h.base + h.size ≤ g.base

/-- What 20_memory.md R60 requires of `REGIONS`: bases and sizes are multiples of 16, no region wraps past 0xFFFFFFFF, and
no two regions overlap. -/
abbrev Config.wf (c : Config) : Prop :=
  (∀ g ∈ c.regions, g.base % 16 = 0 ∧ g.size % 16 = 0 ∧ g.base + g.size ≤ 2 ^ 32) ∧
    c.regions.Pairwise Region.disjoint

/-- The default region list of 20_memory.md R60. PRESUMED (log 4): the spec marks it as general knowledge. -/
def Config.defaultRegions : List Region :=
  [⟨"text", 0x00400000, 0x00100000⟩, ⟨"data", 0x10000000, 0x00100000⟩, ⟨"stack", 0x7FF00000, 0x00100000⟩,
    ⟨"kernel text", 0x80000000, 0x00100000⟩, ⟨"kernel data", 0x90000000, 0x00100000⟩]

/-- The parameters of this hardware: the default map and `TEXT_BASE` (PRESUMED, log 4), the cache enabled and forwarding off
at power-on (00_scope.md R10). -/
def Config.default : Config :=
  { regions := Config.defaultRegions, textBase := 0x00400000, cacheEnabled := true, forwardingInit := false }

/-- `DIV_OVERFLOW`: HI and LO, in that order, of the `n`th signed division of 0x80000000 by -1. A free value: "no claim may
depend on its value" (43_muldiv_hilo.md R260; log 5). -/
opaque Config.divOverflow : Nat → Word × Word

end Sys2Proof
end

