-- ==== Sys2Proof/Machine/State.lean ====
section
/-! DEFINITION. The state of the machine (10_state.md), plain data, with its reset value (R55; 70_reset_and_hazards.md R450),
and the reasons a step can stop. -/

namespace Sys2Proof.Machine

/-- The 32 general registers, `r0` among them as an ordinary register (R22). -/
abbrev RegFile := Vector Word 32

/-- One generation of the architectural state (R21): the general registers, HI, LO and PC. -/
structure ArchState where
  regs : RegFile
  hi : Word
  lo : Word
  pc : Word
deriving DecidableEq, Repr

/-- A pipeline register (R30). `ir` = 0 is a bubble; `pc` is the instruction's own address plus 4 (R31). -/
structure PipeReg where
  ir : Word
  pc : Word
  a : Word
  b : Word
  imm : Word
  alu : Word
  lmd : Word
  hi : Word
  lo : Word
deriving DecidableEq, Repr

/-- A bubble with every field 0 (R35). -/
def PipeReg.bubble : PipeReg :=
  { ir := 0, pc := 0, a := 0, b := 0, imm := 0, alu := 0, lmd := 0, hi := 0, lo := 0 }

/-- A forward selector (R40). -/
inductive Selector where
  | none
  | fromEx
  | fromMem
deriving DecidableEq, Repr

/-- A block of the cache (R49). -/
structure CacheBlock where
  valid : Bool
  tag : BitVec 24
  words : Vector Word 4
deriving DecidableEq, Repr

/-- An entry `Unimplemented(pc, ir)` of the diagnostic log (R46). -/
structure Diagnostic where
  pc : Word
  ir : Word
deriving DecidableEq, Repr

/-- Which stage's work `exec` performs on its instruction. The model's own (log 1). -/
inductive Stage where
  | ex
  | mem
  | wb
deriving DecidableEq, Repr

/-- Memory's bytes (R52): addresses strictly rising, no entry 0. An unlisted address reads as 0, since Memory is
"zero-filled" (R52, R55). -/
abbrev Memory := List Host.Cell

/-- The whole machine (R20). -/
structure State where
  /-- The parameters; no step writes them (R53; log 3). -/
  cfg : Config
  /-- The current generation (R21). -/
  cur : ArchState
  /-- The next generation (R21). -/
  nxt : ArchState
  ifid : PipeReg
  idex : PipeReg
  exmem : PipeReg
  memwb : PipeReg
  selA : Selector
  selB : Selector
  stallCount : Nat
  exDest : Reg
  exWe : Bool
  exLoad : Bool
  memDest : Reg
  memWe : Bool
  branchFlag : Bool
  forwardingEnabled : Bool
  /-- The diagnostic log, oldest entry first (R46). -/
  diagLog : List Diagnostic
  runFlag : Bool
  cycleCount : Nat
  instructionCount : Nat
  cache : Vector CacheBlock 16
  hitEvents : Nat
  missEvents : Nat
  missFlag : Bool
  penaltyRemaining : Nat
  mem : Memory
  /-- The stage whose work `exec` performs; `wb` between cycles. The model's own (log 1). -/
  stage : Stage
  /-- How many `DIV_OVERFLOW` values have been drawn. The model's own, for the free value (log 5). -/
  drawCount : Nat
deriving DecidableEq, Repr

/-- Why the machine stops. Not a hardware event: "it marks a state the model must treat as stuck" (00_scope.md R16). -/
inductive Fault where
  /-- Raised by a word read or write that starts inside a region and runs past its end (20_memory.md R62, R63): a fetch
  from such a PC, or a data access with the cache disabled. Safe: the model stops where the source's behaviour is
  undefined (60_exceptions.md R402). -/
  | memOverrun (addr : Word)
deriving DecidableEq, Repr

/-- Why an instruction has no meaning. -/
inductive Refusal where
  /-- Raised by an arm of `exec` that has no meaning yet. Safe. No arm of this model answers it. -/
  | notModelled (mnemonic : String)
deriving DecidableEq, Repr

/-- An outcome of this machine. -/
abbrev Res := Host.Outcome State Fault Refusal

/-- An invalid block, with the tag and words that R55 zeroes. -/
def CacheBlock.empty : CacheBlock := { valid := false, tag := 0, words := Vector.replicate 4 0 }

/-- One generation at reset: everything 0 but the PC (R55). -/
def ArchState.reset (textBase : Word) : ArchState :=
  { regs := Vector.replicate 32 0, hi := 0, lo := 0, pc := textBase }

/-- The state right after power-on with the parameters `c` and no program image (R55; 70_reset_and_hazards.md R451). -/
def State.powerOn (c : Config) : State :=
  { cfg := c
    cur := ArchState.reset c.textBase
    nxt := ArchState.reset c.textBase
    ifid := PipeReg.bubble
    idex := PipeReg.bubble
    exmem := PipeReg.bubble
    memwb := PipeReg.bubble
    selA := .none
    selB := .none
    stallCount := 0
    exDest := 0
    exWe := false
    exLoad := false
    memDest := 0
    memWe := false
    branchFlag := false
    forwardingEnabled := c.forwardingInit
    diagLog := []
    runFlag := true
    cycleCount := 0
    instructionCount := 0
    cache := Vector.replicate 16 CacheBlock.empty
    hitEvents := 0
    missEvents := 0
    missFlag := false
    penaltyRemaining := 0
    mem := []
    stage := .wb
    drawCount := 0 }

/-- The machine right after reset (R55), with the default parameters and no program image (log 4, log 7). -/
def State.reset : State := State.powerOn Config.default

end Sys2Proof.Machine
end

