-- ==== Sys2Proof/Machine/Memory.lean ====
section
/-! DEFINITION. Memory: the canonical list of bytes, the regions, and the word reads and writes of 20_memory.md R60 to R69. -/

namespace Sys2Proof.Machine

/-! ### Bytes -/

/-- The canonical form of a memory: addresses strictly rising, and no entry equal to what an unlisted address reads as. -/
abbrev Memory.wf (m : Memory) : Prop := m.Pairwise (fun c d => c.1 < d.1) ∧ ∀ c ∈ m, c.2 ≠ 0#8

/-- The byte at an address. An unlisted address reads as 0: Memory is "zero-filled" (10_state.md R52). -/
def memGet : Memory → Nat → Byte
  | [], _ => 0
  | (k, v) :: rest, n => if n = k then v else memGet rest n

/-- The memory with the byte at `n` set to `b`, in canonical form again. -/
def memSet : Memory → Nat → Byte → Memory
  | [], n, b => if b = 0#8 then [] else [(n, b)]
  | (k, v) :: rest, n, b =>
    if n < k then (if b = 0#8 then (k, v) :: rest else (n, b) :: (k, v) :: rest)
    else if n = k then (if b = 0#8 then rest else (n, b) :: rest)
    else (k, v) :: memSet rest n b

/-- The word whose lowest byte stands at `n`, little-endian (20_memory.md R62, R64). -/
def memGetWord (m : Memory) (n : Nat) : Word :=
  wordOfBytes (memGet m n) (memGet m (n + 1)) (memGet m (n + 2)) (memGet m (n + 3))

/-- The memory with the four bytes from `n` up set to the word `v`, little-endian (20_memory.md R63, R64). -/
def memSetWord (m : Memory) (n : Nat) (v : Word) : Memory :=
  memSet (memSet (memSet (memSet m n (byteOfWord v 0)) (n + 1) (byteOfWord v 1)) (n + 2) (byteOfWord v 2)) (n + 3)
    (byteOfWord v 3)

/-! ### Regions -/

/-- Region `g` covers the address `n` (20_memory.md R60). -/
def inRegion (g : Region) (n : Nat) : Bool := g.base ≤ n && n < g.base + g.size

/-- `region(addr)` (20_memory.md R61): membership depends only on the first byte of the access. Where regions overlap, which
R60 forbids, the first of the list counts (log 9). -/
def regionOf (gs : List Region) (a : Word) : Option Region := gs.find? (fun g => inRegion g a.toNat)

/-- `MemRead(addr, 4)` (20_memory.md R62): 0 outside every region, the four bytes inside one, and a fault where the word
starts in a region and runs past its end. -/
def memRead (gs : List Region) (m : Memory) (a : Word) : Except Fault Word :=
  match regionOf gs a with
  | none => .ok 0
  | some g => if a.toNat + 4 ≤ g.base + g.size then .ok (memGetWord m a.toNat) else .error (.memOverrun a)

/-- `MemWrite(addr, 4, v)` (20_memory.md R63): dropped outside every region, and a fault where the word starts in a region and
runs past its end. -/
def memWrite (gs : List Region) (m : Memory) (a : Word) (v : Word) : Except Fault Memory :=
  match regionOf gs a with
  | none => .ok m
  | some g => if a.toNat + 4 ≤ g.base + g.size then .ok (memSetWord m a.toNat v) else .error (.memOverrun a)

end Sys2Proof.Machine
end

