-- ==== Sys2Proof/Machine/Cache.lean ====
section
/-! DEFINITION. The direct-mapped data cache and the data path of the MEM stage (20_memory.md R70 to R81). -/

namespace Sys2Proof.Machine

/-! ### Address decomposition (R70) -/

/-- `index(addr) = addr[7:4]`. -/
def cacheIndex (a : Word) : BitVec 4 := a.extractLsb' 4 4

/-- `tag(addr) = addr[31:8]`. -/
def cacheTag (a : Word) : BitVec 24 := a.extractLsb' 8 24

/-- `off(addr) = addr[3:2]`. -/
def cacheOffset (a : Word) : BitVec 2 := a.extractLsb' 2 2

/-- `base(addr) = addr[31:4] ++ 0b0000`, the 16-byte-aligned block address. -/
def cacheBase (a : Word) : Word := a.extractLsb' 4 28 ++ 0#4

/-- The block that `(index, tag)` names starts at `tag ++ index ++ 0b0000` (10_state.md R49). -/
def blockBase (tag : BitVec 24) (index : BitVec 4) : Word := tag ++ index ++ 0#4

/-! ### Reading and writing the 16 blocks -/

/-- Block `index` of the cache. -/
def blockGet (c : Vector CacheBlock 16) (index : BitVec 4) : CacheBlock := getElem c index.toNat index.isLt

/-- The cache with block `index` replaced. -/
def blockSet (c : Vector CacheBlock 16) (index : BitVec 4) (b : CacheBlock) : Vector CacheBlock 16 :=
  c.set index.toNat b index.isLt

/-- Word `off` of a block. -/
def blockWord (b : CacheBlock) (off : BitVec 2) : Word := getElem b.words off.toNat off.isLt

/-- The block with word `off` replaced. -/
def blockSetWord (b : CacheBlock) (off : BitVec 2) (v : Word) : CacheBlock :=
  { b with words := b.words.set off.toNat v off.isLt }

/-- An access to `a` hits: the block at its index is valid and holds its tag (R71). -/
def cacheHit (c : Vector CacheBlock 16) (a : Word) : Bool :=
  (blockGet c (cacheIndex a)).valid && (blockGet c (cacheIndex a)).tag == cacheTag a

/-! ### Refill and write-back, one word at a time (R71, R73) -/

/-- The four words that Memory reads from `base` up. -/
def refillWords (gs : List Region) (m : Memory) (base : Word) : Except Fault (Vector Word 4) := do
  let w0 ← memRead gs m base
  let w1 ← memRead gs m (base + 4)
  let w2 ← memRead gs m (base + 8)
  let w3 ← memRead gs m (base + 12)
  return #v[w0, w1, w2, w3]

/-- Memory after the four words are written from `base` up. -/
def writeBackWords (gs : List Region) (m : Memory) (base : Word) (ws : Vector Word 4) : Except Fault Memory := do
  let m ← memWrite gs m base ws[0]
  let m ← memWrite gs m (base + 4) ws[1]
  let m ← memWrite gs m (base + 8) ws[2]
  memWrite gs m (base + 12) ws[3]

/-! ### The cache operations -/

/-- `CacheAccess(addr)` (R71): on a miss the block is refilled from Memory and marked valid, `missEvents` counts it and
`missFlag` is raised; on a hit `hitEvents` counts it. -/
def cacheAccess (a : Word) (s : State) : Except Fault State :=
  if cacheHit s.cache a then .ok { s with hitEvents := s.hitEvents + 1 }
  else do
    let ws ← refillWords s.cfg.regions s.mem (cacheBase a)
    return { s with
      cache := blockSet s.cache (cacheIndex a) { valid := true, tag := cacheTag a, words := ws }
      missEvents := s.missEvents + 1
      missFlag := true }

/-- `CacheRead(addr)` (R72): the word, and the state after the access. -/
def cacheRead (a : Word) (s : State) : Except Fault (Word × State) := do
  let s ← cacheAccess a s
  return (blockWord (blockGet s.cache (cacheIndex a)) (cacheOffset a), s)

/-- The width of an access (00_scope.md R15). -/
inductive Width where
  | byte
  | half
  | word
deriving DecidableEq, Repr

/-- `merge(w, v, width)` (R73, R80): the low bits of the value replace the low bits of the word, whatever the low two bits of
the address are (92_eei_decisions.md D25). -/
def mergeWord (w v : Word) : Width → Word
  | .byte => w.extractLsb' 8 24 ++ v.extractLsb' 0 8
  | .half => w.extractLsb' 16 16 ++ v.extractLsb' 0 16
  | .word => v

/-- `CacheWrite(addr, v, width)` (R73): access (write-allocate), merge, then write the whole block back to Memory. -/
def cacheWrite (a v : Word) (width : Width) (s : State) : Except Fault State := do
  let s ← cacheAccess a s
  let old := blockGet s.cache (cacheIndex a)
  let new := blockSetWord old (cacheOffset a) (mergeWord (blockWord old (cacheOffset a)) v width)
  let m ← writeBackWords s.cfg.regions s.mem (cacheBase a) new.words
  return { s with cache := blockSet s.cache (cacheIndex a) new, mem := m }

/-! ### The data path of the MEM stage (R80) -/

/-- `DataRead(addr)`: the cache when `CACHE_ENABLED`, Memory otherwise. -/
def dataRead (a : Word) (s : State) : Except Fault (Word × State) :=
  if s.cfg.cacheEnabled then cacheRead a s
  else do
    let w ← memRead s.cfg.regions s.mem a
    return (w, s)

/-- `DataWrite(addr, v, width)`: the cache when `CACHE_ENABLED`, read-merge-write of Memory otherwise. -/
def dataWrite (a v : Word) (width : Width) (s : State) : Except Fault State :=
  if s.cfg.cacheEnabled then cacheWrite a v width s
  else do
    let w ← memRead s.cfg.regions s.mem a
    let m ← memWrite s.cfg.regions s.mem a (mergeWord w v width)
    return { s with mem := m }

/-- What a load of this width puts in LMD, from the word read (44_load_store.md R271 to R273): the low 8 or 16 bits
sign-extended, or the word itself. -/
def extendLoad (w : Word) : Width → Word
  | .byte => (w.extractLsb' 0 8).signExtend 32
  | .half => (w.extractLsb' 0 16).signExtend 32
  | .word => w

end Sys2Proof.Machine
end

