-- ==== Sys2Proof/Machine/Operands.lean ====
section
/-! DEFINITION. Operands: register reads and writes, the register operands that EX resolves (40_pipeline.md R163 to R165), and
every immediate and target form of 30_encoding.md R103. -/

namespace Sys2Proof.Machine

/-! ### General registers (10_state.md R22: register 0 is an ordinary register) -/

/-- Register `r` of a register file. -/
def regGet (f : RegFile) (r : Reg) : Word := getElem f r.toNat r.isLt

/-- The register file with register `r` written. -/
def regSet (f : RegFile) (r : Reg) (v : Word) : RegFile := f.set r.toNat v r.isLt

/-- `x[r]`: the current generation (00_scope.md R13). -/
def readReg (s : State) (r : Reg) : Word := regGet s.cur.regs r

/-- `xn[r]`: the next generation as it stands (00_scope.md R13). -/
def readNextReg (s : State) (r : Reg) : Word := regGet s.nxt.regs r

/-- `x[r] <- v`: the next generation (00_scope.md R13). -/
def writeReg (r : Reg) (v : Word) (s : State) : State := { s with nxt := { s.nxt with regs := regSet s.nxt.regs r v } }

/-! ### Immediates and targets (30_encoding.md R103) -/

/-- `sext_16(imm16)`. -/
def sextImm (imm : Imm16) : Word := imm.signExtend 32

/-- `zext_16(imm16)`, of ANDI, ORI and XORI. -/
def zextImm (imm : Imm16) : Word := imm.setWidth 32

/-- `imm16 ++ 0x0000`, of LUI. -/
def upperImm (imm : Imm16) : Word := imm ++ 0#16

/-- `PC + (IMM << 2)`, the target of a conditional branch, where `pc` is the branch's address plus 4. -/
def branchTarget (pc imm : Word) : Word := pc + (imm <<< 2)

/-- `PC[31:28] ++ target26 ++ 0b00`, the target of J and JAL, where `pc` is the jump's address plus 4. -/
def jumpTarget (pc : Word) (target : Target26) : Word := pc.extractLsb' 28 4 ++ target ++ 0#2

/-! ### Register numbers of the words without `rs` and `rt` operands: they take part only in the operand latches -/

/-- The `rs` field, bits [25:21], of a J-format word. -/
def targetRs (target : Target26) : Reg := target.extractLsb' 21 5

/-- The `rt` field, bits [20:16], of a J-format word. -/
def targetRt (target : Target26) : Reg := target.extractLsb' 16 5

/-- The `rs` field, bits [25:21], of a SYSCALL word. -/
def codeRs (code : SysCode) : Reg := code.extractLsb' 15 5

/-- The `rt` field, bits [20:16], of a SYSCALL word. -/
def codeRt (code : SysCode) : Reg := code.extractLsb' 10 5

end Sys2Proof.Machine
end

