-- ==== Sys2Proof/Machine/Traits.lean ====
section
/-! DEFINITION. The classification functions of 30_encoding.md R116, used by the hazard unit and by WB. -/

namespace Sys2Proof.Machine

/-- `dest`, `we`, `srcA`, `srcB` and `is_load` of a class (R116). -/
structure Traits where
  dest : Reg
  we : Bool
  srcA : Bool
  srcB : Bool
  isLoad : Bool
deriving DecidableEq, Repr

/-- The row of `J SYSCALL UNIMP BUBBLE`: no destination and no source. -/
def Traits.inert : Traits := { dest := 0, we := false, srcA := false, srcB := false, isLoad := false }

/-- A row with `we` true. -/
def Traits.writes (dest : Reg) (srcA srcB : Bool) : Traits :=
  { dest := dest, we := true, srcA := srcA, srcB := srcB, isLoad := false }

/-- The row of the loads. -/
def Traits.load (dest : Reg) : Traits := { dest := dest, we := true, srcA := true, srcB := false, isLoad := true }

/-- A row with `we` false. -/
def Traits.reads (srcA srcB : Bool) : Traits := { dest := 0, we := false, srcA := srcA, srcB := srcB, isLoad := false }

/-- The table of R116. -/
def traitsOf : Instr → Traits
  | .add rd _ _ _ => .writes rd true true
  | .addu rd _ _ _ => .writes rd true true
  | .sub rd _ _ _ => .writes rd true true
  | .subu rd _ _ _ => .writes rd true true
  | .and rd _ _ _ => .writes rd true true
  | .or rd _ _ _ => .writes rd true true
  | .xor rd _ _ _ => .writes rd true true
  | .nor rd _ _ _ => .writes rd true true
  | .slt rd _ _ _ => .writes rd true true
  | .sll rd _ _ _ => .writes rd false true
  | .srl rd _ _ _ => .writes rd false true
  | .sra rd _ _ _ => .writes rd false true
  | .addi rt _ _ => .writes rt true false
  | .addiu rt _ _ => .writes rt true false
  | .slti rt _ _ => .writes rt true false
  | .andi rt _ _ => .writes rt true false
  | .ori rt _ _ => .writes rt true false
  | .xori rt _ _ => .writes rt true false
  | .lui rt _ _ => .writes rt false false
  | .mult _ _ _ _ => .reads true true
  | .multu _ _ _ _ => .reads true true
  | .div _ _ _ _ => .reads true true
  | .divu _ _ _ _ => .reads true true
  | .mfhi rd _ _ _ => .writes rd false false
  | .mflo rd _ _ _ => .writes rd false false
  | .mthi _ _ _ _ => .reads true false
  | .mtlo _ _ _ _ => .reads true false
  | .lb rt _ _ => .load rt
  | .lh rt _ _ => .load rt
  | .lw rt _ _ => .load rt
  | .sb _ _ _ => .reads true true
  | .sh _ _ _ => .reads true true
  | .sw _ _ _ => .reads true true
  | .beq _ _ _ => .reads true true
  | .bne _ _ _ => .reads true true
  | .blez _ _ _ => .reads true false
  | .bgtz _ _ _ => .reads true false
  | .bltz _ _ => .reads true false
  | .bgez _ _ => .reads true false
  | .j _ => .inert
  | .jal _ => .writes 31 false false
  | .jr _ _ _ _ => .reads true false
  | .jalr rd _ _ _ => .writes rd true false
  | .syscall _ => .inert

/-- The same functions of a class: BUBBLE and UNIMP have no destination and no source. -/
def traitsOfClass : Decoded → Traits
  | .bubble => .inert
  | .unimplemented => .inert
  | .instr i => traitsOf i

/-- The same functions of a word, `dest(ir)` and the others (R116). -/
def traitsOfWord (w : Word) : Traits := traitsOfClass (decode w)

end Sys2Proof.Machine
end

