-- ==== Sys2Proof/Machine/Ops.lean ====
section
/-! DEFINITION. The shared operations of the stages: the frames of EX, MEM and WB (40_pipeline.md R160, R175, R180), control
transfer (R168), the diagnostic (46_system.md R322) and the commit (R135).
No operation takes an exception or returns from one: "The hardware raises no synchronous exception and takes no interrupt"
(60_exceptions.md R400, R405, R406). What stands in the place of each trap is in the meanings themselves (R401). -/

namespace Sys2Proof.Machine

/-! ### Outcomes -/

/-- The outcome of an operation that may fault. -/
def ofExcept : Except Fault State → Res
  | .ok s => .next s
  | .error f => .fault f

/-- The work `f` on the state that `o` answers, if it answers one. -/
def andThen (o : Res) (f : State → Res) : Res :=
  match o with
  | .next s => f s
  | .fault r => .fault r
  | .refused r => .refused r

/-! ### Control transfer, the diagnostic, HI and LO, the halt -/

/-- `redirect(target)` (R168): the current PC is written at once, and the branch flag raised for ID in this cycle. -/
def redirect (target : Word) (s : State) : State :=
  { s with cur := { s.cur with pc := target }, branchFlag := true }

/-- `diagnose Unimplemented(pc, ir)` (00_scope.md R16): one more entry of the log, and nothing else. -/
def diagnose (pc ir : Word) (s : State) : State := { s with diagLog := s.diagLog ++ [⟨pc, ir⟩] }

/-- `hi <- v`: the next generation (00_scope.md R13). -/
def writeHi (v : Word) (s : State) : State := { s with nxt := { s.nxt with hi := v } }

/-- `lo <- v`: the next generation (00_scope.md R13). -/
def writeLo (v : Word) (s : State) : State := { s with nxt := { s.nxt with lo := v } }

/-- `HALT_CODE` (00_scope.md R9). -/
def haltCode : Word := 0xA

/-- The WB step of SYSCALL (46_system.md R320): the run flag is cleared when current `r2` is the halt code. -/
def haltTest (s : State) : State := if readReg s 2 = haltCode then { s with runFlag := false } else s

/-! ### The EX frame (R160) -/

/-- `resolve(sel, r)` (R163 to R165): the current register; the result of the producer that MEM has just moved to MEM/WB; or
the next-generation register that WB has just written. -/
def resolve (s : State) : Selector → Reg → Word
  | .none, r => readReg s r
  | .fromEx, _ => if (traitsOfWord s.memwb.ir).isLoad then s.memwb.lmd else s.memwb.alu
  | .fromMem, r => readNextReg s r

/-- What an EX step is written in terms of (R162): the resolved operands, `IDEX.IMM`, `IDEX.PC` (the instruction's address
plus 4), and the next `DIV_OVERFLOW` draw (log 5). -/
structure ExIn where
  opA : Word
  opB : Word
  imm : Word
  pc : Word
  draw : Word × Word

/-- What an EX step sets (R160): `alu`, `hi` and `lo`, 0 where it sets nothing; the target of a taken transfer; whether it
used the draw; and whether it reports a diagnostic. -/
structure ExOut where
  alu : Word := 0
  hi : Word := 0
  lo : Word := 0
  target : Option Word := none
  drew : Bool := false
  report : Bool := false

/-- The operands of the instruction in ID/EX whose `rs` and `rt` fields are given (R160, R163). -/
def exInput (rs rt : Reg) (s : State) : ExIn :=
  { opA := resolve s s.selA rs, opB := resolve s s.selB rt, imm := s.idex.imm, pc := s.idex.pc,
    draw := Config.divOverflow s.drawCount }

/-- EX/MEM as EX writes it (R170). -/
def exLatch (x : ExIn) (o : ExOut) (s : State) : PipeReg :=
  { ir := s.idex.ir, pc := s.idex.pc, a := x.opA, b := x.opB, imm := s.idex.imm, alu := o.alu, lmd := 0, hi := o.hi, lo := o.lo }

/-- The diagnostic an EX step reports, if it reports one: of the instruction's own address, `IDEX.PC - 4` (46_system.md R322). -/
def diagnoseIf : Bool → State → State
  | true, s => diagnose (s.idex.pc - 4) s.idex.ir s
  | false, s => s

/-- The transfer an EX step takes, if it takes one (R168). -/
def applyTarget : Option Word → State → State
  | none, s => s
  | some t, s => redirect t s

/-- EX on an instruction of class `c` with EX step `f` (R160): the selectors are used and cleared (R161), the step's effects
are made, EX/MEM is written (R170) and the occupant latches are refreshed (R167). -/
def performEx (c : Traits) (rs rt : Reg) (f : ExIn → ExOut) (s : State) : State :=
  let x := exInput rs rt s
  let o := f x
  let t := applyTarget o.target (diagnoseIf o.report s)
  { t with
    selA := .none
    selB := .none
    exmem := exLatch x o s
    exDest := c.dest
    exWe := c.we
    exLoad := c.isLoad
    drawCount := if o.drew then s.drawCount + 1 else s.drawCount }

/-- EX on a bubble (R136, R160). -/
def bubbleEx (s : State) : State :=
  { s with selA := .none, selB := .none, exmem := PipeReg.bubble, exDest := 0, exWe := false, exLoad := false }

/-! ### The MEM frame (R175) -/

/-- The MEM step of a class: only the loads, the stores, MFHI and MFLO have one (R175). -/
inductive MemStep where
  | pass
  | load (width : Width)
  | store (width : Width)
  | readHi
  | readLo
deriving DecidableEq, Repr

/-- The MEM frame before the step: MEM/WB takes EX/MEM with LMD 0, and the MEM-occupant latches are refreshed (R175, R176). -/
def memLatch (c : Traits) (s : State) : State :=
  { s with memwb := { s.exmem with lmd := 0 }, memDest := c.dest, memWe := c.we }

/-- MEM on an instruction of class `c` with MEM step `m` (R175). MFHI and MFLO read the next generation, after WB has run in
this cycle (43_muldiv_hilo.md R250). -/
def performMem (c : Traits) (m : MemStep) (s : State) : Except Fault State :=
  let t := memLatch c s
  match m with
  | .pass => .ok t
  | .load width => do
    let r ← dataRead s.exmem.alu t
    return { r.2 with memwb := { r.2.memwb with lmd := extendLoad r.1 width } }
  | .store width => dataWrite s.exmem.alu s.exmem.b width t
  | .readHi => .ok { t with memwb := { t.memwb with alu := s.nxt.hi } }
  | .readLo => .ok { t with memwb := { t.memwb with alu := s.nxt.lo } }

/-- MEM on a bubble (R136, R175). -/
def bubbleMem (s : State) : State := { s with memwb := PipeReg.bubble, memDest := 0, memWe := false }

/-! ### The WB frame (R180) -/

/-- The WB step of a class: the HI/LO writers and SYSCALL have one (R180). -/
inductive WbStep where
  | none
  | hiLo
  | hiLoUnlessZeroDivisor
  | hi
  | lo
  | haltTest
deriving DecidableEq, Repr

/-- The register write of the frame: LMD for a load, ALU for any other class that writes (R180). -/
def wbWrite (c : Traits) (s : State) : State :=
  if c.isLoad then writeReg c.dest s.memwb.lmd s
  else if c.we then writeReg c.dest s.memwb.alu s
  else s

/-- The WB step itself (43_muldiv_hilo.md R251 to R258, R261; 46_system.md R320). -/
def wbStep : WbStep → State → State
  | .none, s => s
  | .hiLo, s => writeLo s.memwb.lo (writeHi s.memwb.hi s)
  | .hiLoUnlessZeroDivisor, s => if s.memwb.b = 0 then s else writeLo s.memwb.lo (writeHi s.memwb.hi s)
  | .hi, s => writeHi s.memwb.alu s
  | .lo, s => writeLo s.memwb.alu s
  | .haltTest, s => haltTest s

/-- WB on an instruction of class `c` with WB step `b` (R180): it counts as retired. -/
def performWb (c : Traits) (b : WbStep) (s : State) : State :=
  let t := wbStep b (wbWrite c s)
  { t with instructionCount := t.instructionCount + 1 }

/-! ### An instruction's work in the stage being performed -/

/-- The work of an instruction of class `c`, with the given `rs` and `rt` fields and the given three steps, in the stage that
the driver is performing (log 1). -/
def perform (c : Traits) (rs rt : Reg) (f : ExIn → ExOut) (m : MemStep) (b : WbStep) (s : State) : Res :=
  match s.stage with
  | .ex => .next (performEx c rs rt f s)
  | .mem => ofExcept (performMem c m s)
  | .wb => .next (performWb c b s)

/-! ### The commit (R135) -/

/-- `Commit()`: current takes next, and the cycle is counted. -/
def commit (s : State) : State := { s with cur := s.nxt, cycleCount := s.cycleCount + 1 }

end Sys2Proof.Machine
end

