-- ==== Sys2Proof/Machine/AluImmediate.lean ====
section
/-! DEFINITION. The meanings of 42_alu_immediate.md: ADDI ADDIU SLTI ANDI ORI XORI LUI. -/

namespace Sys2Proof.Machine

/-- The template R230: EX sets `alu` from `opA` and `IDEX.IMM`, MEM has no step, and the frame of WB writes `rt`. -/
def aluImmStep (i : Instr) (rt rs : Reg) (f : Word → Word → Word) (s : State) : Res :=
  perform (traitsOf i) rs rt (fun x => { alu := f x.opA x.imm }) .pass .none s

/-- ADDI (R231): `opA + IMM`; signed overflow wraps. -/
def execAddi (rt rs : Reg) (imm : Imm16) (s : State) : Res := aluImmStep (.addi rt rs imm) rt rs (fun a m => a + m) s

/-- ADDIU (R232): the immediate is sign-extended, as for ADDI. -/
def execAddiu (rt rs : Reg) (imm : Imm16) (s : State) : Res := aluImmStep (.addiu rt rs imm) rt rs (fun a m => a + m) s

/-- SLTI (R233): a signed comparison with the sign-extended immediate. -/
def execSlti (rt rs : Reg) (imm : Imm16) (s : State) : Res := aluImmStep (.slti rt rs imm) rt rs setLess s

/-- ANDI (R234): EX recomputes the zero-extended immediate from the word (R238). -/
def execAndi (rt rs : Reg) (imm : Imm16) (s : State) : Res :=
  aluImmStep (.andi rt rs imm) rt rs (fun a _ => a &&& zextImm imm) s

/-- ORI (R235). -/
def execOri (rt rs : Reg) (imm : Imm16) (s : State) : Res :=
  aluImmStep (.ori rt rs imm) rt rs (fun a _ => a ||| zextImm imm) s

/-- XORI (R236). -/
def execXori (rt rs : Reg) (imm : Imm16) (s : State) : Res :=
  aluImmStep (.xori rt rs imm) rt rs (fun a _ => a ^^^ zextImm imm) s

/-- LUI (R237): `imm16 ++ 0x0000`; it reads no register. -/
def execLui (rt rs : Reg) (imm : Imm16) (s : State) : Res := aluImmStep (.lui rt rs imm) rt rs (fun _ _ => upperImm imm) s

end Sys2Proof.Machine
end

