-- ==== Sys2Proof/Machine/AluRegister.lean ====
section
/-! DEFINITION. The meanings of 41_alu_register.md: ADD ADDU SUB SUBU AND OR XOR NOR SLT SLL SRL SRA. -/

namespace Sys2Proof.Machine

/-- The template R200: EX sets `alu` from the two operands, MEM has no step, and the frame of WB writes the destination. -/
def aluStep (i : Instr) (rs rt : Reg) (f : Word → Word → Word) (s : State) : Res :=
  perform (traitsOf i) rs rt (fun x => { alu := f x.opA x.opB }) .pass .none s

/-- ADD (R201): the sum modulo 2^32; signed overflow wraps and does not trap (R214). -/
def execAdd (rd rs rt : Reg) (sa : Shamt) (s : State) : Res := aluStep (.add rd rs rt sa) rs rt (fun a b => a + b) s

/-- ADDU (R202). -/
def execAddu (rd rs rt : Reg) (sa : Shamt) (s : State) : Res := aluStep (.addu rd rs rt sa) rs rt (fun a b => a + b) s

/-- SUB (R203): the difference modulo 2^32; signed overflow wraps (R214). -/
def execSub (rd rs rt : Reg) (sa : Shamt) (s : State) : Res := aluStep (.sub rd rs rt sa) rs rt (fun a b => a - b) s

/-- SUBU (R204). -/
def execSubu (rd rs rt : Reg) (sa : Shamt) (s : State) : Res := aluStep (.subu rd rs rt sa) rs rt (fun a b => a - b) s

/-- AND (R205). -/
def execAnd (rd rs rt : Reg) (sa : Shamt) (s : State) : Res := aluStep (.and rd rs rt sa) rs rt (fun a b => a &&& b) s

/-- OR (R206). -/
def execOr (rd rs rt : Reg) (sa : Shamt) (s : State) : Res := aluStep (.or rd rs rt sa) rs rt (fun a b => a ||| b) s

/-- XOR (R207). -/
def execXor (rd rs rt : Reg) (sa : Shamt) (s : State) : Res := aluStep (.xor rd rs rt sa) rs rt (fun a b => a ^^^ b) s

/-- NOR (R208). -/
def execNor (rd rs rt : Reg) (sa : Shamt) (s : State) : Res := aluStep (.nor rd rs rt sa) rs rt (fun a b => ~~~(a ||| b)) s

/-- SLT (R209): a signed comparison. -/
def execSlt (rd rs rt : Reg) (sa : Shamt) (s : State) : Res := aluStep (.slt rd rs rt sa) rs rt setLess s

/-- SLL (R210): `opB << sa`. -/
def execSll (rd rs rt : Reg) (sa : Shamt) (s : State) : Res :=
  aluStep (.sll rd rs rt sa) rs rt (fun _ b => b <<< sa.toNat) s

/-- SRL (R211): `opB >>u sa`. -/
def execSrl (rd rs rt : Reg) (sa : Shamt) (s : State) : Res :=
  aluStep (.srl rd rs rt sa) rs rt (fun _ b => b >>> sa.toNat) s

/-- SRA (R212): `opB >>s sa`. -/
def execSra (rd rs rt : Reg) (sa : Shamt) (s : State) : Res :=
  aluStep (.sra rd rs rt sa) rs rt (fun _ b => b.sshiftRight sa.toNat) s

end Sys2Proof.Machine
end

