-- ==== Sys2Proof/Machine/ControlTransfer.lean ====
section
/-! DEFINITION. The meanings of 45_control_transfer.md: BEQ BNE BLEZ BGTZ BLTZ BGEZ J JAL JR JALR. -/

namespace Sys2Proof.Machine

/-- The template R290 of a conditional branch: EX redirects to `PC + (IMM << 2)` if the condition holds on the operands, and
does nothing otherwise. -/
def branchStep (i : Instr) (rs rt : Reg) (taken : Word → Word → Bool) (s : State) : Res :=
  perform (traitsOf i) rs rt
    (fun x => { target := if taken x.opA x.opB then some (branchTarget x.pc x.imm) else none }) .pass .none s

/-- BEQ (R291). -/
def execBeq (rt rs : Reg) (imm : Imm16) (s : State) : Res := branchStep (.beq rt rs imm) rs rt condEq s

/-- BNE (R292). -/
def execBne (rt rs : Reg) (imm : Imm16) (s : State) : Res := branchStep (.bne rt rs imm) rs rt condNe s

/-- BLEZ (R293). -/
def execBlez (rt rs : Reg) (imm : Imm16) (s : State) : Res := branchStep (.blez rt rs imm) rs rt (fun a _ => condLez a) s

/-- BGTZ (R294). -/
def execBgtz (rt rs : Reg) (imm : Imm16) (s : State) : Res := branchStep (.bgtz rt rs imm) rs rt (fun a _ => condGtz a) s

/-- BLTZ (R295): its `rt` field is 0x00 (30_encoding.md R113). -/
def execBltz (rs : Reg) (imm : Imm16) (s : State) : Res := branchStep (.bltz rs imm) rs 0 (fun a _ => condLtz a) s

/-- BGEZ (R296): its `rt` field is 0x01 (30_encoding.md R113). -/
def execBgez (rs : Reg) (imm : Imm16) (s : State) : Res := branchStep (.bgez rs imm) rs 1 (fun a _ => condGez a) s

/-- J (R297). -/
def execJ (target : Target26) (s : State) : Res :=
  perform (traitsOf (.j target)) (targetRs target) (targetRt target)
    (fun x => { target := some (jumpTarget x.pc target) }) .pass .none s

/-- JAL (R298): it links the address plus 4, which the frame of WB writes to r31. -/
def execJal (target : Target26) (s : State) : Res :=
  perform (traitsOf (.jal target)) (targetRs target) (targetRt target)
    (fun x => { alu := x.pc, target := some (jumpTarget x.pc target) }) .pass .none s

/-- JR (R299): the target is the operand as it stands (R302). -/
def execJr (rd rs rt : Reg) (sa : Shamt) (s : State) : Res :=
  perform (traitsOf (.jr rd rs rt sa)) rs rt (fun x => { target := some x.opA }) .pass .none s

/-- JALR (R300): it links the address plus 4, which the frame of WB writes to `rd`. -/
def execJalr (rd rs rt : Reg) (sa : Shamt) (s : State) : Res :=
  perform (traitsOf (.jalr rd rs rt sa)) rs rt (fun x => { alu := x.pc, target := some x.opA }) .pass .none s

end Sys2Proof.Machine
end

