-- ==== Sys2Proof/Machine/LoadStore.lean ====
section
/-! DEFINITION. The meanings of 44_load_store.md: LB LH LW SB SH SW. -/

namespace Sys2Proof.Machine

/-- The template R270: EX computes the effective address `opA + IMM`, and MEM makes the access. -/
def accessStep (i : Instr) (rt rs : Reg) (m : MemStep) (s : State) : Res :=
  perform (traitsOf i) rs rt (fun x => { alu := x.opA + x.imm }) m .none s

/-- LB (R271): the low 8 bits of the word read, sign-extended. -/
def execLb (rt rs : Reg) (imm : Imm16) (s : State) : Res := accessStep (.lb rt rs imm) rt rs (.load .byte) s

/-- LH (R272): the low 16 bits of the word read, sign-extended. -/
def execLh (rt rs : Reg) (imm : Imm16) (s : State) : Res := accessStep (.lh rt rs imm) rt rs (.load .half) s

/-- LW (R273): the word read. -/
def execLw (rt rs : Reg) (imm : Imm16) (s : State) : Res := accessStep (.lw rt rs imm) rt rs (.load .word) s

/-- SB (R274): the low 8 bits of `rt`, carried in `EXMEM.B`. -/
def execSb (rt rs : Reg) (imm : Imm16) (s : State) : Res := accessStep (.sb rt rs imm) rt rs (.store .byte) s

/-- SH (R275): the low 16 bits of `rt`. -/
def execSh (rt rs : Reg) (imm : Imm16) (s : State) : Res := accessStep (.sh rt rs imm) rt rs (.store .half) s

/-- SW (R276): the whole of `rt`. -/
def execSw (rt rs : Reg) (imm : Imm16) (s : State) : Res := accessStep (.sw rt rs imm) rt rs (.store .word) s

end Sys2Proof.Machine
end

