-- ==== Sys2Proof/Machine/MulDivHilo.lean ====
section
/-! DEFINITION. The meanings of 43_muldiv_hilo.md: MULT MULTU DIV DIVU MFHI MFLO MTHI MTLO. -/

namespace Sys2Proof.Machine

/-! ### Multiply and divide, exactly and then narrowed -/

/-- The 64-bit product of MULT (R251), in two's complement. -/
def signedProduct (a b : Word) : BitVec 64 := BitVec.ofInt 64 (a.toInt * b.toInt)

/-- The 64-bit product of MULTU (R252). -/
def unsignedProduct (a b : Word) : BitVec 64 := BitVec.ofNat 64 (a.toNat * b.toNat)

/-- `p[63:32]` and `p[31:0]` in HI and LO. -/
def productOut (p : BitVec 64) : ExOut := { hi := p.extractLsb' 32 32, lo := p.extractLsb' 0 32 }

/-- DIV's operands whose quotient has no 32-bit signed form (R260). -/
def divOverflows (a b : Word) : Bool := a == 0x80000000 && b == 0xFFFFFFFF

/-- The EX step of DIV (R253): nothing on a zero divisor, the draw on overflow (R260; log 5), else the quotient rounded toward
zero in LO and the remainder in HI (R259). -/
def divOut (x : ExIn) : ExOut :=
  if x.opB = 0 then {}
  else if divOverflows x.opA x.opB then { hi := x.draw.1, lo := x.draw.2, drew := true }
  else
    let q := x.opA.toInt.tdiv x.opB.toInt
    { hi := BitVec.ofInt 32 (x.opA.toInt - q * x.opB.toInt), lo := BitVec.ofInt 32 q }

/-- The EX step of DIVU (R254). -/
def divuOut (x : ExIn) : ExOut :=
  if x.opB = 0 then {}
  else { hi := BitVec.ofNat 32 (x.opA.toNat % x.opB.toNat), lo := BitVec.ofNat 32 (x.opA.toNat / x.opB.toNat) }

/-! ### The meanings -/

/-- MULT (R251): HI and LO are computed in EX and written in WB (R250). -/
def execMult (rd rs rt : Reg) (sa : Shamt) (s : State) : Res :=
  perform (traitsOf (.mult rd rs rt sa)) rs rt (fun x => productOut (signedProduct x.opA x.opB)) .pass .hiLo s

/-- MULTU (R252). -/
def execMultu (rd rs rt : Reg) (sa : Shamt) (s : State) : Res :=
  perform (traitsOf (.multu rd rs rt sa)) rs rt (fun x => productOut (unsignedProduct x.opA x.opB)) .pass .hiLo s

/-- DIV (R253): WB leaves HI and LO unchanged when the divisor is 0 (R261). -/
def execDiv (rd rs rt : Reg) (sa : Shamt) (s : State) : Res :=
  perform (traitsOf (.div rd rs rt sa)) rs rt divOut .pass .hiLoUnlessZeroDivisor s

/-- DIVU (R254): WB leaves HI and LO unchanged when the divisor is 0 (R261). -/
def execDivu (rd rs rt : Reg) (sa : Shamt) (s : State) : Res :=
  perform (traitsOf (.divu rd rs rt sa)) rs rt divuOut .pass .hiLoUnlessZeroDivisor s

/-- MFHI (R255): MEM reads next-generation HI into `MEMWB.ALU` (R250), and the frame of WB writes `rd`. -/
def execMfhi (rd rs rt : Reg) (sa : Shamt) (s : State) : Res :=
  perform (traitsOf (.mfhi rd rs rt sa)) rs rt (fun _ => {}) .readHi .none s

/-- MFLO (R256). -/
def execMflo (rd rs rt : Reg) (sa : Shamt) (s : State) : Res :=
  perform (traitsOf (.mflo rd rs rt sa)) rs rt (fun _ => {}) .readLo .none s

/-- MTHI (R257): `alu <- opA` in EX, `hi <- MEMWB.ALU` in WB. -/
def execMthi (rd rs rt : Reg) (sa : Shamt) (s : State) : Res :=
  perform (traitsOf (.mthi rd rs rt sa)) rs rt (fun x => { alu := x.opA }) .pass .hi s

/-- MTLO (R258). -/
def execMtlo (rd rs rt : Reg) (sa : Shamt) (s : State) : Res :=
  perform (traitsOf (.mtlo rd rs rt sa)) rs rt (fun x => { alu := x.opA }) .pass .lo s

end Sys2Proof.Machine
end

