-- ==== Sys2Proof/Machine/System.lean ====
section
/-! DEFINITION. The meanings of 46_system.md: SYSCALL, and the unimplemented words, which are no instruction of the table. -/

namespace Sys2Proof.Machine

/-- SYSCALL (R320): nothing in EX and MEM; WB clears the run flag if current `r2` is the halt code, and otherwise the
instruction only retires (R323). -/
def execSyscall (code : SysCode) (s : State) : Res :=
  perform (traitsOf (.syscall code)) (codeRs code) (codeRt code) (fun _ => {}) .pass .haltTest s

/-- A word with `decode(ir) = UNIMP` (R322): EX reports it once, and it has no other effect but to count as retired. -/
def execUnimplemented (ir : Word) (s : State) : Res :=
  perform (traitsOfClass .unimplemented) (rsField ir) (rtField ir) (fun _ => { report := true }) .pass .none s

end Sys2Proof.Machine
end

