-- ==== Sys2Proof/Machine/Dispatch.lean ====
section
/-! DEFINITION. One arm per constructor of Instr: the meaning of the instruction, in the stage that the state names (log 1). -/

namespace Sys2Proof.Machine

def exec (i : Instr) (s : State) : Host.Outcome State Fault Refusal :=
  match i with
  | .add rd rs rt sa => Sys2Proof.Machine.execAdd rd rs rt sa s
  | .addu rd rs rt sa => Sys2Proof.Machine.execAddu rd rs rt sa s
  | .sub rd rs rt sa => Sys2Proof.Machine.execSub rd rs rt sa s
  | .subu rd rs rt sa => Sys2Proof.Machine.execSubu rd rs rt sa s
  | .and rd rs rt sa => Sys2Proof.Machine.execAnd rd rs rt sa s
  | .or rd rs rt sa => Sys2Proof.Machine.execOr rd rs rt sa s
  | .xor rd rs rt sa => Sys2Proof.Machine.execXor rd rs rt sa s
  | .nor rd rs rt sa => Sys2Proof.Machine.execNor rd rs rt sa s
  | .slt rd rs rt sa => Sys2Proof.Machine.execSlt rd rs rt sa s
  | .sll rd rs rt sa => Sys2Proof.Machine.execSll rd rs rt sa s
  | .srl rd rs rt sa => Sys2Proof.Machine.execSrl rd rs rt sa s
  | .sra rd rs rt sa => Sys2Proof.Machine.execSra rd rs rt sa s
  | .addi rt rs imm => Sys2Proof.Machine.execAddi rt rs imm s
  | .addiu rt rs imm => Sys2Proof.Machine.execAddiu rt rs imm s
  | .slti rt rs imm => Sys2Proof.Machine.execSlti rt rs imm s
  | .andi rt rs imm => Sys2Proof.Machine.execAndi rt rs imm s
  | .ori rt rs imm => Sys2Proof.Machine.execOri rt rs imm s
  | .xori rt rs imm => Sys2Proof.Machine.execXori rt rs imm s
  | .lui rt rs imm => Sys2Proof.Machine.execLui rt rs imm s
  | .mult rd rs rt sa => Sys2Proof.Machine.execMult rd rs rt sa s
  | .multu rd rs rt sa => Sys2Proof.Machine.execMultu rd rs rt sa s
  | .div rd rs rt sa => Sys2Proof.Machine.execDiv rd rs rt sa s
  | .divu rd rs rt sa => Sys2Proof.Machine.execDivu rd rs rt sa s
  | .mfhi rd rs rt sa => Sys2Proof.Machine.execMfhi rd rs rt sa s
  | .mflo rd rs rt sa => Sys2Proof.Machine.execMflo rd rs rt sa s
  | .mthi rd rs rt sa => Sys2Proof.Machine.execMthi rd rs rt sa s
  | .mtlo rd rs rt sa => Sys2Proof.Machine.execMtlo rd rs rt sa s
  | .lb rt rs imm => Sys2Proof.Machine.execLb rt rs imm s
  | .lh rt rs imm => Sys2Proof.Machine.execLh rt rs imm s
  | .lw rt rs imm => Sys2Proof.Machine.execLw rt rs imm s
  | .sb rt rs imm => Sys2Proof.Machine.execSb rt rs imm s
  | .sh rt rs imm => Sys2Proof.Machine.execSh rt rs imm s
  | .sw rt rs imm => Sys2Proof.Machine.execSw rt rs imm s
  | .beq rt rs imm => Sys2Proof.Machine.execBeq rt rs imm s
  | .bne rt rs imm => Sys2Proof.Machine.execBne rt rs imm s
  | .blez rt rs imm => Sys2Proof.Machine.execBlez rt rs imm s
  | .bgtz rt rs imm => Sys2Proof.Machine.execBgtz rt rs imm s
  | .bltz rs imm => Sys2Proof.Machine.execBltz rs imm s
  | .bgez rs imm => Sys2Proof.Machine.execBgez rs imm s
  | .j target => Sys2Proof.Machine.execJ target s
  | .jal target => Sys2Proof.Machine.execJal target s
  | .jr rd rs rt sa => Sys2Proof.Machine.execJr rd rs rt sa s
  | .jalr rd rs rt sa => Sys2Proof.Machine.execJalr rd rs rt sa s
  | .syscall code => Sys2Proof.Machine.execSyscall code s

end Sys2Proof.Machine
end

