-- ==== Sys2Proof/Machine/Hazard.lean ====
section
/-! DEFINITION. The ID stage with the hazard and forwarding unit (40_pipeline.md R150 to R158), and the IF stage (R140). -/

namespace Sys2Proof.Machine

/-! ### Stall counts (00_scope.md R9) -/

/-- `STALL_EX`. -/
def stallEx : Nat := 3

/-- `STALL_MEM`. -/
def stallMem : Nat := 2

/-- `STALL_LOAD`. -/
def stallLoad : Nat := 2

/-! ### Hazard comparison -/

/-- `ex_hit(r)` (R152): the EX-stage occupant writes `r`, and `r` is not register 0. -/
def exHit (s : State) (r : Reg) : Bool := s.exWe && s.exDest != 0 && s.exDest == r

/-- `mem_hit(r)` (R152): the same of the MEM-stage occupant. -/
def memHit (s : State) (r : Reg) : Bool := s.memWe && s.memDest != 0 && s.memDest == r

/-- The stall that one source operand needs (R155): with forwarding it needs none. An EX-occupant match takes priority (R156). -/
def operandStall (s : State) (reads : Bool) (r : Reg) : Nat :=
  if !reads || s.forwardingEnabled then 0
  else if exHit s r then stallEx
  else if memHit s r then stallMem
  else 0

/-- The selector of one source operand (R155): without forwarding none is armed. -/
def operandSelector (s : State) (reads : Bool) (r : Reg) : Selector :=
  if !reads || !s.forwardingEnabled then .none
  else if exHit s r then .fromEx
  else if memHit s r then .fromMem
  else .none

/-- `need` (R155, R156): the longest of the two operands' stalls and of the unconditional load-use stall (R154), which reads
`ex_load` (R167). -/
def stallNeed (s : State) (c : Traits) (rs rt : Reg) : Nat :=
  max (max (operandStall s c.srcA rs) (operandStall s c.srcB rt)) (if s.exLoad then stallLoad else 0)

/-! ### ID -/

/-- ID/EX takes a bubble and both selectors NONE. -/
def idBubble (s : State) : State := { s with idex := PipeReg.bubble, selA := .none, selB := .none }

/-- What ID latches of the instruction in IF/ID, with the word `ir` it passes (R155, R158). -/
def idLatch (s : State) (ir : Word) : PipeReg :=
  { PipeReg.bubble with
    ir := ir
    pc := s.ifid.pc
    a := readReg s (rsField s.ifid.ir)
    b := readReg s (rtField s.ifid.ir)
    imm := sextImm (immField s.ifid.ir) }

/-- ID's decode work on the instruction in IF/ID (R155): a stall bubble that keeps the snapshot, or the instruction with its
selectors. -/
def idDecode (s : State) : State × Bool :=
  let ir := s.ifid.ir
  let c := traitsOfWord ir
  let need := stallNeed s c (rsField ir) (rtField ir)
  if 0 < need then
    ({ s with idex := idLatch s 0, selA := .none, selB := .none, stallCount := need - 1 }, true)
  else
    ({ s with idex := idLatch s ir, selA := operandSelector s c.srcA (rsField ir),
              selB := operandSelector s c.srcB (rtField ir) }, false)

/-- The ID stage (R151, R155, R157): the state after it, and the wire `id_stalled` (10_state.md R44). An outstanding stall
comes first, then a flush, then a bubble in IF/ID, then decode. -/
def idStage (s : State) : State × Bool :=
  if 0 < s.stallCount then (idBubble { s with stallCount := s.stallCount - 1 }, true)
  else if s.branchFlag then (idBubble { s with branchFlag := false }, false)
  else if s.ifid.ir = 0 then (idBubble s, false)
  else idDecode s

/-! ### IF -/

/-- IF/ID as IF writes it (10_state.md R31): the fetched word, and the fetch address plus 4. -/
def fetchLatch (w pc : Word) : PipeReg := { PipeReg.bubble with ir := w, pc := pc + 4 }

/-- The IF stage (R140): unless ID stalled, the word that Memory (not the cache) holds at the current PC enters IF/ID, and the
next PC is 4 further. -/
def ifStage (stalled : Bool) (s : State) : Except Fault State :=
  if stalled then .ok s
  else do
    let w ← memRead s.cfg.regions s.mem s.cur.pc
    return { s with ifid := fetchLatch w s.cur.pc, nxt := { s.nxt with pc := s.cur.pc + 4 } }

end Sys2Proof.Machine
end

