-- ==== Sys2Proof/Machine/Pipeline.lean ====
section
/-! DEFINITION. The WB, MEM and EX stages, which run `exec` on the instruction of their input register (30_encoding.md R114:
each decodes its own input's IR), and the cycle (40_pipeline.md R131). -/

namespace Sys2Proof.Machine

/-- The state with `stage` naming the stage the driver performs (log 1). -/
def atStage (g : Stage) (s : State) : State := { s with stage := g }

/-- WB (R180): nothing on a bubble (R136). -/
def wbStage (s : State) : Res :=
  match decode s.memwb.ir with
  | .bubble => .next (atStage .wb s)
  | .unimplemented => execUnimplemented s.memwb.ir (atStage .wb s)
  | .instr i => exec i (atStage .wb s)

/-- MEM (R175): a bubble passes as a bubble (R136). -/
def memStage (s : State) : Res :=
  match decode s.exmem.ir with
  | .bubble => .next (bubbleMem (atStage .mem s))
  | .unimplemented => execUnimplemented s.exmem.ir (atStage .mem s)
  | .instr i => exec i (atStage .mem s)

/-- EX (R160): a bubble passes as a bubble (R136). -/
def exStage (s : State) : Res :=
  match decode s.idex.ir with
  | .bubble => .next (bubbleEx (atStage .ex s))
  | .unimplemented => execUnimplemented s.idex.ir (atStage .ex s)
  | .instr i => exec i (atStage .ex s)

/-- ID, IF and the commit: what the cycle does once WB, MEM and EX have run (R131). -/
def finishCycle (s : State) : Res :=
  let d := idStage s
  match ifStage d.2 d.1 with
  | .ok t => .next (atStage .wb (commit t))
  | .error f => .fault f

/-- `Cycle()` (R131): WB, MEM, EX, ID, IF, then the commit. A halted machine runs no cycle (R137), and the miss flag is
cleared first (R138). -/
def cycle (s : State) : Res :=
  if s.runFlag then
    andThen (wbStage { s with missFlag := false }) fun s =>
      andThen (memStage s) fun s =>
        andThen (exStage s) finishCycle
  else .next s

/-- ID/EX and the selectors as ID leaves them for a word that it decodes at the current PC with no hazard (R155; log 2). -/
def presentWord (w : Word) (s : State) : State :=
  { s with
    idex := idLatch { s with ifid := fetchLatch w s.cur.pc } w
    selA := .none
    selB := .none
    runFlag := true }

end Sys2Proof.Machine
end

