-- ==== Sys2Proof/Machine/Step.lean ====
section
/-! DEFINITION. One step of the machine is one cycle: "The machine advances only by whole cycles" (40_pipeline.md R130). -/

namespace Sys2Proof.Machine

/-- One step: `Cycle()` (40_pipeline.md R130, R131). -/
def step (s : State) : Host.Outcome State Fault Refusal := cycle s

/-- The state whose very next step executes the instruction with the bits `w`: it stands in ID/EX, from where a cycle takes
the instruction it executes (log 2). -/
def State.withFetchWord (s : State) (nbits w : Nat) : State := presentWord (BitVec.ofNat 32 (w % 2 ^ nbits)) s

end Sys2Proof.Machine
end

