-- ==== Sys2Proof/Machine/HostCommands.lean ====
section
/-! DEFINITION. What the host does to the core between cycles: the run commands (40_pipeline.md R137, R138), the commands of
R190 to R197, and reset with the program loader (70_reset_and_hazards.md R450 to R452). `step` calls none of them (log 14). -/

namespace Sys2Proof.Machine

/-! ### Run commands (40_pipeline.md R137, R138) -/

/-- `run_all()` with at most `fuel` cycles: "loops until halt". `none` says that the fuel ran out, and then no claim may be
made (R137; log 15). It neither reads nor changes `penaltyRemaining` (R138). -/
def runAll : Nat → State → Option Res
  | 0, s => if s.runFlag then none else some (.next s)
  | fuel + 1, s =>
    if s.runFlag then
      match cycle s with
      | .next t => runAll fuel t
      | .fault f => some (.fault f)
      | .refused r => some (.refused r)
    else some (.next s)

/-- One iteration of `run(n)`'s loop (R137): a penalty cycle, which "adds 1 to CYCLE_COUNT and changes nothing else", or a
cycle, after which a miss charges `missPenalty` further iterations (R138; log 6). -/
def boundedIteration (missPenalty : Nat) (s : State) : Res :=
  if 0 < s.penaltyRemaining then
    .next { s with penaltyRemaining := s.penaltyRemaining - 1, cycleCount := s.cycleCount + 1 }
  else
    andThen (cycle s) fun t => .next (if t.missFlag then { t with penaltyRemaining := missPenalty } else t)

/-- `run(n)` (R137): it stops early when the machine halts. -/
def runBounded (missPenalty : Nat) : Nat → State → Res
  | 0, s => .next s
  | n + 1, s => if s.runFlag then andThen (boundedIteration missPenalty s) (runBounded missPenalty n) else .next s

/-! ### Setting registers and the forwarding mode (R192, R193) -/

/-- "Set a register": both generations (R192). -/
def setReg (r : Reg) (v : Word) (s : State) : State :=
  { s with
    cur := { s.cur with regs := regSet s.cur.regs r v }
    nxt := { s.nxt with regs := regSet s.nxt.regs r v } }

/-- "Set HI": both generations (R192). -/
def setHi (v : Word) (s : State) : State := { s with cur := { s.cur with hi := v }, nxt := { s.nxt with hi := v } }

/-- "Set LO": both generations (R192). -/
def setLo (v : Word) (s : State) : State := { s with cur := { s.cur with lo := v }, nxt := { s.nxt with lo := v } }

/-- "Toggle forwarding on/off" (R193). -/
def toggleForwarding (s : State) : State := { s with forwardingEnabled := !s.forwardingEnabled }

/-! ### Reset and the loader (70_reset_and_hazards.md R450 to R452) -/

/-- The words of a list written from `a` up, four bytes apart (R452). -/
def writeImage (gs : List Region) : List Word → Word → Memory → Except Fault Memory
  | [], _, m => .ok m
  | w :: ws, a, m => do
    let m ← memWrite gs m a w
    writeImage gs ws (a + 4) m

/-- `LoadImage(image)` (R452): directly to Memory from `TEXT_BASE` up, not through the cache. -/
def loadImage (image : List Word) (s : State) : Except Fault State := do
  let m ← writeImage s.cfg.regions image s.cfg.textBase s.mem
  return { s with mem := m }

/-- Power-on with a program image (R451). -/
def powerOnWith (c : Config) (image : List Word) : Except Fault State := loadImage image (State.powerOn c)

/-- `Reset()` (R450): every piece of state is cleared, the image is reloaded, and the forwarding mode is kept. The model's own
draw counter is kept too (log 17). -/
def hostReset (image : List Word) (s : State) : Except Fault State :=
  loadImage image { State.powerOn s.cfg with forwardingEnabled := s.forwardingEnabled, drawCount := s.drawCount }

/-! ### Dumps (R194 to R197): contents only, and no change of state -/

/-- The register dump (R194): the current generation and the two counters. -/
structure RegisterDump where
  regs : RegFile
  hi : Word
  lo : Word
  pc : Word
  cycleCount : Nat
  instructionCount : Nat
deriving DecidableEq, Repr

/-- What the register dump reports (R194). -/
def registerDump (s : State) : RegisterDump :=
  { regs := s.cur.regs, hi := s.cur.hi, lo := s.cur.lo, pc := s.cur.pc, cycleCount := s.cycleCount,
    instructionCount := s.instructionCount }

/-- `n` words that Memory holds from `a` up, with their addresses (R197). -/
def dumpWords (s : State) : Nat → Word → Except Fault (List (Word × Word))
  | 0, _ => .ok []
  | n + 1, a => do
    let w ← memRead s.cfg.regions s.mem a
    let rest ← dumpWords s n (a + 4)
    return (a, w) :: rest

/-- The memory dump `[a, b]` (R191, R197): the words at `a`, `a + 4` and so on up to `b`, past the cache (log 16). -/
def memoryDump (a b : Word) (s : State) : Except Fault (List (Word × Word)) :=
  dumpWords s (if a.toNat ≤ b.toNat then (b.toNat - a.toNat) / 4 + 1 else 0) a

/-- The cache dump (R195), with the two counters under the labels they are printed with. -/
structure CacheDump where
  blocks : Vector CacheBlock 16
  labelledHits : Nat
  labelledMisses : Nat
deriving DecidableEq, Repr

/-- What the cache dump reports (R195): the labels are swapped, "implement as observed". -/
def cacheDump (s : State) : CacheDump :=
  { blocks := s.cache, labelledHits := s.missEvents, labelledMisses := s.hitEvents }

/-- The pipeline dump (R196). -/
structure PipelineDump where
  ifid : PipeReg
  idex : PipeReg
  exmem : PipeReg
  memwb : PipeReg
deriving DecidableEq, Repr

/-- What the pipeline dump reports (R196). -/
def pipelineDump (s : State) : PipelineDump := { ifid := s.ifid, idex := s.idex, exmem := s.exmem, memwb := s.memwb }

/-- The program listing (R197): what each word of the image decodes to; its text is out of scope (log 18). -/
def programListing (image : List Word) : List Decoded := image.map decode

end Sys2Proof.Machine
end

