-- ==== Sys2Proof/Safety.lean ====
section
/-! DEFINITION. The terms that claims about runs use: what each stage may write (40_pipeline.md R132), the invariants of the
machine between cycles, and what an operand is worth in program order. -/

namespace Sys2Proof.Machine

/-! ### What a stage leaves alone (40_pipeline.md R132) -/

/-- The state that no stage and no commit writes: the parameters, the forwarding mode (10_state.md R45) and the penalty still
owed (R138). -/
structure SameSettings (s t : State) : Prop where
  cfg : t.cfg = s.cfg
  forwardingEnabled : t.forwardingEnabled = s.forwardingEnabled
  penaltyRemaining : t.penaltyRemaining = s.penaltyRemaining

/-- The cache, its counters, the miss flag and Memory are as before. -/
structure SameMemory (s t : State) : Prop where
  mem : t.mem = s.mem
  cache : t.cache = s.cache
  hitEvents : t.hitEvents = s.hitEvents
  missEvents : t.missEvents = s.missEvents
  missFlag : t.missFlag = s.missFlag

/-- EX writes EX/MEM, its occupant latches, the selectors, the current PC, the branch flag, the diagnostic log and the model's
draw counter, and nothing else (R132). -/
structure ExFrame (s t : State) : Prop extends SameSettings s t, SameMemory s t where
  regs : t.cur.regs = s.cur.regs
  hi : t.cur.hi = s.cur.hi
  lo : t.cur.lo = s.cur.lo
  nxt : t.nxt = s.nxt
  ifid : t.ifid = s.ifid
  idex : t.idex = s.idex
  memwb : t.memwb = s.memwb
  stallCount : t.stallCount = s.stallCount
  memDest : t.memDest = s.memDest
  memWe : t.memWe = s.memWe
  runFlag : t.runFlag = s.runFlag
  cycleCount : t.cycleCount = s.cycleCount
  instructionCount : t.instructionCount = s.instructionCount
  stage : t.stage = s.stage

/-- MEM writes MEM/WB, its occupant latches, the cache, its counters, the miss flag and Memory, and nothing else (R132). -/
structure MemFrame (s t : State) : Prop extends SameSettings s t where
  cur : t.cur = s.cur
  nxt : t.nxt = s.nxt
  ifid : t.ifid = s.ifid
  idex : t.idex = s.idex
  exmem : t.exmem = s.exmem
  selA : t.selA = s.selA
  selB : t.selB = s.selB
  stallCount : t.stallCount = s.stallCount
  exDest : t.exDest = s.exDest
  exWe : t.exWe = s.exWe
  exLoad : t.exLoad = s.exLoad
  branchFlag : t.branchFlag = s.branchFlag
  diagLog : t.diagLog = s.diagLog
  runFlag : t.runFlag = s.runFlag
  cycleCount : t.cycleCount = s.cycleCount
  instructionCount : t.instructionCount = s.instructionCount
  stage : t.stage = s.stage
  drawCount : t.drawCount = s.drawCount

/-- WB writes the next general registers, next HI and LO, the run flag and INSTRUCTION_COUNT, and nothing else (R132). -/
structure WbFrame (s t : State) : Prop extends SameSettings s t, SameMemory s t where
  cur : t.cur = s.cur
  pc : t.nxt.pc = s.nxt.pc
  ifid : t.ifid = s.ifid
  idex : t.idex = s.idex
  exmem : t.exmem = s.exmem
  memwb : t.memwb = s.memwb
  selA : t.selA = s.selA
  selB : t.selB = s.selB
  stallCount : t.stallCount = s.stallCount
  exDest : t.exDest = s.exDest
  exWe : t.exWe = s.exWe
  exLoad : t.exLoad = s.exLoad
  memDest : t.memDest = s.memDest
  memWe : t.memWe = s.memWe
  branchFlag : t.branchFlag = s.branchFlag
  diagLog : t.diagLog = s.diagLog
  cycleCount : t.cycleCount = s.cycleCount
  stage : t.stage = s.stage
  drawCount : t.drawCount = s.drawCount

/-! ### The states that the stages' work leaves, field by field -/

/-- The state after EX on an instruction that takes no transfer (40_pipeline.md R160, R161, R167, R170): EX/MEM holds the
resolved operands and the given results, the occupant latches the given destination, and the selectors are cleared. -/
def afterEx (s : State) (rs rt dest : Reg) (we isLoad : Bool) (alu hi lo : Word) : State :=
  { s with
    exmem :=
      { ir := s.idex.ir, pc := s.idex.pc, a := resolve s s.selA rs, b := resolve s s.selB rt, imm := s.idex.imm,
        alu := alu, lmd := 0, hi := hi, lo := lo }
    exDest := dest
    exWe := we
    exLoad := isLoad
    selA := .none
    selB := .none }

/-- The state with a transfer taken to `target` (40_pipeline.md R168). -/
def afterTransfer (s : State) (target : Word) : State :=
  { s with cur := { s.cur with pc := target }, branchFlag := true }

/-- The state after MEM on an instruction without a MEM step (40_pipeline.md R175, R176). -/
def afterPass (s : State) (dest : Reg) (we : Bool) : State :=
  { s with memwb := { s.exmem with lmd := 0 }, memDest := dest, memWe := we }

/-- The state after WB on an instruction that writes nothing: it counts as retired (40_pipeline.md R180). -/
def afterRetire (s : State) : State := { s with instructionCount := s.instructionCount + 1 }

/-- The state after WB on an instruction that writes `v` to general register `dest` (40_pipeline.md R180, R181). -/
def afterWrite (s : State) (dest : Reg) (v : Word) : State :=
  { s with nxt := { s.nxt with regs := regSet s.nxt.regs dest v }, instructionCount := s.instructionCount + 1 }

/-- The state after WB on an instruction that writes `hi` and `lo` to HI and LO (43_muldiv_hilo.md R250). -/
def afterHiLo (s : State) (hi lo : Word) : State :=
  { s with nxt := { s.nxt with hi := hi, lo := lo }, instructionCount := s.instructionCount + 1 }

/-- The state after ID decoded the instruction in IF/ID (40_pipeline.md R155, R158; 10_state.md R32): ID/EX holds the given word
(the instruction, or 0 for a stall bubble), the PC of IF/ID, the snapshots of `rs` and `rt` from the current generation, the
sign-extended immediate and zeros; the selectors and the bubbles still to come are as given; all else is as before. -/
def afterDecode (s : State) (ir : Word) (selA selB : Selector) (stallCount : Nat) : State :=
  { s with
    idex :=
      { ir := ir, pc := s.ifid.pc, a := regGet s.cur.regs (rsField s.ifid.ir), b := regGet s.cur.regs (rtField s.ifid.ir),
        imm := BitVec.ofInt 32 (immField s.ifid.ir).toInt, alu := 0, lmd := 0, hi := 0, lo := 0 }
    selA := selA
    selB := selB
    stallCount := stallCount }

/-! ### Invariants between cycles -/

/-- A word of this class writes general register `r` (30_encoding.md R116). -/
def writesReg (w : Word) (r : Reg) : Prop := (traitsOfWord w).we = true ∧ (traitsOfWord w).dest = r

/-- The result that the instruction in a pipeline register after MEM carries: LMD for a load, ALU otherwise (40_pipeline.md R164). -/
def resultOf (p : PipeReg) : Word := if (traitsOfWord p.ir).isLoad then p.lmd else p.alu

/-- A selector fits the older instructions in EX/MEM and MEM/WB (40_pipeline.md R155, R156): it points at the youngest of them
that writes the operand's register, and register 0 is never tracked (R152). -/
def selectorFits (s : State) (reads : Bool) (r : Reg) : Selector → Prop
  | .fromEx => reads = true ∧ r ≠ 0 ∧ writesReg s.exmem.ir r
  | .fromMem => reads = true ∧ r ≠ 0 ∧ ¬ writesReg s.exmem.ir r ∧ writesReg s.memwb.ir r
  | .none => reads = true → r ≠ 0 → ¬ writesReg s.exmem.ir r ∧ ¬ writesReg s.memwb.ir r

/-- What holds of the pipeline between cycles. -/
structure PipelineInv (s : State) : Prop where
  /-- "Right after a commit the two generations are equal" (10_state.md R21). -/
  generations : s.cur = s.nxt
  /-- "branch_flag is therefore always false between cycles" (40_pipeline.md R151). -/
  branchFlag : s.branchFlag = false
  stage : s.stage = .wb
  /-- A stall is of at most 3 bubbles, so at most 2 remain (40_pipeline.md R156). -/
  stallBound : s.stallCount ≤ 2
  /-- While a stall is outstanding, ID/EX holds the bubble that ID emitted (40_pipeline.md R143). -/
  stallBubble : 0 < s.stallCount → s.idex.ir = 0
  /-- `IMM` is the sign-extended immediate of the word (10_state.md R30). -/
  idexImm : s.idex.ir ≠ 0 → s.idex.imm = sextImm (immField s.idex.ir)
  exmemImm : s.exmem.ir ≠ 0 → s.exmem.imm = sextImm (immField s.exmem.ir)
  memwbImm : s.memwb.ir ≠ 0 → s.memwb.imm = sextImm (immField s.memwb.ir)
  /-- The occupant latches describe EX/MEM and MEM/WB (10_state.md R42). -/
  exDest : s.exDest = (traitsOfWord s.exmem.ir).dest
  exWe : s.exWe = (traitsOfWord s.exmem.ir).we
  exLoad : s.exLoad = (traitsOfWord s.exmem.ir).isLoad
  memDest : s.memDest = (traitsOfWord s.memwb.ir).dest
  memWe : s.memWe = (traitsOfWord s.memwb.ir).we
  /-- With a bubble in ID/EX no selector is armed (40_pipeline.md R151, R157). -/
  bubbleSelectors : s.idex.ir = 0 → s.selA = .none ∧ s.selB = .none
  selAFits : selectorFits s (traitsOfWord s.idex.ir).srcA (rsField s.idex.ir) s.selA
  selBFits : selectorFits s (traitsOfWord s.idex.ir).srcB (rtField s.idex.ir) s.selB

/-- What holds of Memory: its canonical form, and "only the regions hold storage" (20_memory.md R68). -/
structure MemoryInv (s : State) : Prop where
  canonical : Memory.wf s.mem
  inRegions : ∀ c ∈ s.mem, ∃ g ∈ s.cfg.regions, inRegion g c.1 = true

/-- An address lies in a region. -/
def mapped (c : Config) (a : Word) : Prop := (regionOf c.regions a).isSome = true

/-- The address of word `off` of the block that `(index, tag)` names: `(tag << 8) | (i << 4) | (k << 2)` (10_state.md R49). -/
def blockWordAddr (tag : BitVec 24) (index : BitVec 4) (off : BitVec 2) : Word := tag ++ index ++ off ++ 0#2

/-- Every valid block over addresses in a region holds what Memory reads there (20_memory.md R76). -/
def CacheCoherent (s : State) : Prop :=
  ∀ index : BitVec 4, (blockGet s.cache index).valid = true →
    mapped s.cfg (blockBase (blockGet s.cache index).tag index) →
      ∀ off : BitVec 2,
        memRead s.cfg.regions s.mem (blockWordAddr (blockGet s.cache index).tag index off) =
          .ok (blockWord (blockGet s.cache index) off)

/-- The aligned word address that a data access reaches through the cache, `addr & ~3` (20_memory.md R70, R81). -/
def alignedAddr (a : Word) : Word := a &&& ~~~ 3#32

/-- How many bytes an access of this width stores (44_load_store.md R277). -/
def Width.bytes : Width → Nat
  | .byte => 1
  | .half => 2
  | .word => 4

/-- The address `n` is one of the bytes that a store of this width to `a` changes: the low bytes of the aligned word
(20_memory.md R81). -/
def storedByte (a : Word) (width : Width) (n : Nat) : Prop :=
  (alignedAddr a).toNat ≤ n ∧ n < (alignedAddr a).toNat + width.bytes

/-! ### Operands in program order -/

/-- What register `r` is worth to the instruction in ID/EX once WB and MEM have run in the cycle: the result of the instruction
now in MEM/WB if that one writes `r`, and next-generation `r` otherwise, which WB has just brought up to date. -/
def valueInOrder (s : State) (r : Reg) : Word :=
  if (traitsOfWord s.memwb.ir).we && (traitsOfWord s.memwb.ir).dest == r then resultOf s.memwb else readNextReg s r

/-! ### Runs -/

/-- No other instruction is in flight, nothing is stalled, and the machine runs. -/
structure Quiet (s : State) : Prop where
  runFlag : s.runFlag = true
  ifid : s.ifid.ir = 0
  idex : s.idex.ir = 0
  exmem : s.exmem.ir = 0
  memwb : s.memwb.ir = 0
  stallCount : s.stallCount = 0
  branchFlag : s.branchFlag = false
  generations : s.cur = s.nxt

/-- What a load or store changes on a cache hit: one hit is counted (20_memory.md R71). -/
def afterHit (s : State) : State := { s with hitEvents := s.hitEvents + 1 }

/-- What a load or store changes on a cache miss before anything else: the block is refilled with `ws` and marked valid, one miss
is counted, and the miss flag raised (20_memory.md R71). -/
def afterMiss (s : State) (a : Word) (ws : Vector Word 4) : State :=
  { s with
    cache := blockSet s.cache (cacheIndex a) { valid := true, tag := cacheTag a, words := ws }
    missEvents := s.missEvents + 1
    missFlag := true }

/-- The datum that a load of this width makes of the word read: the low 8 or 16 bits as a signed number, or the word
(44_load_store.md R277). -/
def loadedValue (w : Word) : Width → Word
  | .byte => BitVec.ofInt 32 (w.extractLsb' 0 8).toInt
  | .half => BitVec.ofInt 32 (w.extractLsb' 0 16).toInt
  | .word => w

/-- The word that a store of `v` leaves in the place of `old`: its low 8 or 16 bits replaced, or all of it (20_memory.md R73; the
low bits by D25). -/
def storedWord (old v : Word) : Width → Word
  | .byte => BitVec.ofNat 32 (old.toNat / 2 ^ 8 * 2 ^ 8 + v.toNat % 2 ^ 8)
  | .half => BitVec.ofNat 32 (old.toNat / 2 ^ 16 * 2 ^ 16 + v.toNat % 2 ^ 16)
  | .word => v

/-- The state after a store of `v` merged it into the block of `a`, which held the words `ws`, and wrote Memory, now `m`
(20_memory.md R73). -/
def withStored (s : State) (a v : Word) (width : Width) (ws : Vector Word 4) (m : Memory) : State :=
  { s with
    cache := blockSet s.cache (cacheIndex a)
      { valid := true
        tag := cacheTag a
        words := ws.set (cacheOffset a).toNat
          (storedWord (getElem ws (cacheOffset a).toNat (cacheOffset a).isLt) v width) (cacheOffset a).isLt }
    mem := m }

/-- The state after MEM put the loaded datum `v` in MEM/WB (44_load_store.md R271 to R273). -/
def withLoaded (s : State) (v : Word) : State := { s with memwb := { s.memwb with lmd := v } }

/-- Fetching at `a` and at the next two word addresses finds bubbles. -/
def fetchesBubbles (s : State) (a : Word) : Prop :=
  memRead s.cfg.regions s.mem a = .ok 0 ∧ memRead s.cfg.regions s.mem (a + 4) = .ok 0 ∧
    memRead s.cfg.regions s.mem (a + 8) = .ok 0

/-- The destination and the value that 41_alu_register.md and 42_alu_immediate.md give each of their instructions, on a register
file; `none` for an instruction of another family. Written with exact integers and narrowed at the end. -/
def aluResult (x : Reg → Word) : Instr → Option (Reg × Word)
  | .add rd rs rt _ => some (rd, BitVec.ofNat 32 ((x rs).toNat + (x rt).toNat))
  | .addu rd rs rt _ => some (rd, BitVec.ofNat 32 ((x rs).toNat + (x rt).toNat))
  | .sub rd rs rt _ => some (rd, BitVec.ofInt 32 ((x rs).toInt - (x rt).toInt))
  | .subu rd rs rt _ => some (rd, BitVec.ofInt 32 ((x rs).toInt - (x rt).toInt))
  | .and rd rs rt _ => some (rd, x rs &&& x rt)
  | .or rd rs rt _ => some (rd, x rs ||| x rt)
  | .xor rd rs rt _ => some (rd, x rs ^^^ x rt)
  | .nor rd rs rt _ => some (rd, ~~~ (x rs ||| x rt))
  | .slt rd rs rt _ => some (rd, if (x rs).toInt < (x rt).toInt then 1 else 0)
  | .sll rd _ rt sa => some (rd, BitVec.ofNat 32 ((x rt).toNat * 2 ^ sa.toNat))
  | .srl rd _ rt sa => some (rd, BitVec.ofNat 32 ((x rt).toNat / 2 ^ sa.toNat))
  | .sra rd _ rt sa => some (rd, BitVec.ofInt 32 ((x rt).toInt / 2 ^ sa.toNat))
  | .addi rt rs imm => some (rt, BitVec.ofInt 32 ((x rs).toInt + imm.toInt))
  | .addiu rt rs imm => some (rt, BitVec.ofInt 32 ((x rs).toInt + imm.toInt))
  | .slti rt rs imm => some (rt, if (x rs).toInt < imm.toInt then 1 else 0)
  | .andi rt rs imm => some (rt, x rs &&& BitVec.ofNat 32 imm.toNat)
  | .ori rt rs imm => some (rt, x rs ||| BitVec.ofNat 32 imm.toNat)
  | .xori rt rs imm => some (rt, x rs ^^^ BitVec.ofNat 32 imm.toNat)
  | .lui rt _ imm => some (rt, BitVec.ofNat 32 (imm.toNat * 2 ^ 16))
  | .mult _ _ _ _ => none
  | .multu _ _ _ _ => none
  | .div _ _ _ _ => none
  | .divu _ _ _ _ => none
  | .mfhi _ _ _ _ => none
  | .mflo _ _ _ _ => none
  | .mthi _ _ _ _ => none
  | .mtlo _ _ _ _ => none
  | .lb _ _ _ => none
  | .lh _ _ _ => none
  | .lw _ _ _ => none
  | .sb _ _ _ => none
  | .sh _ _ _ => none
  | .sw _ _ _ => none
  | .beq _ _ _ => none
  | .bne _ _ _ => none
  | .blez _ _ _ => none
  | .bgtz _ _ _ => none
  | .bltz _ _ => none
  | .bgez _ _ => none
  | .j _ => none
  | .jal _ => none
  | .jr _ _ _ _ => none
  | .jalr _ _ _ _ => none
  | .syscall _ => none

/-- `n` steps, stopping at the first fault. -/
def steps : Nat → State → Res
  | 0, s => .next s
  | n + 1, s => andThen (step s) (steps n)

end Sys2Proof.Machine
end

