-- ==== Sys2Proof/Certificates/Slice0/Obligations.lean ====
section
/-! DEFINITION. The statements about the machine, from the numbered rules of spec/. A docstring names the rule a statement
formalises, or the decision of the spec (92_eei_decisions.md D<n>) or the log entry that it rests on. -/

open Sys2Proof Sys2Proof.Machine

/-! ### Encoding -/

/-- Every well-formed instruction is decoded from its own word (30_encoding.md R101, R110 to R114; the values are D2's). -/
def Obligations.DecodeOfEncodeIsTheInstruction : Prop :=
  ∀ i : Instr, i.wf → decode (encode i) = .instr i

/-- A word that decodes to an instruction is that instruction's word: no bit of it is dropped (30_encoding.md R100, R114,
R115; log 12). -/
def Obligations.EncodeOfDecodeIsTheWord : Prop :=
  ∀ (w : Word) (i : Instr), decode w = .instr i → encode i = w ∧ i.wf

/-- The four words of the source, with their fields and instructions (30_encoding.md R122). -/
def Obligations.WorkedEncodingsDecode : Prop :=
  (opField 0x20010005 = 0x08 ∧ rsField 0x20010005 = 0 ∧ rtField 0x20010005 = 1 ∧ immField 0x20010005 = 0x0005 ∧
    decode 0x20010005 = .instr (.addi 1 0 5)) ∧
  (opField 0x2002000A = 0x08 ∧ rsField 0x2002000A = 0 ∧ rtField 0x2002000A = 2 ∧ immField 0x2002000A = 0x000A ∧
    decode 0x2002000A = .instr (.addi 2 0 10)) ∧
  (opField 0x00221820 = 0x00 ∧ rsField 0x00221820 = 1 ∧ rtField 0x00221820 = 2 ∧ rdField 0x00221820 = 3 ∧
    saField 0x00221820 = 0 ∧ fnField 0x00221820 = 0x20 ∧ decode 0x00221820 = .instr (.add 3 1 2 0)) ∧
  (opField 0x0000000C = 0x00 ∧ rsField 0x0000000C = 0 ∧ rtField 0x0000000C = 0 ∧ rdField 0x0000000C = 0 ∧
    saField 0x0000000C = 0 ∧ fnField 0x0000000C = 0x0C ∧ decode 0x0000000C = .instr (.syscall 0))

/-- Exactly the words outside the maps are unimplemented (30_encoding.md R110, R111, R113, R117; the values are D2's). -/
def Obligations.UnimplementedWordsAreThoseOutsideTheMaps : Prop :=
  ∀ w : Word, decode w = .unimplemented ↔
    (opField w = 0 ∧ w ≠ 0 ∧
      fnField w ∉ ([0x00, 0x02, 0x03, 0x08, 0x09, 0x0C, 0x10, 0x11, 0x12, 0x13, 0x18, 0x19, 0x1A, 0x1B, 0x20, 0x21, 0x22,
        0x23, 0x24, 0x25, 0x26, 0x27, 0x2A] : List (BitVec 6))) ∨
    (opField w = 1 ∧ rtField w ≠ 0 ∧ rtField w ≠ 1) ∨
    opField w ∉ ([0x00, 0x01, 0x02, 0x03, 0x04, 0x05, 0x06, 0x07, 0x08, 0x09, 0x0A, 0x0C, 0x0D, 0x0E, 0x0F, 0x20, 0x21, 0x23,
      0x28, 0x29, 0x2B] : List (BitVec 6))

/-! ### Register-register ALU (41_alu_register.md) -/

/-- EX of the twelve instructions: the result of R201 to R212 in `EXMEM.ALU`, and nothing else but the frame R160. The results
are written with exact integers and narrowed (R213). Overflow wraps by D3, and the instructions exist by D1. -/
def Obligations.RegisterAluComputesInEx : Prop :=
  ∀ (s : State) (rd rs rt : Reg) (sa : Shamt), s.stage = .ex →
    let a := resolve s s.selA rs
    let b := resolve s s.selB rt
    let after := fun v => Host.Outcome.next (φ := Fault) (ρ := Refusal) (afterEx s rs rt rd true false v 0 0)
    exec (.add rd rs rt sa) s = after (BitVec.ofNat 32 (a.toNat + b.toNat)) ∧
    exec (.addu rd rs rt sa) s = after (BitVec.ofNat 32 (a.toNat + b.toNat)) ∧
    exec (.sub rd rs rt sa) s = after (BitVec.ofInt 32 (a.toInt - b.toInt)) ∧
    exec (.subu rd rs rt sa) s = after (BitVec.ofInt 32 (a.toInt - b.toInt)) ∧
    exec (.and rd rs rt sa) s = after (a &&& b) ∧
    exec (.or rd rs rt sa) s = after (a ||| b) ∧
    exec (.xor rd rs rt sa) s = after (a ^^^ b) ∧
    exec (.nor rd rs rt sa) s = after (~~~ (a ||| b)) ∧
    exec (.slt rd rs rt sa) s = after (if a.toInt < b.toInt then 1 else 0) ∧
    exec (.sll rd rs rt sa) s = after (BitVec.ofNat 32 (b.toNat * 2 ^ sa.toNat)) ∧
    exec (.srl rd rs rt sa) s = after (BitVec.ofNat 32 (b.toNat / 2 ^ sa.toNat)) ∧
    exec (.sra rd rs rt sa) s = after (BitVec.ofInt 32 (b.toInt / 2 ^ sa.toNat))

/-- MEM and WB of the twelve instructions: MEM passes, and WB writes `rd`, register 0 included, with `MEMWB.ALU` and counts the
instruction (R200; 40_pipeline.md R175, R180). -/
def Obligations.RegisterAluPassesAndWrites : Prop :=
  ∀ (s : State) (rd rs rt : Reg) (sa : Shamt),
    ∀ i ∈ ([.add rd rs rt sa, .addu rd rs rt sa, .sub rd rs rt sa, .subu rd rs rt sa, .and rd rs rt sa, .or rd rs rt sa,
        .xor rd rs rt sa, .nor rd rs rt sa, .slt rd rs rt sa, .sll rd rs rt sa, .srl rd rs rt sa, .sra rd rs rt sa] : List Instr),
      (s.stage = .mem → exec i s = .next (afterPass s rd true)) ∧
      (s.stage = .wb → exec i s = .next (afterWrite s rd s.memwb.alu))

/-! ### Immediate ALU (42_alu_immediate.md) -/

/-- EX of the seven instructions (R231 to R238), where `IDEX.IMM` is what ID latched. Overflow wraps by D3. -/
def Obligations.ImmediateAluComputesInEx : Prop :=
  ∀ (s : State) (rt rs : Reg) (imm : Imm16), s.stage = .ex → s.idex.imm = BitVec.ofInt 32 imm.toInt →
    let a := resolve s s.selA rs
    let after := fun v => Host.Outcome.next (φ := Fault) (ρ := Refusal) (afterEx s rs rt rt true false v 0 0)
    exec (.addi rt rs imm) s = after (BitVec.ofInt 32 (a.toInt + imm.toInt)) ∧
    exec (.addiu rt rs imm) s = after (BitVec.ofInt 32 (a.toInt + imm.toInt)) ∧
    exec (.slti rt rs imm) s = after (if a.toInt < imm.toInt then 1 else 0) ∧
    exec (.andi rt rs imm) s = after (a &&& BitVec.ofNat 32 imm.toNat) ∧
    exec (.ori rt rs imm) s = after (a ||| BitVec.ofNat 32 imm.toNat) ∧
    exec (.xori rt rs imm) s = after (a ^^^ BitVec.ofNat 32 imm.toNat) ∧
    exec (.lui rt rs imm) s = after (BitVec.ofNat 32 (imm.toNat * 2 ^ 16))

/-- MEM and WB of the seven instructions: MEM passes, and WB writes `rt` with `MEMWB.ALU` and counts the instruction (R230). -/
def Obligations.ImmediateAluPassesAndWrites : Prop :=
  ∀ (s : State) (rt rs : Reg) (imm : Imm16),
    ∀ i ∈ ([.addi rt rs imm, .addiu rt rs imm, .slti rt rs imm, .andi rt rs imm, .ori rt rs imm, .xori rt rs imm,
        .lui rt rs imm] : List Instr),
      (s.stage = .mem → exec i s = .next (afterPass s rt true)) ∧
      (s.stage = .wb → exec i s = .next (afterWrite s rt s.memwb.alu))

/-- The whole passage of an ALU instruction that runs alone: executed in one cycle, it has written its destination two cycles
later (40_pipeline.md R134), with the value that R201 to R212 and R231 to R237 give on the registers it found. Nothing else of
the architectural state changes but the PC and the count. -/
def Obligations.LoneAluInstructionWritesItsResult : Prop :=
  ∀ (s : State) (i : Instr) (dest : Reg) (v : Word), Quiet s → fetchesBubbles s s.cur.pc → i.wf →
    aluResult (readReg s) i = some (dest, v) →
      ∃ t, steps 3 (s.withFetchWord 32 (encode i).toNat) = .next t ∧ t.cur.regs = regSet s.cur.regs dest v ∧
        t.cur.hi = s.cur.hi ∧ t.cur.lo = s.cur.lo ∧ t.mem = s.mem ∧ t.cache = s.cache ∧ t.runFlag = true ∧
        t.instructionCount = s.instructionCount + 1 ∧ t.cycleCount = s.cycleCount + 3

/-! ### Multiply, divide and the HI/LO moves (43_muldiv_hilo.md) -/

/-- EX of MULT and MULTU: HI and LO hold the halves of the exact 64-bit product (R251, R252, R259; the codes are D2's). -/
def Obligations.MultiplyGivesTheExactProductInEx : Prop :=
  ∀ (s : State) (rd rs rt : Reg) (sa : Shamt), s.stage = .ex →
    let a := resolve s s.selA rs
    let b := resolve s s.selB rt
    (∃ hi lo : Word, (hi ++ lo : BitVec 64).toInt = a.toInt * b.toInt ∧
      exec (.mult rd rs rt sa) s = .next (afterEx s rs rt 0 false false 0 hi lo)) ∧
    (∃ hi lo : Word, (hi ++ lo : BitVec 64).toNat = a.toNat * b.toNat ∧
      exec (.multu rd rs rt sa) s = .next (afterEx s rs rt 0 false false 0 hi lo))

/-- EX of DIV: nothing on a zero divisor, the next `DIV_OVERFLOW` draw on -2^31 / -1 whatever its value (R260, D18; log 5), and
else the quotient rounded toward zero in LO and the remainder in HI, which make up the dividend, the remainder smaller than the
divisor and 0 or of the dividend's sign (R253, R259, D19). -/
def Obligations.DivGivesQuotientAndRemainderInEx : Prop :=
  ∀ (s : State) (rd rs rt : Reg) (sa : Shamt), s.stage = .ex →
    let a := resolve s s.selA rs
    let b := resolve s s.selB rt
    (b = 0 → exec (.div rd rs rt sa) s = .next (afterEx s rs rt 0 false false 0 0 0)) ∧
    (a = 0x80000000 → b = 0xFFFFFFFF →
      exec (.div rd rs rt sa) s =
        .next { afterEx s rs rt 0 false false 0 (Config.divOverflow s.drawCount).1 (Config.divOverflow s.drawCount).2 with
          drawCount := s.drawCount + 1 }) ∧
    (b ≠ 0 → ¬ (a = 0x80000000 ∧ b = 0xFFFFFFFF) →
      ∃ hi lo : Word, exec (.div rd rs rt sa) s = .next (afterEx s rs rt 0 false false 0 hi lo) ∧
        lo.toInt * b.toInt + hi.toInt = a.toInt ∧ hi.toInt.natAbs < b.toInt.natAbs ∧
        (hi = 0 ∨ (hi.toInt < 0 ↔ a.toInt < 0)))

/-- EX of DIVU: nothing on a zero divisor, and else the unsigned quotient and remainder (R254). -/
def Obligations.DivuGivesQuotientAndRemainderInEx : Prop :=
  ∀ (s : State) (rd rs rt : Reg) (sa : Shamt), s.stage = .ex →
    let a := resolve s s.selA rs
    let b := resolve s s.selB rt
    (b = 0 → exec (.divu rd rs rt sa) s = .next (afterEx s rs rt 0 false false 0 0 0)) ∧
    (b ≠ 0 →
      ∃ hi lo : Word, exec (.divu rd rs rt sa) s = .next (afterEx s rs rt 0 false false 0 hi lo) ∧
        lo.toNat * b.toNat + hi.toNat = a.toNat ∧ hi.toNat < b.toNat)

/-- MEM and WB of MULT, MULTU, DIV and DIVU: MEM passes, WB writes HI and LO of the next generation, and no general register
(R250 to R254). -/
def Obligations.MultiplyAndDivideWriteHiLoInWb : Prop :=
  ∀ (s : State) (rd rs rt : Reg) (sa : Shamt),
    (∀ i ∈ ([.mult rd rs rt sa, .multu rd rs rt sa, .div rd rs rt sa, .divu rd rs rt sa] : List Instr),
      s.stage = .mem → exec i s = .next (afterPass s 0 false)) ∧
    (∀ i ∈ ([.mult rd rs rt sa, .multu rd rs rt sa] : List Instr),
      s.stage = .wb → exec i s = .next (afterHiLo s s.memwb.hi s.memwb.lo)) ∧
    (∀ i ∈ ([.div rd rs rt sa, .divu rd rs rt sa] : List Instr),
      s.stage = .wb → s.memwb.b ≠ 0 → exec i s = .next (afterHiLo s s.memwb.hi s.memwb.lo))

/-- DIV and DIVU by zero write neither HI nor LO in WB, and still retire (R261). -/
def Obligations.DivideByZeroLeavesHiLo : Prop :=
  ∀ (s : State) (rd rs rt : Reg) (sa : Shamt), s.stage = .wb → s.memwb.b = 0 →
    ∀ i ∈ ([.div rd rs rt sa, .divu rd rs rt sa] : List Instr), exec i s = .next (afterRetire s)

/-- MFHI and MFLO read the next generation in MEM and write `rd` in WB; MTHI and MTLO carry `opA` from EX and write HI or LO in
WB (R250, R255 to R258; D15). -/
def Obligations.HiLoMovesInTheirStages : Prop :=
  ∀ (s : State) (rd rs rt : Reg) (sa : Shamt),
    (s.stage = .ex →
      exec (.mfhi rd rs rt sa) s = .next (afterEx s rs rt rd true false 0 0 0) ∧
      exec (.mflo rd rs rt sa) s = .next (afterEx s rs rt rd true false 0 0 0) ∧
      exec (.mthi rd rs rt sa) s = .next (afterEx s rs rt 0 false false (resolve s s.selA rs) 0 0) ∧
      exec (.mtlo rd rs rt sa) s = .next (afterEx s rs rt 0 false false (resolve s s.selA rs) 0 0)) ∧
    (s.stage = .mem →
      exec (.mfhi rd rs rt sa) s =
        .next { afterPass s rd true with memwb := { s.exmem with lmd := 0, alu := s.nxt.hi } } ∧
      exec (.mflo rd rs rt sa) s =
        .next { afterPass s rd true with memwb := { s.exmem with lmd := 0, alu := s.nxt.lo } } ∧
      exec (.mthi rd rs rt sa) s = .next (afterPass s 0 false) ∧
      exec (.mtlo rd rs rt sa) s = .next (afterPass s 0 false)) ∧
    (s.stage = .wb →
      exec (.mfhi rd rs rt sa) s = .next (afterWrite s rd s.memwb.alu) ∧
      exec (.mflo rd rs rt sa) s = .next (afterWrite s rd s.memwb.alu) ∧
      exec (.mthi rd rs rt sa) s = .next (afterHiLo s s.memwb.alu s.nxt.lo) ∧
      exec (.mtlo rd rs rt sa) s = .next (afterHiLo s s.nxt.hi s.memwb.alu))

/-- In one cycle, MFHI or MFLO in MEM reads what the MULT or MULTU in WB writes: no spacing is needed (R250, R262; D15). -/
def Obligations.HiLoReadSeesTheRetiringMultiply : Prop :=
  ∀ (s t : State) (rd rs rt rd' rs' rt' : Reg) (sa sa' : Shamt), s.runFlag = true → step s = .next t →
    (decode s.memwb.ir = .instr (.mult rd rs rt sa) ∨ decode s.memwb.ir = .instr (.multu rd rs rt sa)) →
      (decode s.exmem.ir = .instr (.mfhi rd' rs' rt' sa') → t.memwb.alu = s.memwb.hi) ∧
      (decode s.exmem.ir = .instr (.mflo rd' rs' rt' sa') → t.memwb.alu = s.memwb.lo)

/-! ### Loads and stores (44_load_store.md) -/

/-- EX of the six instructions: the effective address `opA + sext_16(imm16)` in `EXMEM.ALU`, and the datum in `EXMEM.B`; the base
register is not modified (R270). -/
def Obligations.LoadsAndStoresComputeTheAddressInEx : Prop :=
  ∀ (s : State) (rt rs : Reg) (imm : Imm16), s.stage = .ex → s.idex.imm = BitVec.ofInt 32 imm.toInt →
    let a := BitVec.ofInt 32 ((resolve s s.selA rs).toInt + imm.toInt)
    (∀ i ∈ ([.lb rt rs imm, .lh rt rs imm, .lw rt rs imm] : List Instr),
      exec i s = .next (afterEx s rs rt rt true true a 0 0)) ∧
    (∀ i ∈ ([.sb rt rs imm, .sh rt rs imm, .sw rt rs imm] : List Instr),
      exec i s = .next (afterEx s rs rt 0 false false a 0 0))

/-- MEM of LB, LH and LW through the cache, on every address: a hit takes the word from the block; a miss first refills the
block's four words from Memory and then takes it; the datum is sign-extended (R271 to R273, R277; 20_memory.md R70 to R72; the
low bits of the aligned word by D25). -/
def Obligations.LoadsReadThroughTheCacheInMem : Prop :=
  ∀ (s : State) (rt rs : Reg) (imm : Imm16) (i : Instr) (width : Width),
    (i, width) ∈ ([(.lb rt rs imm, .byte), (.lh rt rs imm, .half), (.lw rt rs imm, .word)] : List (Instr × Width)) →
    s.stage = .mem → s.cfg.wf → s.cfg.cacheEnabled = true →
      let a := s.exmem.alu
      let block := blockGet s.cache (cacheIndex a)
      (block.valid = true ∧ block.tag = cacheTag a →
        exec i s =
          .next (withLoaded (afterHit (afterPass s rt true)) (loadedValue (blockWord block (cacheOffset a)) width))) ∧
      (¬ (block.valid = true ∧ block.tag = cacheTag a) →
        ∃ w0 w1 w2 w3 : Word,
          memRead s.cfg.regions s.mem (cacheBase a) = .ok w0 ∧ memRead s.cfg.regions s.mem (cacheBase a + 4) = .ok w1 ∧
          memRead s.cfg.regions s.mem (cacheBase a + 8) = .ok w2 ∧ memRead s.cfg.regions s.mem (cacheBase a + 12) = .ok w3 ∧
          exec i s =
            .next (withLoaded (afterMiss (afterPass s rt true) a #v[w0, w1, w2, w3])
              (loadedValue (getElem #v[w0, w1, w2, w3] (cacheOffset a).toNat (cacheOffset a).isLt) width)))

/-- What a load gets, on every address in a region: the word that Memory holds at the aligned address, at that moment
(20_memory.md R76). Any state that meets the invariants will do. -/
def Obligations.LoadGetsWhatMemoryHolds : Prop :=
  ∀ (s t : State) (rt rs : Reg) (imm : Imm16) (i : Instr) (width : Width),
    (i, width) ∈ ([(.lb rt rs imm, .byte), (.lh rt rs imm, .half), (.lw rt rs imm, .word)] : List (Instr × Width)) →
    s.stage = .mem → s.cfg.wf → s.cfg.cacheEnabled = true → CacheCoherent s → mapped s.cfg s.exmem.alu →
    exec i s = .next t →
      memRead s.cfg.regions s.mem (alignedAddr s.exmem.alu) = .ok (memGetWord s.mem (alignedAddr s.exmem.alu).toNat) ∧
      t.memwb.lmd = loadedValue (memGetWord s.mem (alignedAddr s.exmem.alu).toNat) width ∧ t.mem = s.mem

/-- MEM of SB, SH and SW through the cache completes on every address. A hit merges the datum into the block; a miss first refills
the block's four words from Memory, which allocates it, counts a miss and raises the miss flag; the four words of the block are then
written back, and outside every region nothing is (R274 to R276; 20_memory.md R71, R73, R76, R77). Of a coherent cache's Memory
changes only the stored bytes, the low bytes of the aligned word that the address in `EXMEM.ALU` selects (the low bytes by D25). -/
def Obligations.StoresChangeOnlyTheStoredBytes : Prop :=
  ∀ (s : State) (rt rs : Reg) (imm : Imm16) (i : Instr) (width : Width),
    (i, width) ∈ ([(.sb rt rs imm, .byte), (.sh rt rs imm, .half), (.sw rt rs imm, .word)] : List (Instr × Width)) →
    s.stage = .mem → s.cfg.wf → s.cfg.cacheEnabled = true →
      let a := s.exmem.alu
      let block := blockGet s.cache (cacheIndex a)
      let hit := block.valid = true ∧ block.tag = cacheTag a
      ∃ (ws : Vector Word 4) (t : State), exec i s = .next t ∧ t.memwb = { s.exmem with lmd := 0 } ∧
        (hit → ws = block.words ∧ t = withStored (afterHit (afterPass s 0 false)) a s.exmem.b width ws t.mem) ∧
        (¬ hit →
          memRead s.cfg.regions s.mem (cacheBase a) = .ok ws[0] ∧ memRead s.cfg.regions s.mem (cacheBase a + 4) = .ok ws[1] ∧
          memRead s.cfg.regions s.mem (cacheBase a + 8) = .ok ws[2] ∧ memRead s.cfg.regions s.mem (cacheBase a + 12) = .ok ws[3] ∧
          t = withStored (afterMiss (afterPass s 0 false) a ws) a s.exmem.b width ws t.mem) ∧
        (¬ mapped s.cfg a → t.mem = s.mem) ∧
        (Memory.wf s.mem → mapped s.cfg a →
          (∀ off, memRead s.cfg.regions t.mem (blockWordAddr (cacheTag a) (cacheIndex a) off) =
            .ok (blockWord (blockGet t.cache (cacheIndex a)) off)) ∧
          ∀ n, (n < (cacheBase a).toNat ∨ (cacheBase a).toNat + 16 ≤ n) → memGet t.mem n = memGet s.mem n) ∧
        (MemoryInv s → CacheCoherent s →
          (mapped s.cfg a → ∀ k < width.bytes, memGet t.mem ((alignedAddr a).toNat + k) = byteOfWord s.exmem.b k) ∧
          ∀ n, ¬ storedByte a width n → memGet t.mem n = memGet s.mem n)

/-- A load and a store with the cache disabled go to Memory directly, at any byte address, and fault exactly where the word runs
past the end of its region (20_memory.md R80, R81; D26, D24). -/
def Obligations.LoadsAndStoresWithoutTheCache : Prop :=
  ∀ (s : State) (rt rs : Reg) (imm : Imm16), s.stage = .mem → s.cfg.cacheEnabled = false →
    (∀ (i : Instr) (width : Width),
      (i, width) ∈ ([(.lb rt rs imm, .byte), (.lh rt rs imm, .half), (.lw rt rs imm, .word)] : List (Instr × Width)) →
      (∀ w, memRead s.cfg.regions s.mem s.exmem.alu = .ok w →
        exec i s = .next (withLoaded (afterPass s rt true) (loadedValue w width))) ∧
      (∀ f, memRead s.cfg.regions s.mem s.exmem.alu = .error f → exec i s = .fault f)) ∧
    (∀ (i : Instr) (width : Width),
      (i, width) ∈ ([(.sb rt rs imm, .byte), (.sh rt rs imm, .half), (.sw rt rs imm, .word)] : List (Instr × Width)) →
      (∀ w m, memRead s.cfg.regions s.mem s.exmem.alu = .ok w →
        memWrite s.cfg.regions s.mem s.exmem.alu (mergeWord w s.exmem.b width) = .ok m →
          exec i s = .next { afterPass s 0 false with mem := m }) ∧
      (∀ f, memRead s.cfg.regions s.mem s.exmem.alu = .error f → exec i s = .fault f))

/-- WB of the loads writes `rt` with `MEMWB.LMD`, and WB of the stores writes no register (R270). -/
def Obligations.LoadsWriteAndStoresRetireInWb : Prop :=
  ∀ (s : State) (rt rs : Reg) (imm : Imm16), s.stage = .wb →
    (∀ i ∈ ([.lb rt rs imm, .lh rt rs imm, .lw rt rs imm] : List Instr), exec i s = .next (afterWrite s rt s.memwb.lmd)) ∧
    (∀ i ∈ ([.sb rt rs imm, .sh rt rs imm, .sw rt rs imm] : List Instr), exec i s = .next (afterRetire s))

/-! ### Branches and jumps (45_control_transfer.md) -/

/-- EX of the six branches: a taken one writes the current PC with the branch's address plus 4 plus four times the offset and
raises the branch flag; one not taken does neither (R291 to R296; 40_pipeline.md R168; the formulas are D20's). -/
def Obligations.BranchesRedirectInEx : Prop :=
  ∀ (s : State) (rt rs : Reg) (imm : Imm16), s.stage = .ex → s.idex.imm = BitVec.ofInt 32 imm.toInt →
    let a := resolve s s.selA rs
    let b := resolve s s.selB rt
    let target := s.idex.pc + BitVec.ofInt 32 (4 * imm.toInt)
    let outcome := fun (rt' : Reg) (taken : Prop) (o : Res) =>
      (taken → o = .next (afterTransfer (afterEx s rs rt' 0 false false 0 0 0) target)) ∧
      (¬ taken → o = .next (afterEx s rs rt' 0 false false 0 0 0))
    outcome rt (a = b) (exec (.beq rt rs imm) s) ∧
    outcome rt (a ≠ b) (exec (.bne rt rs imm) s) ∧
    outcome rt (a.toInt ≤ 0) (exec (.blez rt rs imm) s) ∧
    outcome rt (0 < a.toInt) (exec (.bgtz rt rs imm) s) ∧
    outcome 0 (a.toInt < 0) (exec (.bltz rs imm) s) ∧
    outcome 1 (0 ≤ a.toInt) (exec (.bgez rs imm) s)

/-- EX of the jumps: J and JAL go to the 26-bit target in the segment of the jump's address plus 4, JR and JALR to the operand
as it stands, and JAL and JALR carry the jump's address plus 4 in `EXMEM.ALU` (R297 to R300, R302; D20, D21, D38). -/
def Obligations.JumpsRedirectInEx : Prop :=
  ∀ (s : State) (rd rs rt : Reg) (sa : Shamt) (target : Target26), s.stage = .ex →
    let a := resolve s s.selA rs
    let rs' : Reg := target.extractLsb' 21 5
    let rt' : Reg := target.extractLsb' 16 5
    let dest : Word := BitVec.ofNat 32 (s.idex.pc.toNat / 2 ^ 28 * 2 ^ 28 + target.toNat * 4)
    exec (.j target) s = .next (afterTransfer (afterEx s rs' rt' 0 false false 0 0 0) dest) ∧
    exec (.jal target) s = .next (afterTransfer (afterEx s rs' rt' 31 true false s.idex.pc 0 0) dest) ∧
    exec (.jr rd rs rt sa) s = .next (afterTransfer (afterEx s rs rt 0 false false 0 0 0) a) ∧
    exec (.jalr rd rs rt sa) s = .next (afterTransfer (afterEx s rs rt rd true false s.idex.pc 0 0) a)

/-- MEM and WB of the branches and jumps: MEM passes; WB writes the link to r31 for JAL and to `rd` for JALR, and otherwise only
counts the instruction (R290, R298, R300). -/
def Obligations.TransfersPassAndLink : Prop :=
  ∀ (s : State) (rd rs rt : Reg) (sa : Shamt) (imm : Imm16) (target : Target26),
    (s.stage = .mem →
      (∀ i ∈ ([.beq rt rs imm, .bne rt rs imm, .blez rt rs imm, .bgtz rt rs imm, .bltz rs imm, .bgez rs imm, .j target,
          .jr rd rs rt sa] : List Instr), exec i s = .next (afterPass s 0 false)) ∧
      exec (.jal target) s = .next (afterPass s 31 true) ∧ exec (.jalr rd rs rt sa) s = .next (afterPass s rd true)) ∧
    (s.stage = .wb →
      (∀ i ∈ ([.beq rt rs imm, .bne rt rs imm, .blez rt rs imm, .bgtz rt rs imm, .bltz rs imm, .bgez rs imm, .j target,
          .jr rd rs rt sa] : List Instr), exec i s = .next (afterRetire s)) ∧
      exec (.jal target) s = .next (afterWrite s 31 s.memwb.alu) ∧
      exec (.jalr rd rs rt sa) s = .next (afterWrite s rd s.memwb.alu))

/-! ### SYSCALL, unimplemented words and bubbles (46_system.md) -/

/-- SYSCALL computes nothing in EX, passes MEM, and in WB clears the run flag if current r2 is 0xA; with any other r2 it only
retires (R320, R323; r2 is D16's choice). -/
def Obligations.SyscallHaltsOnTheHaltCode : Prop :=
  ∀ (s : State) (code : SysCode),
    (s.stage = .ex →
      exec (.syscall code) s = .next (afterEx s (code.extractLsb' 15 5) (code.extractLsb' 10 5) 0 false false 0 0 0)) ∧
    (s.stage = .mem → exec (.syscall code) s = .next (afterPass s 0 false)) ∧
    (s.stage = .wb →
      (regGet s.cur.regs 2 = 0xA → exec (.syscall code) s = .next { afterRetire s with runFlag := false }) ∧
      (regGet s.cur.regs 2 ≠ 0xA → exec (.syscall code) s = .next (afterRetire s)))

/-- An unimplemented word is reported once, in EX, with its own address; it has no other effect, and it counts as retired
(R322; the report and the count are D32's). -/
def Obligations.UnimplementedWordIsReportedOnce : Prop :=
  ∀ s : State,
    (decode s.idex.ir = .unimplemented →
      exStage s =
        .next { afterEx (atStage .ex s) (rsField s.idex.ir) (rtField s.idex.ir) 0 false false 0 0 0 with
          diagLog := s.diagLog ++ [⟨s.idex.pc - 4, s.idex.ir⟩] }) ∧
    (decode s.exmem.ir = .unimplemented → memStage s = .next (afterPass (atStage .mem s) 0 false)) ∧
    (decode s.memwb.ir = .unimplemented → wbStage s = .next (afterRetire (atStage .wb s)))

/-- A stage whose input register holds a bubble writes a bubble to its output, refreshes its latches and has no other effect
(40_pipeline.md R136; the zeros are D34's). -/
def Obligations.BubbleHasNoEffectInAnyStage : Prop :=
  ∀ s : State,
    (s.memwb.ir = 0 → wbStage s = .next { s with stage := .wb }) ∧
    (s.exmem.ir = 0 →
      memStage s = .next { s with memwb := ⟨0, 0, 0, 0, 0, 0, 0, 0, 0⟩, memDest := 0, memWe := false, stage := .mem }) ∧
    (s.idex.ir = 0 →
      exStage s =
        .next { s with
          exmem := ⟨0, 0, 0, 0, 0, 0, 0, 0, 0⟩, exDest := 0, exWe := false, exLoad := false, selA := .none, selB := .none,
          stage := .ex }) ∧
    (s.ifid.ir = 0 → s.stallCount = 0 → s.branchFlag = false →
      idStage s = ({ s with idex := ⟨0, 0, 0, 0, 0, 0, 0, 0, 0⟩, selA := .none, selB := .none }, false))

/-! ### A step runs the decoded instructions -/

/-- One step is one cycle: a halted machine's changes nothing; a running machine's clears the miss flag and runs WB, MEM, EX, ID, IF
and the commit in that order, each on the state that the one before it left (40_pipeline.md R131); and WB, MEM and EX run `exec` on
the instruction that their own input register decodes to (30_encoding.md R114), with the model's own field `stage` naming the stage
and wb again after the commit (log 1, a DESIGN CHOICE). Unimplemented words and bubbles have statements of their own. -/
def Obligations.StepExecutesTheDecodedInstructions : Prop :=
  ∀ s : State,
    (s.runFlag = false → step s = .next s) ∧
    (s.runFlag = true →
      step s =
        andThen (wbStage { s with missFlag := false }) fun a =>
          andThen (memStage a) fun b =>
            andThen (exStage b) fun c =>
              match ifStage (idStage c).2 (idStage c).1 with
              | .ok u => .next { u with cur := u.nxt, cycleCount := u.cycleCount + 1, stage := .wb }
              | .error f => .fault f) ∧
    (∀ i, decode s.memwb.ir = .instr i → wbStage s = exec i { s with stage := .wb }) ∧
    (∀ i, decode s.exmem.ir = .instr i → memStage s = exec i { s with stage := .mem }) ∧
    (∀ i, decode s.idex.ir = .instr i → exStage s = exec i { s with stage := .ex })

/-- The word that `withFetchWord` presents is executed by the very next step, when it decodes to an instruction and no older one
is in flight (log 2). -/
def Obligations.PresentedWordIsExecutedByTheNextStep : Prop :=
  ∀ (s : State) (w : Word) (i : Instr), decode w = .instr i → s.memwb.ir = 0 → s.exmem.ir = 0 →
    ∃ b : State, b.idex.ir = w ∧ b.idex.pc = s.cur.pc + 4 ∧ b.idex.imm = sextImm (immField w) ∧ b.cur = s.cur ∧
      b.nxt = s.nxt ∧ b.mem = s.mem ∧ b.cache = s.cache ∧ b.stage = .ex ∧
      step (s.withFetchWord 32 w.toNat) = andThen (exec i b) finishCycle

/-- IF: without a stall, IF/ID takes the word that Memory holds at the current PC (which EX may just have written), with that
address plus 4, and the next PC is that address plus 4; with a stall, nothing changes (40_pipeline.md R140). -/
def Obligations.FetchTakesTheWordAtTheCurrentPc : Prop :=
  ∀ (s t : State) (stalled : Bool), ifStage stalled s = .ok t →
    (stalled = true → t = s) ∧
    (stalled = false →
      memRead s.cfg.regions s.mem s.cur.pc = .ok t.ifid.ir ∧
      t = { s with ifid := ⟨t.ifid.ir, s.cur.pc + 4, 0, 0, 0, 0, 0, 0, 0⟩, nxt := { s.nxt with pc := s.cur.pc + 4 } })

/-! ### What a stage may write, over all instructions -/

/-- Every instruction, in each of its stages, writes only what 40_pipeline.md R132 lists for that stage: everything else is left
unchanged. -/
def Obligations.InstructionsWriteOnlyWhatTheirStageMay : Prop :=
  ∀ (i : Instr) (s t : State), exec i s = .next t →
    (s.stage = .ex → ExFrame s t) ∧ (s.stage = .mem → MemFrame s t) ∧ (s.stage = .wb → WbFrame s t)

/-- In MEM, an instruction that is no load and no store leaves the cache, its counters, the miss flag and every byte of Memory
unchanged, and a load leaves every byte of Memory unchanged (40_pipeline.md R175; 20_memory.md R68, R78). -/
def Obligations.OnlyStoresChangeMemoryInMem : Prop :=
  ∀ (i : Instr) (s t : State), s.stage = .mem → exec i s = .next t →
    ((∀ rt rs imm, i ≠ .sb rt rs imm ∧ i ≠ .sh rt rs imm ∧ i ≠ .sw rt rs imm) → t.mem = s.mem) ∧
    ((∀ rt rs imm, i ≠ .sb rt rs imm ∧ i ≠ .sh rt rs imm ∧ i ≠ .sw rt rs imm ∧ i ≠ .lb rt rs imm ∧ i ≠ .lh rt rs imm ∧
      i ≠ .lw rt rs imm) → SameMemory s t)

/-- In WB, an instruction changes no general register but its destination of 30_encoding.md R116, and HI or LO only if it is one
of MULT, MULTU, DIV, DIVU, MTHI and MTLO (40_pipeline.md R180, R181; 10_state.md R23). -/
def Obligations.WbWritesOnlyTheDestination : Prop :=
  ∀ (i : Instr) (s t : State), s.stage = .wb → exec i s = .next t →
    (∀ r, ¬ ((traitsOf i).we = true ∧ (traitsOf i).dest = r) → regGet t.nxt.regs r = regGet s.nxt.regs r) ∧
    ((∀ rd rs rt sa, i ≠ .mult rd rs rt sa ∧ i ≠ .multu rd rs rt sa ∧ i ≠ .div rd rs rt sa ∧ i ≠ .divu rd rs rt sa ∧
        i ≠ .mthi rd rs rt sa ∧ i ≠ .mtlo rd rs rt sa) →
      t.nxt.hi = s.nxt.hi ∧ t.nxt.lo = s.nxt.lo) ∧
    t.instructionCount = s.instructionCount + 1

/-! ### Rules of the whole machine -/

/-- A cycle ends in the commit: the two generations are equal, CYCLE_COUNT is 1 higher, and INSTRUCTION_COUNT is 1 higher exactly if
a word that is no bubble passed WB (40_pipeline.md R135, R180; 10_state.md R48; the counts do not wrap by D43). -/
def Obligations.EachCycleCommitsAndCounts : Prop :=
  ∀ s t : State, s.runFlag = true → step s = .next t →
    t.cur = t.nxt ∧ t.cycleCount = s.cycleCount + 1 ∧
    t.instructionCount = s.instructionCount + (if s.memwb.ir = 0 then 0 else 1)

/-- Only a SYSCALL in WB with current r2 = 0xA stops the machine (10_state.md R47; 46_system.md R320; r2 is D16's choice). -/
def Obligations.OnlyAHaltingSyscallClearsTheRunFlag : Prop :=
  ∀ s t : State, s.runFlag = true → step s = .next t →
    (t.runFlag = false ↔ (∃ code, decode s.memwb.ir = .instr (.syscall code)) ∧ regGet s.cur.regs 2 = 0xA)

/-- A halted machine keeps every piece of its state (60_exceptions.md R416; 40_pipeline.md R137; D31). -/
def Obligations.HaltedMachineKeepsItsState : Prop :=
  ∀ s : State, s.runFlag = false → step s = .next s ∧ (∀ fuel, runAll fuel s = some (.next s)) ∧
    ∀ p n, runBounded p n s = .next s

/-- The diagnostic log only grows, by one entry for an unimplemented word in EX (10_state.md R46; D32). -/
def Obligations.DiagnosticLogRecordsUnimplementedWords : Prop :=
  ∀ s t : State, s.runFlag = true → step s = .next t →
    t.diagLog = s.diagLog ++ (if decode s.idex.ir = .unimplemented then [⟨s.idex.pc - 4, s.idex.ir⟩] else [])

/-- No step changes the forwarding mode, the penalty still owed or the parameters (10_state.md R45, R53; 40_pipeline.md R138). -/
def Obligations.StepChangesNoSetting : Prop :=
  ∀ s t : State, step s = .next t → SameSettings s t

/-- In a cycle, the load or store in MEM makes exactly one access: it counts one hit, and the miss flag stays clear, if the block at
the index of the address in `EXMEM.ALU` is valid with the address's tag, and else it counts one miss and raises the flag; and it
leaves that block valid with that tag and every other block as it was. In every other cycle, the fetch included, the cache, its
counters and Memory stay as they are and the miss flag is clear (20_memory.md R71, R73, R74; 10_state.md R51; 40_pipeline.md R138;
D27, D28, D42). -/
def Obligations.OneCacheAccessForEachLoadOrStore : Prop :=
  ∀ s t : State, s.runFlag = true → s.cfg.cacheEnabled = true → step s = .next t →
    let a := s.exmem.alu
    let hit := (blockGet s.cache (cacheIndex a)).valid = true ∧ (blockGet s.cache (cacheIndex a)).tag = cacheTag a
    let access := ∃ rt rs imm, decode s.exmem.ir ∈ ([.instr (.lb rt rs imm), .instr (.lh rt rs imm), .instr (.lw rt rs imm),
        .instr (.sb rt rs imm), .instr (.sh rt rs imm), .instr (.sw rt rs imm)] : List Decoded)
    (access → hit → t.hitEvents = s.hitEvents + 1 ∧ t.missEvents = s.missEvents ∧ t.missFlag = false) ∧
    (access → ¬ hit → t.hitEvents = s.hitEvents ∧ t.missEvents = s.missEvents + 1 ∧ t.missFlag = true) ∧
    (access →
      (blockGet t.cache (cacheIndex a)).valid = true ∧ (blockGet t.cache (cacheIndex a)).tag = cacheTag a ∧
      ∀ index, index ≠ cacheIndex a → blockGet t.cache index = blockGet s.cache index) ∧
    (¬ access →
      t.hitEvents = s.hitEvents ∧ t.missEvents = s.missEvents ∧ t.missFlag = false ∧ t.cache = s.cache ∧ t.mem = s.mem)

/-- No step is refused. With the cache enabled and a map that meets 20_memory.md R60, WB, MEM and EX always answer a state; a step
faults only where IF fetches, from the PC as EX left it, a word that runs past the end of its region, so at a PC that is not a
multiple of 4; and a step whose fetch is from a multiple of 4, or that fetches nothing, answers a state (60_exceptions.md R402; the
fault is D24's). `c` is the state as EX left it. -/
def Obligations.OnlyAMisalignedFetchFaults : Prop :=
  ∀ s : State, (∀ r, step s ≠ .refused r) ∧
    (s.cfg.wf → s.cfg.cacheEnabled = true →
      ∃ a b c, wbStage { s with missFlag := false } = .next a ∧ memStage a = .next b ∧ exStage b = .next c ∧
        (∀ x, step s = .fault (.memOverrun x) →
          s.runFlag = true ∧ (idStage c).2 = false ∧ x = c.cur.pc ∧
          memRead c.cfg.regions c.mem c.cur.pc = .error (.memOverrun x) ∧ x.toNat % 4 ≠ 0 ∧
          ∃ g ∈ s.cfg.regions, g.base + g.size < x.toNat + 4 ∧ x.toNat < g.base + g.size) ∧
        (c.cur.pc.toNat % 4 = 0 ∨ (idStage c).2 = true → ∃ t, step s = .next t))

/-! ### Hazards, stalls, forwarding and flushes (40_pipeline.md) -/

/-- The destination, the write enable, the sources and the load class of every instruction, row by row of 30_encoding.md R116 (the
destinations are D12's, the sources D11's). And forwarding is exact, in both modes: for every register but r0 that the instruction in
ID/EX reads, EX resolves the value that the register has in program order (R163 to R166). An r0 operand resolves to r0 of the current
generation, whatever writes of r0 are in flight (70_reset_and_hazards.md R481). -/
def Obligations.OperandsAreExactInProgramOrder : Prop :=
  (∀ (w : Word) (rd rs rt : Reg) (sa : Shamt) (imm : Imm16) (target : Target26) (code : SysCode),
    let row := fun (is : List Instr) (dest : Reg) (we srcA srcB isLoad : Bool) =>
      ∀ i ∈ is, decode w = .instr i → traitsOfWord w = ⟨dest, we, srcA, srcB, isLoad⟩
    row [.add rd rs rt sa, .addu rd rs rt sa, .sub rd rs rt sa, .subu rd rs rt sa, .and rd rs rt sa, .or rd rs rt sa,
      .xor rd rs rt sa, .nor rd rs rt sa, .slt rd rs rt sa] rd true true true false ∧
    row [.sll rd rs rt sa, .srl rd rs rt sa, .sra rd rs rt sa] rd true false true false ∧
    row [.mfhi rd rs rt sa, .mflo rd rs rt sa] rd true false false false ∧
    row [.jalr rd rs rt sa] rd true true false false ∧
    row [.addi rt rs imm, .addiu rt rs imm, .slti rt rs imm, .andi rt rs imm, .ori rt rs imm, .xori rt rs imm]
      rt true true false false ∧
    row [.lui rt rs imm] rt true false false false ∧
    row [.lb rt rs imm, .lh rt rs imm, .lw rt rs imm] rt true true false true ∧
    row [.jal target] 31 true false false false ∧
    row [.mult rd rs rt sa, .multu rd rs rt sa, .div rd rs rt sa, .divu rd rs rt sa] 0 false true true false ∧
    row [.mthi rd rs rt sa, .mtlo rd rs rt sa, .jr rd rs rt sa] 0 false true false false ∧
    row [.beq rt rs imm, .bne rt rs imm] 0 false true true false ∧
    row [.blez rt rs imm, .bgtz rt rs imm, .bltz rs imm, .bgez rs imm] 0 false true false false ∧
    row [.sb rt rs imm, .sh rt rs imm, .sw rt rs imm] 0 false true true false ∧
    row [.j target, .syscall code] 0 false false false false ∧
    (decode w = .unimplemented ∨ decode w = .bubble → traitsOfWord w = ⟨0, false, false, false, false⟩)) ∧
  ∀ s a b : State, PipelineInv s → s.runFlag = true →
    wbStage { s with missFlag := false } = .next a → memStage a = .next b →
      ((traitsOfWord b.idex.ir).srcA = true →
        (rsField b.idex.ir ≠ 0 → resolve b b.selA (rsField b.idex.ir) = valueInOrder b (rsField b.idex.ir)) ∧
        (rsField b.idex.ir = 0 → resolve b b.selA (rsField b.idex.ir) = regGet s.cur.regs 0)) ∧
      ((traitsOfWord b.idex.ir).srcB = true →
        (rtField b.idex.ir ≠ 0 → resolve b b.selB (rtField b.idex.ir) = valueInOrder b (rtField b.idex.ir)) ∧
        (rtField b.idex.ir = 0 → resolve b b.selB (rtField b.idex.ir) = regGet s.cur.regs 0))

/-- Without forwarding, a source register that the EX occupant writes stalls ID for 3 cycles, else one that the MEM occupant
writes for 2, and with neither and no load ahead the instruction passes with no selector armed (R152, R155, R156; the counting is
D8's). Whether it passes or stalls, ID latches the PC of IF/ID, the snapshots and the immediate, and changes nothing else (R132,
R155, R158; 10_state.md R32, R35; the snapshots are D4's, the zeros D34's). -/
def Obligations.StallsWithoutForwarding : Prop :=
  ∀ s : State, s.stallCount = 0 → s.branchFlag = false → s.ifid.ir ≠ 0 → s.forwardingEnabled = false →
    let c := traitsOfWord s.ifid.ir
    let reads := fun r => (c.srcA = true ∧ rsField s.ifid.ir = r) ∨ (c.srcB = true ∧ rtField s.ifid.ir = r)
    let exMatch := s.exWe = true ∧ s.exDest ≠ 0 ∧ reads s.exDest
    let memMatch := s.memWe = true ∧ s.memDest ≠ 0 ∧ reads s.memDest
    (exMatch → idStage s = (afterDecode s 0 .none .none 2, true)) ∧
    (¬ exMatch → memMatch → idStage s = (afterDecode s 0 .none .none 1, true)) ∧
    (¬ exMatch → ¬ memMatch → s.exLoad = false → idStage s = (afterDecode s s.ifid.ir .none .none 0, false))

/-- With forwarding and no load ahead, ID never stalls, and selects for each operand the EX occupant, else the MEM occupant, else
the register file; r0 is never forwarded (R152, R155, R156). It latches the instruction, the PC of IF/ID, the snapshots and the
immediate, and changes nothing else (R132, R155, R158; 10_state.md R32; the snapshots are D4's). -/
def Obligations.SelectorsWithForwarding : Prop :=
  ∀ s : State, s.stallCount = 0 → s.branchFlag = false → s.ifid.ir ≠ 0 → s.forwardingEnabled = true → s.exLoad = false →
    let c := traitsOfWord s.ifid.ir
    let exWrites := fun r => s.exWe = true ∧ s.exDest ≠ 0 ∧ s.exDest = r
    let memWrites := fun r => s.memWe = true ∧ s.memDest ≠ 0 ∧ s.memDest = r
    let chosen := fun (reads : Bool) (r : Reg) (sel : Selector) =>
      (reads = true → exWrites r → sel = .fromEx) ∧
      (reads = true → ¬ exWrites r → memWrites r → sel = .fromMem) ∧
      (reads = false ∨ (¬ exWrites r ∧ ¬ memWrites r) → sel = .none)
    ∃ selA selB : Selector, chosen c.srcA (rsField s.ifid.ir) selA ∧ chosen c.srcB (rtField s.ifid.ir) selB ∧
      idStage s = (afterDecode s s.ifid.ir selA selB 0, false)

/-- Behind a load, any instruction stalls, dependent or not, in both forwarding modes: for exactly 2 cycles with forwarding on, or
with forwarding off when neither occupant writes a source register, and for no fewer in any case (R154, R155; "unconditional" by
D14, the counting by D8). Under the bubble that it emits, ID still latches the PC of IF/ID, the snapshots and the immediate, and it
changes nothing else (R132, R158; 10_state.md R35; the snapshots are D4's, the zeros D34's). -/
def Obligations.LoadUseStallIsUnconditional : Prop :=
  ∀ s : State, s.stallCount = 0 → s.branchFlag = false → s.ifid.ir ≠ 0 → s.exLoad = true →
    let c := traitsOfWord s.ifid.ir
    let reads := fun r => (c.srcA = true ∧ rsField s.ifid.ir = r) ∨ (c.srcB = true ∧ rtField s.ifid.ir = r)
    ∃ n, 1 ≤ n ∧ idStage s = (afterDecode s 0 .none .none n, true) ∧
      (s.forwardingEnabled = true → n = 1) ∧
      (s.forwardingEnabled = false →
        ¬ (s.exWe = true ∧ s.exDest ≠ 0 ∧ reads s.exDest) → ¬ (s.memWe = true ∧ s.memDest ≠ 0 ∧ reads s.memDest) → n = 1)

/-- An outstanding stall takes one cycle off, emits a bubble and holds the instruction in IF/ID and the PC (R142, R143, R151). -/
def Obligations.OutstandingStallHoldsTheFetch : Prop :=
  ∀ (s t : State) (n : Nat), PipelineInv s → s.runFlag = true → s.stallCount = n + 1 → step s = .next t →
    t.stallCount = n ∧ t.idex = ⟨0, 0, 0, 0, 0, 0, 0, 0, 0⟩ ∧ t.ifid = s.ifid ∧ t.cur.pc = s.cur.pc

/-- A taken transfer flushes exactly the one instruction behind it: the target is fetched in the transfer's own cycle, ID emits
one bubble, and nothing is stalled (R151, R168, R169; the same-cycle reading is D10's). `c` is the state as EX left it. -/
def Obligations.TakenTransferFlushesExactlyOne : Prop :=
  ∀ s a b c t : State, PipelineInv s → s.runFlag = true → wbStage { s with missFlag := false } = .next a →
    memStage a = .next b → exStage b = .next c → c.branchFlag = true → step s = .next t →
      t.idex = ⟨0, 0, 0, 0, 0, 0, 0, 0, 0⟩ ∧ memRead c.cfg.regions c.mem c.cur.pc = .ok t.ifid.ir ∧
      t.ifid.pc = c.cur.pc + 4 ∧ t.cur.pc = c.cur.pc + 4 ∧ t.branchFlag = false ∧ t.stallCount = 0

/-- The invariant of the pipeline between cycles is kept by every step (10_state.md R21, R42; 40_pipeline.md R143, R150, R151,
R155). -/
def Obligations.StepKeepsThePipelineInvariant : Prop :=
  ∀ s t : State, PipelineInv s → step s = .next t → PipelineInv t

/-! ### Memory and the cache (20_memory.md) -/

/-- The cache splits an address into the index, bits [7:4], the tag, bits [31:8], and the word offset, bits [3:2]; the block's
address has the low four bits clear; and bits [1:0] take no part in a cache operation (R70). -/
def Obligations.AddressesSplitIntoTagIndexAndOffset : Prop :=
  ∀ a : Word,
    (cacheIndex a).toNat = a.toNat / 16 % 16 ∧ (cacheTag a).toNat = a.toNat / 256 ∧ (cacheOffset a).toNat = a.toNat / 4 % 4 ∧
    (cacheBase a).toNat = a.toNat / 16 * 16 ∧
    ∀ (b : Word) (s : State), a.toNat / 4 = b.toNat / 4 →
      cacheAccess a s = cacheAccess b s ∧ cacheRead a s = cacheRead b s ∧
        ∀ (v : Word) (width : Width), cacheWrite a v width s = cacheWrite b v width s

/-- A word access is little-endian. A write sets the four bytes at the address and no other byte, and a read gives the four bytes;
outside every region a write changes nothing and a read gives 0; and both fault exactly where the word starts in a region and runs
past its end (R62, R63, R64; the fault is D24's). -/
def Obligations.WordAccessesAreLittleEndian : Prop :=
  ∀ (gs : List Region) (m : Memory) (a v : Word), Memory.wf m →
    (regionOf gs a = none → memRead gs m a = .ok 0 ∧ memWrite gs m a v = .ok m) ∧
    (∀ g, regionOf gs a = some g → a.toNat + 4 ≤ g.base + g.size →
      (∃ w, memRead gs m a = .ok w ∧
        w.toNat = (memGet m a.toNat).toNat + 256 * (memGet m (a.toNat + 1)).toNat +
          65536 * (memGet m (a.toNat + 2)).toNat + 16777216 * (memGet m (a.toNat + 3)).toNat) ∧
      ∃ m', memWrite gs m a v = .ok m' ∧ Memory.wf m' ∧
        memGet m' a.toNat = v.extractLsb' 0 8 ∧ memGet m' (a.toNat + 1) = v.extractLsb' 8 8 ∧
        memGet m' (a.toNat + 2) = v.extractLsb' 16 8 ∧ memGet m' (a.toNat + 3) = v.extractLsb' 24 8 ∧
        ∀ n, (n < a.toNat ∨ a.toNat + 4 ≤ n) → memGet m' n = memGet m n) ∧
    (∀ g, regionOf gs a = some g → g.base + g.size < a.toNat + 4 →
      memRead gs m a = .error (.memOverrun a) ∧ memWrite gs m a v = .error (.memOverrun a))

/-- A load right after a store to the same address hits and gets the stored word: the old word with the width's low bits
replaced, at every address, in a region or not (R73, R77, R85; the low bits by D25). -/
def Obligations.LoadAfterStoreGetsTheMergedWord : Prop :=
  ∀ (s u t : State) (a v old : Word) (width : Width), s.cfg.cacheEnabled = true → dataRead a s = .ok (old, u) →
    dataWrite a v width s = .ok t →
      ∃ w t', dataRead a t = .ok (w, t') ∧ t'.hitEvents = t.hitEvents + 1 ∧ t'.missEvents = t.missEvents ∧
        (width = .byte → w.extractLsb' 0 8 = v.extractLsb' 0 8 ∧ w.extractLsb' 8 24 = old.extractLsb' 8 24) ∧
        (width = .half → w.extractLsb' 0 16 = v.extractLsb' 0 16 ∧ w.extractLsb' 16 16 = old.extractLsb' 16 16) ∧
        (width = .word → w = v)

/-- Every step keeps Memory canonical, with every listed byte in a region (R68; the canonical form is the model's, Memory.wf). -/
def Obligations.StepKeepsTheMemoryInvariant : Prop :=
  ∀ s t : State, MemoryInv s → step s = .next t → MemoryInv t

/-- Every step keeps the cache coherent: each valid block over addresses in a region holds what Memory holds (R76; 10_state.md
R49). -/
def Obligations.StepKeepsTheCacheCoherent : Prop :=
  ∀ s t : State, s.cfg.wf → s.cfg.cacheEnabled = true → MemoryInv s → CacheCoherent s → step s = .next t → CacheCoherent t

/-! ### Reset and the host's commands -/

/-- The state right after power-on (10_state.md R55), with the default parameters and no program image (log 4, log 7). -/
def Obligations.ResetLeavesTheListedValues : Prop :=
  let s := State.reset
  (∀ r, regGet s.cur.regs r = 0 ∧ regGet s.nxt.regs r = 0) ∧
  s.cur.hi = 0 ∧ s.cur.lo = 0 ∧ s.nxt.hi = 0 ∧ s.nxt.lo = 0 ∧
  s.cur.pc = s.cfg.textBase ∧ s.nxt.pc = s.cfg.textBase ∧
  (∀ p ∈ [s.ifid, s.idex, s.exmem, s.memwb], p = ⟨0, 0, 0, 0, 0, 0, 0, 0, 0⟩) ∧
  s.selA = .none ∧ s.selB = .none ∧ s.stallCount = 0 ∧
  s.exDest = 0 ∧ s.exWe = false ∧ s.exLoad = false ∧ s.memDest = 0 ∧ s.memWe = false ∧
  s.branchFlag = false ∧ s.forwardingEnabled = false ∧ s.diagLog = [] ∧ s.runFlag = true ∧
  s.cycleCount = 0 ∧ s.instructionCount = 0 ∧
  (∀ i, (blockGet s.cache i).valid = false ∧ (blockGet s.cache i).tag = 0 ∧ ∀ k, blockWord (blockGet s.cache i) k = 0) ∧
  s.hitEvents = 0 ∧ s.missEvents = 0 ∧ s.missFlag = false ∧ s.penaltyRemaining = 0 ∧
  (∀ n, memGet s.mem n = 0)

/-- The reset state meets every invariant, and its default map meets 20_memory.md R60 (10_state.md R55; the map is PRESUMED,
log 4). -/
def Obligations.ResetMeetsTheInvariants : Prop :=
  State.reset.cfg.wf ∧ PipelineInv State.reset ∧ MemoryInv State.reset ∧ CacheCoherent State.reset

/-- The host's reset clears everything but the forwarding mode, and Memory holds the reloaded image and nothing else
(70_reset_and_hazards.md R450, R452; the mode is D29's choice, the kept parameters and draw counter are log 3 and log 17). -/
def Obligations.HostResetKeepsOnlyTheForwardingMode : Prop :=
  ∀ (s t : State) (image : List Word), hostReset image s = .ok t →
    writeImage s.cfg.regions image s.cfg.textBase [] = .ok t.mem ∧
    t = { State.powerOn s.cfg with
      forwardingEnabled := s.forwardingEnabled, drawCount := s.drawCount, mem := t.mem }

/-- The round trip: a program whose every word lies in a region is dumped as it was loaded (40_pipeline.md R197;
70_reset_and_hazards.md R452). -/
def Obligations.LoadedProgramIsDumpedBack : Prop :=
  ∀ (s t : State) (image : List Word), image ≠ [] → s.cfg.textBase.toNat + 4 * image.length ≤ 2 ^ 32 →
    (∀ i < image.length, ∃ g, regionOf s.cfg.regions (s.cfg.textBase + BitVec.ofNat 32 (4 * i)) = some g ∧
      s.cfg.textBase.toNat + 4 * i + 4 ≤ g.base + g.size) →
    hostReset image s = .ok t →
      memoryDump s.cfg.textBase (s.cfg.textBase + BitVec.ofNat 32 (4 * (image.length - 1))) t =
        .ok (image.zipIdx.map fun p => (s.cfg.textBase + BitVec.ofNat 32 (4 * p.2), p.1))

/-- "Set a register, HI, or LO" writes both generations of that one and changes nothing else; "toggle forwarding" inverts the
mode and changes nothing else; the register dump shows the current generation; the cache dump prints the misses under "hits" and
the hits under "misses"; the pipeline dump shows the four pipeline registers; and the memory dump shows the words that Memory holds
at a, a + 4 and so on, up to b (40_pipeline.md R191 to R197; the range is log 16's). -/
def Obligations.HostCommandsSetAndDump : Prop :=
  ∀ (s : State) (r : Reg) (v : Word),
    (∀ q, regGet (setReg r v s).cur.regs q = (if q = r then v else regGet s.cur.regs q) ∧
      regGet (setReg r v s).nxt.regs q = (if q = r then v else regGet s.nxt.regs q)) ∧
    setReg r v s =
      { s with
        cur := { s.cur with regs := (setReg r v s).cur.regs }, nxt := { s.nxt with regs := (setReg r v s).nxt.regs } } ∧
    setHi v s = { s with cur := { s.cur with hi := v }, nxt := { s.nxt with hi := v } } ∧
    setLo v s = { s with cur := { s.cur with lo := v }, nxt := { s.nxt with lo := v } } ∧
    toggleForwarding s = { s with forwardingEnabled := !s.forwardingEnabled } ∧
    registerDump s = ⟨s.cur.regs, s.cur.hi, s.cur.lo, s.cur.pc, s.cycleCount, s.instructionCount⟩ ∧
    cacheDump s = ⟨s.cache, s.missEvents, s.hitEvents⟩ ∧
    pipelineDump s = ⟨s.ifid, s.idex, s.exmem, s.memwb⟩ ∧
    (∀ a b : Word, b.toNat < a.toNat → memoryDump a b s = .ok []) ∧
    (∀ a b w : Word, a.toNat ≤ b.toNat → b.toNat < a.toNat + 4 → memRead s.cfg.regions s.mem a = .ok w →
      memoryDump a b s = .ok [(a, w)]) ∧
    (∀ (a b w : Word) (rest : List (Word × Word)), a.toNat + 4 ≤ b.toNat → memRead s.cfg.regions s.mem a = .ok w →
      memoryDump (a + 4) b s = .ok rest → memoryDump a b s = .ok ((a, w) :: rest))

/-- With MISS_PENALTY = 0 and no penalty owed, `run(n)` that reaches the halt ends as `run_all` does, in every piece of state
(40_pipeline.md R138). -/
def Obligations.BoundedRunWithoutPenaltyIsRunAll : Prop :=
  ∀ (n : Nat) (s : State) (o : Res), s.penaltyRemaining = 0 → runAll n s = some o → runBounded 0 n s = o

/-- The loop of `run(n)`: it stops at once after its `n` iterations and on a halted machine, and otherwise makes one iteration and
goes on with one fewer. An iteration is a penalty cycle where one is owed, which adds 1 to CYCLE_COUNT, spends one of the penalty and
changes nothing else; and else a cycle, after which the penalty is owed in full if it had a miss (40_pipeline.md R137, R138; D28). -/
def Obligations.PenaltyCycleOnlyCounts : Prop :=
  ∀ (p : Nat) (s : State),
    (0 < s.penaltyRemaining →
      boundedIteration p s = .next { s with penaltyRemaining := s.penaltyRemaining - 1, cycleCount := s.cycleCount + 1 }) ∧
    (s.penaltyRemaining = 0 → ∀ t, step s = .next t →
      boundedIteration p s = .next (if t.missFlag = true then { t with penaltyRemaining := p } else t)) ∧
    (s.penaltyRemaining = 0 → ∀ f, step s = .fault f → boundedIteration p s = .fault f) ∧
    runBounded p 0 s = .next s ∧
    (∀ n, s.runFlag = false → runBounded p n s = .next s) ∧
    (∀ n, s.runFlag = true → runBounded p (n + 1) s = andThen (boundedIteration p s) (runBounded p n))
end

