-- ==== Sys2Proof/Laws/Memory.lean ====
section
/-! SUPPORT. The laws of Memory: reads after writes, the canonical form, and what the word accesses do. -/

namespace Sys2Proof.Machine

/-! ### Bytes -/

theorem memGet_memSet_same (m : Memory) (n : Nat) (b : Byte) (h : Memory.wf m) : memGet (memSet m n b) n = b := by
  induction m with
  | nil => by_cases hb : b = 0#8 <;> simp [memSet, memGet, hb]
  | cons c m ih =>
    obtain ⟨k, v⟩ := c
    have hrest : ∀ d ∈ m, k < d.1 := (List.pairwise_cons.mp h.1).1
    have habsent : ∀ (l : Memory), (∀ d ∈ l, n < d.1) → memGet l n = 0 := by
      intro l hl
      induction l with
      | nil => rfl
      | cons d l ihl =>
        have := hl d (by simp)
        simp only [memGet]
        rw [if_neg (by omega)]
        exact ihl fun e he => hl e (by simp [he])
    have hm : Memory.wf m := ⟨(List.pairwise_cons.mp h.1).2, fun d hd => h.2 d (by simp [hd])⟩
    simp only [memSet]
    split
    · next hlt =>
      by_cases hb : b = 0#8
      · rw [if_pos hb, hb]
        exact habsent _ fun d hd => by
          rcases List.mem_cons.mp hd with rfl | hd
          · exact hlt
          · have := hrest d hd; omega
      · simp [hb, memGet]
    · split
      · next heq =>
        subst heq
        by_cases hb : b = 0#8
        · rw [if_pos hb, hb]; exact habsent _ hrest
        · simp [hb, memGet]
      · next hne => simp [memGet, hne, ih hm]

theorem memGet_memSet_other (m : Memory) (n k : Nat) (b : Byte) (h : k ≠ n) : memGet (memSet m n b) k = memGet m k := by
  induction m with
  | nil => by_cases hb : b = 0#8 <;> simp [memSet, memGet, hb, h]
  | cons c m ih =>
    obtain ⟨j, v⟩ := c
    simp only [memSet]
    split
    · by_cases hb : b = 0#8 <;> simp [hb, memGet, h]
    · split
      · next heq =>
        subst heq
        by_cases hb : b = 0#8 <;> simp [hb, memGet, h]
      · simp only [memGet, ih]

/-- What a cell of a memory can be after a byte is set: the new cell, or an old one. -/
theorem mem_memSet {m : Memory} {n : Nat} {b : Byte} {c : Host.Cell} (h : c ∈ memSet m n b) :
    (c = (n, b) ∧ b ≠ 0#8) ∨ c ∈ m := by
  induction m with
  | nil => by_cases hb : b = 0#8 <;> simp_all [memSet]
  | cons d m ih =>
    obtain ⟨k, v⟩ := d
    simp only [memSet] at h
    split at h
    · by_cases hb : b = 0#8 <;> simp_all
    · split at h
      · by_cases hb : b = 0#8 <;> simp_all
        rcases h with h | h <;> simp [h]
      · rcases List.mem_cons.mp h with h | h
        · simp [h]
        · rcases ih h with h | h
          · exact .inl h
          · exact .inr (by simp [h])

/-- Setting a byte keeps the canonical form. -/
theorem memSet_wf (m : Memory) (n : Nat) (b : Byte) (h : Memory.wf m) : Memory.wf (memSet m n b) := by
  refine ⟨?_, fun c hc => ?_⟩
  · induction m with
    | nil => by_cases hb : b = 0#8 <;> simp [memSet, hb]
    | cons c m ih =>
      obtain ⟨k, v⟩ := c
      obtain ⟨hhead, htail⟩ := List.pairwise_cons.mp h.1
      have hm : Memory.wf m := ⟨htail, fun d hd => h.2 d (by simp [hd])⟩
      simp only [memSet]
      split
      · next hlt =>
        by_cases hb : b = 0#8
        · rw [if_pos hb]; exact h.1
        · rw [if_neg hb]
          refine List.pairwise_cons.mpr ⟨fun d hd => ?_, h.1⟩
          rcases List.mem_cons.mp hd with rfl | hd
          · exact hlt
          · exact Nat.lt_trans hlt (hhead d hd)
      · split
        · next heq =>
          subst heq
          by_cases hb : b = 0#8
          · rw [if_pos hb]; exact htail
          · rw [if_neg hb]; exact List.pairwise_cons.mpr ⟨hhead, htail⟩
        · next hge hne =>
          refine List.pairwise_cons.mpr ⟨fun d hd => ?_, ih hm⟩
          rcases mem_memSet hd with ⟨rfl, -⟩ | hd
          · simp only; omega
          · exact hhead d hd
  · rcases mem_memSet hc with ⟨rfl, hb⟩ | hc
    · exact hb
    · exact h.2 c hc

/-- Two canonical memories that read alike are the same list. -/
theorem memory_ext {m m' : Memory} (h : Memory.wf m) (h' : Memory.wf m') (heq : ∀ n, memGet m n = memGet m' n) : m = m' := by
  have absent : ∀ (l : Memory) (n : Nat), (∀ d ∈ l, n < d.1) → memGet l n = 0 := by
    intro l n hl
    induction l with
    | nil => rfl
    | cons d l ihl =>
      have := hl d (by simp)
      simp only [memGet]
      rw [if_neg (by omega)]
      exact ihl fun e he => hl e (by simp [he])
  induction m generalizing m' with
  | nil =>
    cases m' with
    | nil => rfl
    | cons c m' =>
      have h0 := heq c.1
      simp only [memGet, if_true] at h0
      exact absurd h0.symm (h'.2 c (by simp))
  | cons c m ih =>
    obtain ⟨hhead, htail⟩ := List.pairwise_cons.mp h.1
    cases m' with
    | nil =>
      have h0 := heq c.1
      simp only [memGet, if_true] at h0
      exact absurd h0 (h.2 c (by simp))
    | cons c' m' =>
      obtain ⟨hhead', htail'⟩ := List.pairwise_cons.mp h'.1
      have hkey : c.1 = c'.1 := by
        rcases Nat.lt_trichotomy c.1 c'.1 with hlt | he | hgt
        · have h0 := heq c.1
          rw [absent (c' :: m') c.1 fun d hd => by
            rcases List.mem_cons.mp hd with rfl | hd
            · exact hlt
            · exact Nat.lt_trans hlt (hhead' d hd)] at h0
          simp only [memGet, if_true] at h0
          exact absurd h0 (h.2 c (by simp))
        · exact he
        · have h0 := heq c'.1
          rw [absent (c :: m) c'.1 fun d hd => by
            rcases List.mem_cons.mp hd with rfl | hd
            · exact hgt
            · exact Nat.lt_trans hgt (hhead d hd)] at h0
          simp only [memGet, if_true] at h0
          exact absurd h0.symm (h'.2 c' (by simp))
      have hval : c.2 = c'.2 := by
        have h0 := heq c.1
        simpa [memGet, hkey] using h0
      have hc : c = c' := Prod.ext hkey hval
      subst hc
      congr 1
      refine ih ⟨htail, fun d hd => h.2 d (by simp [hd])⟩ ⟨htail', fun d hd => h'.2 d (by simp [hd])⟩ fun n => ?_
      by_cases hn : n = c.1
      · rw [hn, absent m c.1 hhead, absent m' c.1 hhead']
      · have h0 := heq n
        simpa [memGet, hn] using h0

/-! ### Words -/

theorem memSetWord_wf (m : Memory) (n : Nat) (v : Word) (h : Memory.wf m) : Memory.wf (memSetWord m n v) :=
  memSet_wf _ _ _ (memSet_wf _ _ _ (memSet_wf _ _ _ (memSet_wf _ _ _ h)))

/-- A byte outside the four written is as before. -/
theorem memGet_memSetWord_other (m : Memory) (n k : Nat) (v : Word) (h : k < n ∨ n + 4 ≤ k) :
    memGet (memSetWord m n v) k = memGet m k := by
  simp only [memSetWord]
  rw [memGet_memSet_other, memGet_memSet_other, memGet_memSet_other, memGet_memSet_other] <;> omega

/-- The `k`th byte written. -/
theorem memGet_memSetWord_byte (m : Memory) (n k : Nat) (v : Word) (hm : Memory.wf m) (hk : k < 4) :
    memGet (memSetWord m n v) (n + k) = byteOfWord v k := by
  have w0 := memSet_wf m n (byteOfWord v 0) hm
  have w1 := memSet_wf _ (n + 1) (byteOfWord v 1) w0
  have w2 := memSet_wf _ (n + 2) (byteOfWord v 2) w1
  simp only [memSetWord]
  rcases (by omega : k = 0 ∨ k = 1 ∨ k = 2 ∨ k = 3) with rfl | rfl | rfl | rfl
  · rw [memGet_memSet_other _ _ _ _ (by omega), memGet_memSet_other _ _ _ _ (by omega),
      memGet_memSet_other _ _ _ _ (by omega)]
    exact memGet_memSet_same m n _ hm
  · rw [memGet_memSet_other _ _ _ _ (by omega), memGet_memSet_other _ _ _ _ (by omega)]
    exact memGet_memSet_same _ _ _ w0
  · rw [memGet_memSet_other _ _ _ _ (by omega)]
    exact memGet_memSet_same _ _ _ w1
  · exact memGet_memSet_same _ _ _ w2

/-- The bytes of a word, put together, are the word. -/
theorem wordOfBytes_byteOfWord (v : Word) :
    wordOfBytes (byteOfWord v 0) (byteOfWord v 1) (byteOfWord v 2) (byteOfWord v 3) = v := by
  apply BitVec.eq_of_getLsbD_eq
  intro i hi
  simp only [wordOfBytes, byteOfWord, BitVec.getLsbD_append, BitVec.getLsbD_extractLsb']
  split
  · simp; omega
  · split
    · rw [show 8 * 1 + (i - 8) = i by omega]; simp; omega
    · split
      · rw [show 8 * 2 + (i - 8 - 8) = i by omega]; simp; omega
      · rw [show 8 * 3 + (i - 8 - 8 - 8) = i by omega]; simp; omega

/-- A byte of the word that Memory holds is the byte that Memory holds there (20_memory.md R63). -/
theorem byteOfWord_memGetWord (m : Memory) (n k : Nat) (hk : k < 4) : byteOfWord (memGetWord m n) k = memGet m (n + k) := by
  apply BitVec.eq_of_getLsbD_eq
  intro j hj
  rcases (by omega : k = 0 ∨ k = 1 ∨ k = 2 ∨ k = 3) with rfl | rfl | rfl | rfl <;>
    simp only [byteOfWord, memGetWord, wordOfBytes, BitVec.getLsbD_append, BitVec.getLsbD_extractLsb', hj, decide_true,
      Bool.true_and, Nat.mul_zero, Nat.zero_add, Nat.add_zero]
  · rw [if_pos trivial]
  · rw [if_neg (by omega), if_pos (by omega)]; congr 1; omega
  · rw [if_neg (by omega), if_neg (by omega), if_pos (by omega)]; congr 1; omega
  · rw [if_neg (by omega), if_neg (by omega), if_neg (by omega)]; congr 1; omega

/-- Read after write: the word written is read back. -/
theorem memGetWord_memSetWord_same (m : Memory) (n : Nat) (v : Word) (hm : Memory.wf m) :
    memGetWord (memSetWord m n v) n = v := by
  have b0 := memGet_memSetWord_byte m n 0 v hm (by omega)
  have b1 := memGet_memSetWord_byte m n 1 v hm (by omega)
  have b2 := memGet_memSetWord_byte m n 2 v hm (by omega)
  have b3 := memGet_memSetWord_byte m n 3 v hm (by omega)
  rw [Nat.add_zero] at b0
  rw [memGetWord, b0, b1, b2, b3]
  exact wordOfBytes_byteOfWord v

/-- A word that shares no byte with the one written is as before. -/
theorem memGetWord_memSetWord_other (m : Memory) (n k : Nat) (v : Word) (h : k + 4 ≤ n ∨ n + 4 ≤ k) :
    memGetWord (memSetWord m n v) k = memGetWord m k := by
  simp only [memGetWord]
  rw [memGet_memSetWord_other _ _ _ _ (by omega), memGet_memSetWord_other _ _ _ _ (by omega),
    memGet_memSetWord_other _ _ _ _ (by omega), memGet_memSetWord_other _ _ _ _ (by omega)]

/-! ### Word accesses through the regions -/

/-- What a word write can do: nothing, outside every region, or set the four bytes inside one region. -/
theorem memWrite_cases {gs : List Region} {m m' : Memory} {a v : Word} (h : memWrite gs m a v = .ok m') :
    (regionOf gs a = none ∧ m' = m) ∨
      ∃ g, regionOf gs a = some g ∧ a.toNat + 4 ≤ g.base + g.size ∧ m' = memSetWord m a.toNat v := by
  unfold memWrite at h
  split at h
  · next hr => exact .inl ⟨hr, by simpa using h.symm⟩
  · next g hr =>
    split at h
    · next hle => exact .inr ⟨g, hr, hle, by simpa using h.symm⟩
    · simp at h

/-- What a word read can do: 0, outside every region, or the four bytes inside one region. -/
theorem memRead_cases {gs : List Region} {m : Memory} {a w : Word} (h : memRead gs m a = .ok w) :
    (regionOf gs a = none ∧ w = 0) ∨
      ∃ g, regionOf gs a = some g ∧ a.toNat + 4 ≤ g.base + g.size ∧ w = memGetWord m a.toNat := by
  unfold memRead at h
  split at h
  · next hr => exact .inl ⟨hr, by simpa using h.symm⟩
  · next g hr =>
    split at h
    · next hle => exact .inr ⟨g, hr, hle, by simpa using h.symm⟩
    · simp at h

/-- The region of an address is one of the list, and covers it. -/
theorem regionOf_some {gs : List Region} {a : Word} {g : Region} (h : regionOf gs a = some g) :
    g ∈ gs ∧ g.base ≤ a.toNat ∧ a.toNat < g.base + g.size := by
  have hmem := List.mem_of_find?_eq_some h
  have hin := List.find?_some h
  simp only [inRegion, Bool.and_eq_true, decide_eq_true_eq] at hin
  exact ⟨hmem, hin.1, hin.2⟩

/-- In a map that meets R60, an aligned word that starts in a region fits it. -/
theorem aligned_fits {c : Config} (hc : c.wf) {a : Word} (ha : a.toNat % 4 = 0) {g : Region}
    (hg : regionOf c.regions a = some g) : a.toNat + 4 ≤ g.base + g.size := by
  obtain ⟨hmem, hlo, hhi⟩ := regionOf_some hg
  have := hc.1 g hmem
  omega

theorem find?_congr_mem {gs : List Region} {p q : Region → Bool} (h : ∀ g ∈ gs, p g = q g) : gs.find? p = gs.find? q := by
  induction gs with
  | nil => rfl
  | cons g gs ih =>
    simp only [List.find?_cons]
    rw [h g (by simp), ih fun k hk => h k (by simp [hk])]

/-- In such a map, the addresses of one 16-byte block lie in one region, or all outside every region (R76). -/
theorem regionOf_sameBlock {c : Config} (hc : c.wf) {a b : Word} (h : a.toNat / 16 = b.toNat / 16) :
    regionOf c.regions a = regionOf c.regions b := by
  refine find?_congr_mem fun g hg => ?_
  have := hc.1 g hg
  simp only [inRegion]
  rw [Bool.eq_iff_iff]
  simp only [Bool.and_eq_true, decide_eq_true_eq]
  omega

/-- In such a map, aligned reads and writes never overrun (60_exceptions.md R402). -/
theorem memRead_aligned {c : Config} (hc : c.wf) (m : Memory) {a : Word} (ha : a.toNat % 4 = 0) :
    ∃ w, memRead c.regions m a = .ok w := by
  unfold memRead
  split
  · exact ⟨_, rfl⟩
  · next g hg => exact ⟨_, if_pos (aligned_fits hc ha hg)⟩

theorem memWrite_aligned {c : Config} (hc : c.wf) (m : Memory) {a : Word} (v : Word) (ha : a.toNat % 4 = 0) :
    ∃ m', memWrite c.regions m a v = .ok m' := by
  unfold memWrite
  split
  · exact ⟨_, rfl⟩
  · next g hg => exact ⟨_, if_pos (aligned_fits hc ha hg)⟩

/-- A word write keeps the canonical form. -/
theorem memWrite_wf {gs : List Region} {m m' : Memory} {a v : Word} (h : memWrite gs m a v = .ok m') (hm : Memory.wf m) :
    Memory.wf m' := by
  rcases memWrite_cases h with ⟨-, rfl⟩ | ⟨g, -, -, rfl⟩
  · exact hm
  · exact memSetWord_wf m _ v hm

/-- Reset's memory has the canonical form. -/
theorem emptyMemory_wf : Memory.wf [] := by decide

end Sys2Proof.Machine
end

