-- ==== Sys2Proof/Laws/Cache.lean ====
section
/-! SUPPORT. What the cache operations can do (20_memory.md R71 to R73). -/

namespace Sys2Proof.Machine

/-! ### Blocks -/

@[simp] theorem blockGet_blockSet_same (c : Vector CacheBlock 16) (i : BitVec 4) (b : CacheBlock) :
    blockGet (blockSet c i b) i = b := by
  simp [blockGet, blockSet]

theorem blockGet_blockSet_other (c : Vector CacheBlock 16) (i j : BitVec 4) (b : CacheBlock) (h : j ≠ i) :
    blockGet (blockSet c i b) j = blockGet c j := by
  have hne : i.toNat ≠ j.toNat := fun e => h (BitVec.eq_of_toNat_eq e.symm)
  simp [blockGet, blockSet, Vector.getElem_set_ne _ _ hne]

@[simp] theorem blockWord_blockSetWord_same (b : CacheBlock) (o : BitVec 2) (v : Word) :
    blockWord (blockSetWord b o v) o = v := by
  simp [blockWord, blockSetWord]

theorem blockWord_blockSetWord_other (b : CacheBlock) (o p : BitVec 2) (v : Word) (h : p ≠ o) :
    blockWord (blockSetWord b o v) p = blockWord b p := by
  have hne : o.toNat ≠ p.toNat := fun e => h (BitVec.eq_of_toNat_eq e.symm)
  simp [blockWord, blockSetWord, Vector.getElem_set_ne _ _ hne]

/-! ### Accesses -/

/-- What a cache access can do: count a hit, or refill the block and count a miss (R71). -/
theorem cacheAccess_cases {a : Word} {s t : State} (h : cacheAccess a s = .ok t) :
    (cacheHit s.cache a = true ∧ t = { s with hitEvents := s.hitEvents + 1 }) ∨
      ∃ ws, cacheHit s.cache a = false ∧ refillWords s.cfg.regions s.mem (cacheBase a) = .ok ws ∧
        t = { s with
          cache := blockSet s.cache (cacheIndex a) { valid := true, tag := cacheTag a, words := ws }
          missEvents := s.missEvents + 1
          missFlag := true } := by
  unfold cacheAccess at h
  split at h
  · next hhit => exact .inl ⟨hhit, by simpa using h.symm⟩
  · next hmiss =>
    cases hr : refillWords s.cfg.regions s.mem (cacheBase a) with
    | error f => rw [hr] at h; cases h
    | ok ws =>
      rw [hr] at h
      exact .inr ⟨ws, by simpa using hmiss, rfl, (Except.ok.inj h).symm⟩

/-- A refill reads the four words of the block one by one (R71). -/
theorem refillWords_words {gs : List Region} {m : Memory} {base : Word} {ws : Vector Word 4}
    (h : refillWords gs m base = .ok ws) :
    memRead gs m base = .ok ws[0] ∧ memRead gs m (base + 4) = .ok ws[1] ∧ memRead gs m (base + 8) = .ok ws[2] ∧
      memRead gs m (base + 12) = .ok ws[3] := by
  unfold refillWords at h
  dsimp only [bind, Except.bind] at h
  split at h
  · cases h
  · next w0 h0 =>
    split at h
    · cases h
    · next w1 h1 =>
      split at h
      · cases h
      · next w2 h2 =>
        split at h
        · cases h
        · next w3 h3 =>
          have := Except.ok.inj h
          subst this
          exact ⟨h0, h1, h2, h3⟩

/-- After an access the addressed block is valid and holds the address's tag (R71). -/
theorem cacheAccess_block {a : Word} {s t : State} (h : cacheAccess a s = .ok t) :
    (blockGet t.cache (cacheIndex a)).valid = true ∧ (blockGet t.cache (cacheIndex a)).tag = cacheTag a := by
  rcases cacheAccess_cases h with ⟨hhit, rfl⟩ | ⟨ws, -, -, rfl⟩
  · simpa [cacheHit] using hhit
  · simp

/-- Each access counts one hit or one miss (R74). -/
theorem cacheAccess_counts {a : Word} {s t : State} (h : cacheAccess a s = .ok t) :
    t.hitEvents + t.missEvents = s.hitEvents + s.missEvents + 1 := by
  rcases cacheAccess_cases h with ⟨-, rfl⟩ | ⟨ws, -, -, rfl⟩ <;> simp <;> omega

/-- What a cache read does: one access, and the addressed word of the block it leaves (R72). -/
theorem cacheRead_cases {a w : Word} {s t : State} (h : cacheRead a s = .ok (w, t)) :
    cacheAccess a s = .ok t ∧ w = blockWord (blockGet t.cache (cacheIndex a)) (cacheOffset a) := by
  unfold cacheRead at h
  cases ha : cacheAccess a s with
  | error f => rw [ha] at h; cases h
  | ok u =>
    rw [ha] at h
    have h := Prod.mk.inj (Except.ok.inj h)
    exact ⟨by rw [h.2], by rw [← h.1, ← h.2]⟩

/-- What a cache write does: one access, the merge, and the write-back of the whole block (R73). -/
theorem cacheWrite_cases {a v : Word} {width : Width} {s t : State} (h : cacheWrite a v width s = .ok t) :
    ∃ u m, cacheAccess a s = .ok u ∧
      writeBackWords u.cfg.regions u.mem (cacheBase a)
        (blockSetWord (blockGet u.cache (cacheIndex a)) (cacheOffset a)
          (mergeWord (blockWord (blockGet u.cache (cacheIndex a)) (cacheOffset a)) v width)).words = .ok m ∧
      t = { u with
        cache := blockSet u.cache (cacheIndex a)
          (blockSetWord (blockGet u.cache (cacheIndex a)) (cacheOffset a)
            (mergeWord (blockWord (blockGet u.cache (cacheIndex a)) (cacheOffset a)) v width))
        mem := m } := by
  unfold cacheWrite at h
  cases ha : cacheAccess a s with
  | error f => rw [ha] at h; cases h
  | ok u =>
    rw [ha] at h
    dsimp only [bind, Except.bind] at h
    split at h
    · cases h
    · next m hm => exact ⟨u, m, rfl, hm, (Except.ok.inj h).symm⟩

/-- The address of a block is a multiple of 16 (R70). -/
theorem cacheBase_aligned (a : Word) : (cacheBase a).toNat % 16 = 0 := by
  simp only [cacheBase, BitVec.toNat_append]
  simp [Nat.shiftLeft_eq]

theorem cacheBase_add (a : Word) (k : Nat) (hk : k < 16) :
    (cacheBase a + BitVec.ofNat 32 k).toNat = (cacheBase a).toNat + k := by
  have := cacheBase_aligned a
  have := (cacheBase a).isLt
  rw [BitVec.toNat_add, BitVec.toNat_ofNat]
  omega

theorem cacheBase_add_aligned (a : Word) (k : Nat) (hk : k % 4 = 0) (hlt : k < 16) :
    (cacheBase a + BitVec.ofNat 32 k).toNat % 4 = 0 := by
  have := cacheBase_aligned a
  rw [cacheBase_add a k hlt]
  omega

/-- In a map that meets R60, a refill and a write-back never overrun (60_exceptions.md R402). -/
theorem refillWords_ok {c : Config} (hc : c.wf) (m : Memory) (a : Word) :
    ∃ ws, refillWords c.regions m (cacheBase a) = .ok ws := by
  obtain ⟨w0, h0⟩ := memRead_aligned hc m (a := cacheBase a) (by have := cacheBase_aligned a; omega)
  obtain ⟨w1, h1⟩ := memRead_aligned hc m (cacheBase_add_aligned a 4 rfl (by omega))
  obtain ⟨w2, h2⟩ := memRead_aligned hc m (cacheBase_add_aligned a 8 rfl (by omega))
  obtain ⟨w3, h3⟩ := memRead_aligned hc m (cacheBase_add_aligned a 12 rfl (by omega))
  refine ⟨#v[w0, w1, w2, w3], ?_⟩
  unfold refillWords
  rw [h0]
  dsimp only [bind, Except.bind]
  erw [h1]
  dsimp only
  erw [h2]
  dsimp only
  erw [h3]
  rfl

/-- The memory with the four words of a block written from `n` up. -/
def memSetBlock (m : Memory) (n : Nat) (ws : Vector Word 4) : Memory :=
  memSetWord (memSetWord (memSetWord (memSetWord m n ws[0]) (n + 4) ws[1]) (n + 8) ws[2]) (n + 12) ws[3]

theorem memGet_memSetBlock_other (m : Memory) (n k : Nat) (ws : Vector Word 4) (h : k < n ∨ n + 16 ≤ k) :
    memGet (memSetBlock m n ws) k = memGet m k := by
  unfold memSetBlock
  rw [memGet_memSetWord_other _ _ _ _ (by omega), memGet_memSetWord_other _ _ _ _ (by omega),
    memGet_memSetWord_other _ _ _ _ (by omega), memGet_memSetWord_other _ _ _ _ (by omega)]

theorem memGetWord_memSetBlock (m : Memory) (n : Nat) (ws : Vector Word 4) (hm : Memory.wf m) (o : BitVec 2) :
    memGetWord (memSetBlock m n ws) (n + o.toNat * 4) = getElem ws o.toNat o.isLt := by
  have w0 := memSetWord_wf m n ws[0] hm
  have w1 := memSetWord_wf _ (n + 4) ws[1] w0
  have w2 := memSetWord_wf _ (n + 8) ws[2] w1
  have ho := o.isLt
  unfold memSetBlock
  rcases (by omega : o.toNat = 0 ∨ o.toNat = 1 ∨ o.toNat = 2 ∨ o.toNat = 3) with h | h | h | h <;> simp only [h]
  · rw [memGetWord_memSetWord_other _ _ _ _ (by omega), memGetWord_memSetWord_other _ _ _ _ (by omega),
      memGetWord_memSetWord_other _ _ _ _ (by omega)]
    exact memGetWord_memSetWord_same _ _ _ hm
  · rw [memGetWord_memSetWord_other _ _ _ _ (by omega), memGetWord_memSetWord_other _ _ _ _ (by omega)]
    exact memGetWord_memSetWord_same _ _ _ w0
  · rw [memGetWord_memSetWord_other _ _ _ _ (by omega)]
    exact memGetWord_memSetWord_same _ _ _ w1
  · exact memGetWord_memSetWord_same _ _ _ w2

/-- In a map that meets R60, the write-back of a block outside every region changes nothing (R73, R76). -/
theorem writeBackWords_unmapped {c : Config} (hc : c.wf) (m : Memory) (a : Word) (ws : Vector Word 4)
    (h : regionOf c.regions (cacheBase a) = none) : writeBackWords c.regions m (cacheBase a) ws = .ok m := by
  have hw : ∀ k < 16, ∀ v, memWrite c.regions m (cacheBase a + BitVec.ofNat 32 k) v = .ok m := fun k hk v => by
    have hr : regionOf c.regions (cacheBase a + BitVec.ofNat 32 k) = none := by
      rw [← h]
      have := cacheBase_aligned a
      exact regionOf_sameBlock hc (by rw [cacheBase_add a k hk]; omega)
    rw [memWrite, hr]
  have h0 : ∀ v, memWrite c.regions m (cacheBase a) v = .ok m := fun v => by rw [memWrite, h]
  unfold writeBackWords
  rw [h0]
  dsimp only [bind, Except.bind]
  erw [hw 4 (by omega)]
  dsimp only
  erw [hw 8 (by omega)]
  dsimp only
  erw [hw 12 (by omega)]

/-- In such a map, the write-back of a block in a region sets its four words. -/
theorem writeBackWords_mapped {c : Config} (hc : c.wf) (m : Memory) (a : Word) (ws : Vector Word 4) {g : Region}
    (h : regionOf c.regions (cacheBase a) = some g) :
    writeBackWords c.regions m (cacheBase a) ws = .ok (memSetBlock m (cacheBase a).toNat ws) := by
  have hw : ∀ m k, k < 16 → k % 4 = 0 → ∀ v,
      memWrite c.regions m (cacheBase a + BitVec.ofNat 32 k) v = .ok (memSetWord m ((cacheBase a).toNat + k) v) :=
    fun m k hk hk4 v => by
      have hr : regionOf c.regions (cacheBase a + BitVec.ofNat 32 k) = some g := by
        rw [← h]
        have := cacheBase_aligned a
        exact regionOf_sameBlock hc (by rw [cacheBase_add a k hk]; omega)
      rw [memWrite, hr]
      dsimp only
      rw [if_pos (aligned_fits hc (cacheBase_add_aligned a k hk4 hk) hr), cacheBase_add a k hk]
  have h0 : ∀ m v, memWrite c.regions m (cacheBase a) v = .ok (memSetWord m (cacheBase a).toNat v) := fun m v => by
    have := cacheBase_aligned a
    rw [memWrite, h]
    dsimp only
    rw [if_pos (aligned_fits hc (by omega) h)]
  unfold writeBackWords
  rw [h0]
  dsimp only [bind, Except.bind]
  erw [hw _ 4 (by omega) rfl]
  dsimp only
  erw [hw _ 8 (by omega) rfl]
  dsimp only
  erw [hw _ 12 (by omega) rfl]
  rfl

/-- A write-back keeps the canonical form of Memory. -/
theorem writeBackWords_wf {gs : List Region} {m m' : Memory} {base : Word} {ws : Vector Word 4}
    (h : writeBackWords gs m base ws = .ok m') (hm : Memory.wf m) : Memory.wf m' := by
  unfold writeBackWords at h
  dsimp only [bind, Except.bind] at h
  split at h
  · cases h
  · next m0 h0 =>
    split at h
    · cases h
    · next m1 h1 =>
      split at h
      · cases h
      · next m2 h2 => exact memWrite_wf h (memWrite_wf h2 (memWrite_wf h1 (memWrite_wf h0 hm)))

/-! ### The data path changes the cache, its counters, the miss flag and Memory, and nothing else -/

/-- The two states differ at most in the cache, its counters, the miss flag and Memory. -/
def SameButMemory (s t : State) : Prop :=
  t = { s with cache := t.cache, hitEvents := t.hitEvents, missEvents := t.missEvents, missFlag := t.missFlag, mem := t.mem }

theorem cacheAccess_sameButMemory {a : Word} {s t : State} (h : cacheAccess a s = .ok t) : SameButMemory s t := by
  rcases cacheAccess_cases h with ⟨-, rfl⟩ | ⟨ws, -, -, rfl⟩ <;> rfl

theorem dataRead_sameButMemory {a w : Word} {s t : State} (h : dataRead a s = .ok (w, t)) : SameButMemory s t := by
  unfold dataRead at h
  split at h
  · exact cacheAccess_sameButMemory (cacheRead_cases h).1
  · dsimp only [bind, Except.bind] at h
    split at h
    · cases h
    · have := (Prod.mk.inj (Except.ok.inj h)).2
      subst this
      rfl

theorem dataWrite_sameButMemory {a v : Word} {width : Width} {s t : State} (h : dataWrite a v width s = .ok t) :
    SameButMemory s t := by
  unfold dataWrite at h
  split at h
  · obtain ⟨u, m, hu, -, rfl⟩ := cacheWrite_cases h
    have := cacheAccess_sameButMemory hu
    unfold SameButMemory at this ⊢
    rw [this]
  · dsimp only [bind, Except.bind] at h
    split at h
    · cases h
    · split at h
      · cases h
      · have := Except.ok.inj h
        subst this
        rfl

/-- A load leaves Memory alone. -/
theorem dataRead_mem {a w : Word} {s t : State} (h : dataRead a s = .ok (w, t)) : t.mem = s.mem := by
  unfold dataRead at h
  split at h
  · rcases cacheAccess_cases (cacheRead_cases h).1 with ⟨-, rfl⟩ | ⟨ws, -, -, rfl⟩ <;> rfl
  · dsimp only [bind, Except.bind] at h
    split at h
    · cases h
    · have := (Prod.mk.inj (Except.ok.inj h)).2
      subst this
      rfl

/-- A store keeps the canonical form of Memory. -/
theorem dataWrite_wf {a v : Word} {width : Width} {s t : State} (h : dataWrite a v width s = .ok t)
    (hm : Memory.wf s.mem) : Memory.wf t.mem := by
  unfold dataWrite at h
  split at h
  · obtain ⟨u, m, hu, hwb, rfl⟩ := cacheWrite_cases h
    have hu' : u.mem = s.mem := by rcases cacheAccess_cases hu with ⟨-, rfl⟩ | ⟨ws, -, -, rfl⟩ <;> rfl
    exact writeBackWords_wf hwb (hu' ▸ hm)
  · dsimp only [bind, Except.bind] at h
    split at h
    · cases h
    · split at h
      · cases h
      · next m hw =>
        have := Except.ok.inj h
        subst this
        exact memWrite_wf hw hm

/-! ### What one data access does to the cache (R71, R73, R74) -/

/-- From `s` to `t` one access to `a` was made: it counts one hit, or one miss and raises the miss flag, and of the blocks it
changes only the addressed one, which it leaves valid with the tag of `a`. -/
structure Accessed (a : Word) (s t : State) : Prop where
  hit : cacheHit s.cache a = true →
    t.hitEvents = s.hitEvents + 1 ∧ t.missEvents = s.missEvents ∧ t.missFlag = s.missFlag
  miss : cacheHit s.cache a = false →
    t.hitEvents = s.hitEvents ∧ t.missEvents = s.missEvents + 1 ∧ t.missFlag = true
  valid : (blockGet t.cache (cacheIndex a)).valid = true
  tag : (blockGet t.cache (cacheIndex a)).tag = cacheTag a
  others : ∀ index, index ≠ cacheIndex a → blockGet t.cache index = blockGet s.cache index

theorem cacheAccess_accessed {a : Word} {s t : State} (h : cacheAccess a s = .ok t) : Accessed a s t := by
  obtain ⟨hv, ht⟩ := cacheAccess_block h
  rcases cacheAccess_cases h with ⟨hhit, rfl⟩ | ⟨ws, hmiss, -, rfl⟩
  · exact ⟨fun _ => ⟨rfl, rfl, rfl⟩, fun h => absurd (hhit.symm.trans h) (by decide), hv, ht, fun _ _ => rfl⟩
  · exact ⟨fun h => absurd (hmiss.symm.trans h) (by decide), fun _ => ⟨rfl, rfl, rfl⟩, hv, ht,
      fun _ h => blockGet_blockSet_other _ _ _ _ h⟩

/-- A load with the cache enabled makes one access. -/
theorem dataRead_accessed {a w : Word} {s t : State} (he : s.cfg.cacheEnabled = true) (h : dataRead a s = .ok (w, t)) :
    Accessed a s t := by
  rw [dataRead, if_pos he] at h
  exact cacheAccess_accessed (cacheRead_cases h).1

/-- A store with the cache enabled makes one access, and the merge keeps the block's valid bit and tag. -/
theorem dataWrite_accessed {a v : Word} {width : Width} {s t : State} (he : s.cfg.cacheEnabled = true)
    (h : dataWrite a v width s = .ok t) : Accessed a s t := by
  rw [dataWrite, if_pos he] at h
  obtain ⟨u, m, hu, -, rfl⟩ := cacheWrite_cases h
  obtain ⟨hit, miss, valid, tag, others⟩ := cacheAccess_accessed hu
  exact ⟨hit, miss, by simpa [blockSetWord] using valid, by simpa [blockSetWord] using tag,
    fun index hi => (blockGet_blockSet_other _ _ _ _ hi).trans (others index hi)⟩

/-! ### With the cache enabled, in a map that meets R60, no data access overruns (60_exceptions.md R402) -/

theorem cacheAccess_ok {s : State} (hc : s.cfg.wf) (a : Word) : ∃ t, cacheAccess a s = .ok t := by
  unfold cacheAccess
  split
  · exact ⟨_, rfl⟩
  · obtain ⟨ws, h⟩ := refillWords_ok hc s.mem a
    rw [h]
    exact ⟨_, rfl⟩

theorem dataRead_ok {s : State} (hc : s.cfg.wf) (he : s.cfg.cacheEnabled = true) (a : Word) :
    ∃ r, dataRead a s = .ok r := by
  obtain ⟨u, hu⟩ := cacheAccess_ok hc a
  unfold dataRead cacheRead
  rw [if_pos he, hu]
  exact ⟨_, rfl⟩

theorem dataWrite_ok {s : State} (hc : s.cfg.wf) (he : s.cfg.cacheEnabled = true) (a v : Word) (width : Width) :
    ∃ t, dataWrite a v width s = .ok t := by
  obtain ⟨u, hu⟩ := cacheAccess_ok hc a
  have hcfg : u.cfg = s.cfg := by rw [cacheAccess_sameButMemory hu]
  unfold dataWrite cacheWrite
  rw [if_pos he, hu]
  dsimp only [bind, Except.bind]
  rw [hcfg]
  cases hr : regionOf s.cfg.regions (cacheBase a) with
  | none =>
    rw [writeBackWords_unmapped hc _ _ _ hr]
    exact ⟨_, rfl⟩
  | some g =>
    rw [writeBackWords_mapped hc _ _ _ hr]
    exact ⟨_, rfl⟩

end Sys2Proof.Machine
end

