-- ==== Sys2Proof/Laws/Encoding.lean ====
section
/-! SUPPORT. The fields of an encoded word: each format's fields stand where 30_encoding.md R100 and R101 put them. -/

namespace Sys2Proof

section
variable (rd rs rt : Reg) (sa : Shamt) (fn op : BitVec 6) (imm : Imm16) (target : Target26) (code : SysCode)

/-! ### rWord -/

@[simp] theorem opField_rWord : opField (rWord rd rs rt sa fn) = 0 := by
  apply BitVec.eq_of_getLsbD_eq
  intro i hi
  simp only [opField, rWord, BitVec.getLsbD_extractLsb', BitVec.getLsbD_append]
  interval_cases i <;> simp

@[simp] theorem rsField_rWord : rsField (rWord rd rs rt sa fn) = rs := by
  apply BitVec.eq_of_getLsbD_eq
  intro i hi
  simp only [rsField, rWord, BitVec.getLsbD_extractLsb', BitVec.getLsbD_append]
  interval_cases i <;> simp

@[simp] theorem rtField_rWord : rtField (rWord rd rs rt sa fn) = rt := by
  apply BitVec.eq_of_getLsbD_eq
  intro i hi
  simp only [rtField, rWord, BitVec.getLsbD_extractLsb', BitVec.getLsbD_append]
  interval_cases i <;> simp

@[simp] theorem rdField_rWord : rdField (rWord rd rs rt sa fn) = rd := by
  apply BitVec.eq_of_getLsbD_eq
  intro i hi
  simp only [rdField, rWord, BitVec.getLsbD_extractLsb', BitVec.getLsbD_append]
  interval_cases i <;> simp

@[simp] theorem saField_rWord : saField (rWord rd rs rt sa fn) = sa := by
  apply BitVec.eq_of_getLsbD_eq
  intro i hi
  simp only [saField, rWord, BitVec.getLsbD_extractLsb', BitVec.getLsbD_append]
  interval_cases i <;> simp

@[simp] theorem fnField_rWord : fnField (rWord rd rs rt sa fn) = fn := by
  apply BitVec.eq_of_getLsbD_eq
  intro i hi
  simp only [fnField, rWord, BitVec.getLsbD_extractLsb', BitVec.getLsbD_append]
  interval_cases i <;> simp

/-! ### iWord -/

@[simp] theorem opField_iWord : opField (iWord op rt rs imm) = op := by
  apply BitVec.eq_of_getLsbD_eq
  intro i hi
  simp only [opField, iWord, BitVec.getLsbD_extractLsb', BitVec.getLsbD_append]
  interval_cases i <;> simp

@[simp] theorem rsField_iWord : rsField (iWord op rt rs imm) = rs := by
  apply BitVec.eq_of_getLsbD_eq
  intro i hi
  simp only [rsField, iWord, BitVec.getLsbD_extractLsb', BitVec.getLsbD_append]
  interval_cases i <;> simp

@[simp] theorem rtField_iWord : rtField (iWord op rt rs imm) = rt := by
  apply BitVec.eq_of_getLsbD_eq
  intro i hi
  simp only [rtField, iWord, BitVec.getLsbD_extractLsb', BitVec.getLsbD_append]
  interval_cases i <;> simp

@[simp] theorem immField_iWord : immField (iWord op rt rs imm) = imm := by
  apply BitVec.eq_of_getLsbD_eq
  intro i hi
  simp only [immField, iWord, BitVec.getLsbD_extractLsb', BitVec.getLsbD_append]
  interval_cases i <;> simp

/-! ### jWord -/

@[simp] theorem opField_jWord : opField (jWord op target) = op := by
  apply BitVec.eq_of_getLsbD_eq
  intro i hi
  simp only [opField, jWord, BitVec.getLsbD_extractLsb', BitVec.getLsbD_append]
  interval_cases i <;> simp

@[simp] theorem targetField_jWord : targetField (jWord op target) = target := by
  apply BitVec.eq_of_getLsbD_eq
  intro i hi
  simp only [targetField, jWord, BitVec.getLsbD_extractLsb', BitVec.getLsbD_append]
  interval_cases i <;> simp

/-! ### sysWord -/

@[simp] theorem opField_sysWord : opField (sysWord code fn) = 0 := by
  apply BitVec.eq_of_getLsbD_eq
  intro i hi
  simp only [opField, sysWord, BitVec.getLsbD_extractLsb', BitVec.getLsbD_append]
  interval_cases i <;> simp

@[simp] theorem codeField_sysWord : codeField (sysWord code fn) = code := by
  apply BitVec.eq_of_getLsbD_eq
  intro i hi
  simp only [codeField, sysWord, BitVec.getLsbD_extractLsb', BitVec.getLsbD_append]
  interval_cases i <;> simp

@[simp] theorem fnField_sysWord : fnField (sysWord code fn) = fn := by
  apply BitVec.eq_of_getLsbD_eq
  intro i hi
  simp only [fnField, sysWord, BitVec.getLsbD_extractLsb', BitVec.getLsbD_append]
  interval_cases i <;> simp

end

end Sys2Proof
end

