-- ==== Sys2Proof/Laws/Registers.lean ====
section
/-! SUPPORT. The laws of a register file: a write is read back, and leaves every other register alone. Register 0 is no
exception (10_state.md R22). -/

namespace Sys2Proof.Machine

@[simp] theorem regGet_regSet_same (f : RegFile) (r : Reg) (v : Word) : regGet (regSet f r v) r = v := by
  simp [regGet, regSet]

theorem regGet_regSet_other (f : RegFile) (r q : Reg) (v : Word) (h : q ≠ r) : regGet (regSet f r v) q = regGet f q := by
  have hne : r.toNat ≠ q.toNat := fun e => h (BitVec.eq_of_toNat_eq e.symm)
  simp [regGet, regSet, Vector.getElem_set_ne _ _ hne]

theorem regGet_regSet (f : RegFile) (r q : Reg) (v : Word) : regGet (regSet f r v) q = if q = r then v else regGet f q := by
  by_cases h : q = r
  · simp [h]
  · rw [regGet_regSet_other f r q v h, if_neg h]

/-- Register files that read alike are equal. -/
theorem regFile_ext {f g : RegFile} (h : ∀ r, regGet f r = regGet g r) : f = g := by
  apply Vector.ext
  intro i hi
  have := h (BitVec.ofNat 5 i)
  simpa [regGet, Nat.mod_eq_of_lt hi] using this

end Sys2Proof.Machine
end

