-- ==== Sys2Proof/Laws/State.lean ====
section
/-! SUPPORT. One lemma per field of each update of the state, true by rfl, so that no later proof unfolds a record update. -/

namespace Sys2Proof.Machine

variable (s : State)

/-! ### writeReg -/

@[simp] theorem writeReg_cfg (r : Reg) (v : Word) : (writeReg r v s).cfg = s.cfg := rfl
@[simp] theorem writeReg_cur (r : Reg) (v : Word) : (writeReg r v s).cur = s.cur := rfl
@[simp] theorem writeReg_nxt (r : Reg) (v : Word) : (writeReg r v s).nxt = { s.nxt with regs := regSet s.nxt.regs r v } := rfl
@[simp] theorem writeReg_ifid (r : Reg) (v : Word) : (writeReg r v s).ifid = s.ifid := rfl
@[simp] theorem writeReg_idex (r : Reg) (v : Word) : (writeReg r v s).idex = s.idex := rfl
@[simp] theorem writeReg_exmem (r : Reg) (v : Word) : (writeReg r v s).exmem = s.exmem := rfl
@[simp] theorem writeReg_memwb (r : Reg) (v : Word) : (writeReg r v s).memwb = s.memwb := rfl
@[simp] theorem writeReg_selA (r : Reg) (v : Word) : (writeReg r v s).selA = s.selA := rfl
@[simp] theorem writeReg_selB (r : Reg) (v : Word) : (writeReg r v s).selB = s.selB := rfl
@[simp] theorem writeReg_stallCount (r : Reg) (v : Word) : (writeReg r v s).stallCount = s.stallCount := rfl
@[simp] theorem writeReg_exDest (r : Reg) (v : Word) : (writeReg r v s).exDest = s.exDest := rfl
@[simp] theorem writeReg_exWe (r : Reg) (v : Word) : (writeReg r v s).exWe = s.exWe := rfl
@[simp] theorem writeReg_exLoad (r : Reg) (v : Word) : (writeReg r v s).exLoad = s.exLoad := rfl
@[simp] theorem writeReg_memDest (r : Reg) (v : Word) : (writeReg r v s).memDest = s.memDest := rfl
@[simp] theorem writeReg_memWe (r : Reg) (v : Word) : (writeReg r v s).memWe = s.memWe := rfl
@[simp] theorem writeReg_branchFlag (r : Reg) (v : Word) : (writeReg r v s).branchFlag = s.branchFlag := rfl
@[simp] theorem writeReg_forwardingEnabled (r : Reg) (v : Word) : (writeReg r v s).forwardingEnabled = s.forwardingEnabled := rfl
@[simp] theorem writeReg_diagLog (r : Reg) (v : Word) : (writeReg r v s).diagLog = s.diagLog := rfl
@[simp] theorem writeReg_runFlag (r : Reg) (v : Word) : (writeReg r v s).runFlag = s.runFlag := rfl
@[simp] theorem writeReg_cycleCount (r : Reg) (v : Word) : (writeReg r v s).cycleCount = s.cycleCount := rfl
@[simp] theorem writeReg_instructionCount (r : Reg) (v : Word) : (writeReg r v s).instructionCount = s.instructionCount := rfl
@[simp] theorem writeReg_cache (r : Reg) (v : Word) : (writeReg r v s).cache = s.cache := rfl
@[simp] theorem writeReg_hitEvents (r : Reg) (v : Word) : (writeReg r v s).hitEvents = s.hitEvents := rfl
@[simp] theorem writeReg_missEvents (r : Reg) (v : Word) : (writeReg r v s).missEvents = s.missEvents := rfl
@[simp] theorem writeReg_missFlag (r : Reg) (v : Word) : (writeReg r v s).missFlag = s.missFlag := rfl
@[simp] theorem writeReg_penaltyRemaining (r : Reg) (v : Word) : (writeReg r v s).penaltyRemaining = s.penaltyRemaining := rfl
@[simp] theorem writeReg_mem (r : Reg) (v : Word) : (writeReg r v s).mem = s.mem := rfl
@[simp] theorem writeReg_stage (r : Reg) (v : Word) : (writeReg r v s).stage = s.stage := rfl
@[simp] theorem writeReg_drawCount (r : Reg) (v : Word) : (writeReg r v s).drawCount = s.drawCount := rfl

/-! ### writeHi -/

@[simp] theorem writeHi_cfg (v : Word) : (writeHi v s).cfg = s.cfg := rfl
@[simp] theorem writeHi_cur (v : Word) : (writeHi v s).cur = s.cur := rfl
@[simp] theorem writeHi_nxt (v : Word) : (writeHi v s).nxt = { s.nxt with hi := v } := rfl
@[simp] theorem writeHi_ifid (v : Word) : (writeHi v s).ifid = s.ifid := rfl
@[simp] theorem writeHi_idex (v : Word) : (writeHi v s).idex = s.idex := rfl
@[simp] theorem writeHi_exmem (v : Word) : (writeHi v s).exmem = s.exmem := rfl
@[simp] theorem writeHi_memwb (v : Word) : (writeHi v s).memwb = s.memwb := rfl
@[simp] theorem writeHi_selA (v : Word) : (writeHi v s).selA = s.selA := rfl
@[simp] theorem writeHi_selB (v : Word) : (writeHi v s).selB = s.selB := rfl
@[simp] theorem writeHi_stallCount (v : Word) : (writeHi v s).stallCount = s.stallCount := rfl
@[simp] theorem writeHi_exDest (v : Word) : (writeHi v s).exDest = s.exDest := rfl
@[simp] theorem writeHi_exWe (v : Word) : (writeHi v s).exWe = s.exWe := rfl
@[simp] theorem writeHi_exLoad (v : Word) : (writeHi v s).exLoad = s.exLoad := rfl
@[simp] theorem writeHi_memDest (v : Word) : (writeHi v s).memDest = s.memDest := rfl
@[simp] theorem writeHi_memWe (v : Word) : (writeHi v s).memWe = s.memWe := rfl
@[simp] theorem writeHi_branchFlag (v : Word) : (writeHi v s).branchFlag = s.branchFlag := rfl
@[simp] theorem writeHi_forwardingEnabled (v : Word) : (writeHi v s).forwardingEnabled = s.forwardingEnabled := rfl
@[simp] theorem writeHi_diagLog (v : Word) : (writeHi v s).diagLog = s.diagLog := rfl
@[simp] theorem writeHi_runFlag (v : Word) : (writeHi v s).runFlag = s.runFlag := rfl
@[simp] theorem writeHi_cycleCount (v : Word) : (writeHi v s).cycleCount = s.cycleCount := rfl
@[simp] theorem writeHi_instructionCount (v : Word) : (writeHi v s).instructionCount = s.instructionCount := rfl
@[simp] theorem writeHi_cache (v : Word) : (writeHi v s).cache = s.cache := rfl
@[simp] theorem writeHi_hitEvents (v : Word) : (writeHi v s).hitEvents = s.hitEvents := rfl
@[simp] theorem writeHi_missEvents (v : Word) : (writeHi v s).missEvents = s.missEvents := rfl
@[simp] theorem writeHi_missFlag (v : Word) : (writeHi v s).missFlag = s.missFlag := rfl
@[simp] theorem writeHi_penaltyRemaining (v : Word) : (writeHi v s).penaltyRemaining = s.penaltyRemaining := rfl
@[simp] theorem writeHi_mem (v : Word) : (writeHi v s).mem = s.mem := rfl
@[simp] theorem writeHi_stage (v : Word) : (writeHi v s).stage = s.stage := rfl
@[simp] theorem writeHi_drawCount (v : Word) : (writeHi v s).drawCount = s.drawCount := rfl

/-! ### writeLo -/

@[simp] theorem writeLo_cfg (v : Word) : (writeLo v s).cfg = s.cfg := rfl
@[simp] theorem writeLo_cur (v : Word) : (writeLo v s).cur = s.cur := rfl
@[simp] theorem writeLo_nxt (v : Word) : (writeLo v s).nxt = { s.nxt with lo := v } := rfl
@[simp] theorem writeLo_ifid (v : Word) : (writeLo v s).ifid = s.ifid := rfl
@[simp] theorem writeLo_idex (v : Word) : (writeLo v s).idex = s.idex := rfl
@[simp] theorem writeLo_exmem (v : Word) : (writeLo v s).exmem = s.exmem := rfl
@[simp] theorem writeLo_memwb (v : Word) : (writeLo v s).memwb = s.memwb := rfl
@[simp] theorem writeLo_selA (v : Word) : (writeLo v s).selA = s.selA := rfl
@[simp] theorem writeLo_selB (v : Word) : (writeLo v s).selB = s.selB := rfl
@[simp] theorem writeLo_stallCount (v : Word) : (writeLo v s).stallCount = s.stallCount := rfl
@[simp] theorem writeLo_exDest (v : Word) : (writeLo v s).exDest = s.exDest := rfl
@[simp] theorem writeLo_exWe (v : Word) : (writeLo v s).exWe = s.exWe := rfl
@[simp] theorem writeLo_exLoad (v : Word) : (writeLo v s).exLoad = s.exLoad := rfl
@[simp] theorem writeLo_memDest (v : Word) : (writeLo v s).memDest = s.memDest := rfl
@[simp] theorem writeLo_memWe (v : Word) : (writeLo v s).memWe = s.memWe := rfl
@[simp] theorem writeLo_branchFlag (v : Word) : (writeLo v s).branchFlag = s.branchFlag := rfl
@[simp] theorem writeLo_forwardingEnabled (v : Word) : (writeLo v s).forwardingEnabled = s.forwardingEnabled := rfl
@[simp] theorem writeLo_diagLog (v : Word) : (writeLo v s).diagLog = s.diagLog := rfl
@[simp] theorem writeLo_runFlag (v : Word) : (writeLo v s).runFlag = s.runFlag := rfl
@[simp] theorem writeLo_cycleCount (v : Word) : (writeLo v s).cycleCount = s.cycleCount := rfl
@[simp] theorem writeLo_instructionCount (v : Word) : (writeLo v s).instructionCount = s.instructionCount := rfl
@[simp] theorem writeLo_cache (v : Word) : (writeLo v s).cache = s.cache := rfl
@[simp] theorem writeLo_hitEvents (v : Word) : (writeLo v s).hitEvents = s.hitEvents := rfl
@[simp] theorem writeLo_missEvents (v : Word) : (writeLo v s).missEvents = s.missEvents := rfl
@[simp] theorem writeLo_missFlag (v : Word) : (writeLo v s).missFlag = s.missFlag := rfl
@[simp] theorem writeLo_penaltyRemaining (v : Word) : (writeLo v s).penaltyRemaining = s.penaltyRemaining := rfl
@[simp] theorem writeLo_mem (v : Word) : (writeLo v s).mem = s.mem := rfl
@[simp] theorem writeLo_stage (v : Word) : (writeLo v s).stage = s.stage := rfl
@[simp] theorem writeLo_drawCount (v : Word) : (writeLo v s).drawCount = s.drawCount := rfl

/-! ### redirect -/

@[simp] theorem redirect_cfg (a : Word) : (redirect a s).cfg = s.cfg := rfl
@[simp] theorem redirect_cur (a : Word) : (redirect a s).cur = { s.cur with pc := a } := rfl
@[simp] theorem redirect_nxt (a : Word) : (redirect a s).nxt = s.nxt := rfl
@[simp] theorem redirect_ifid (a : Word) : (redirect a s).ifid = s.ifid := rfl
@[simp] theorem redirect_idex (a : Word) : (redirect a s).idex = s.idex := rfl
@[simp] theorem redirect_exmem (a : Word) : (redirect a s).exmem = s.exmem := rfl
@[simp] theorem redirect_memwb (a : Word) : (redirect a s).memwb = s.memwb := rfl
@[simp] theorem redirect_selA (a : Word) : (redirect a s).selA = s.selA := rfl
@[simp] theorem redirect_selB (a : Word) : (redirect a s).selB = s.selB := rfl
@[simp] theorem redirect_stallCount (a : Word) : (redirect a s).stallCount = s.stallCount := rfl
@[simp] theorem redirect_exDest (a : Word) : (redirect a s).exDest = s.exDest := rfl
@[simp] theorem redirect_exWe (a : Word) : (redirect a s).exWe = s.exWe := rfl
@[simp] theorem redirect_exLoad (a : Word) : (redirect a s).exLoad = s.exLoad := rfl
@[simp] theorem redirect_memDest (a : Word) : (redirect a s).memDest = s.memDest := rfl
@[simp] theorem redirect_memWe (a : Word) : (redirect a s).memWe = s.memWe := rfl
@[simp] theorem redirect_branchFlag (a : Word) : (redirect a s).branchFlag = true := rfl
@[simp] theorem redirect_forwardingEnabled (a : Word) : (redirect a s).forwardingEnabled = s.forwardingEnabled := rfl
@[simp] theorem redirect_diagLog (a : Word) : (redirect a s).diagLog = s.diagLog := rfl
@[simp] theorem redirect_runFlag (a : Word) : (redirect a s).runFlag = s.runFlag := rfl
@[simp] theorem redirect_cycleCount (a : Word) : (redirect a s).cycleCount = s.cycleCount := rfl
@[simp] theorem redirect_instructionCount (a : Word) : (redirect a s).instructionCount = s.instructionCount := rfl
@[simp] theorem redirect_cache (a : Word) : (redirect a s).cache = s.cache := rfl
@[simp] theorem redirect_hitEvents (a : Word) : (redirect a s).hitEvents = s.hitEvents := rfl
@[simp] theorem redirect_missEvents (a : Word) : (redirect a s).missEvents = s.missEvents := rfl
@[simp] theorem redirect_missFlag (a : Word) : (redirect a s).missFlag = s.missFlag := rfl
@[simp] theorem redirect_penaltyRemaining (a : Word) : (redirect a s).penaltyRemaining = s.penaltyRemaining := rfl
@[simp] theorem redirect_mem (a : Word) : (redirect a s).mem = s.mem := rfl
@[simp] theorem redirect_stage (a : Word) : (redirect a s).stage = s.stage := rfl
@[simp] theorem redirect_drawCount (a : Word) : (redirect a s).drawCount = s.drawCount := rfl

/-! ### diagnose -/

@[simp] theorem diagnose_cfg (pc ir : Word) : (diagnose pc ir s).cfg = s.cfg := rfl
@[simp] theorem diagnose_cur (pc ir : Word) : (diagnose pc ir s).cur = s.cur := rfl
@[simp] theorem diagnose_nxt (pc ir : Word) : (diagnose pc ir s).nxt = s.nxt := rfl
@[simp] theorem diagnose_ifid (pc ir : Word) : (diagnose pc ir s).ifid = s.ifid := rfl
@[simp] theorem diagnose_idex (pc ir : Word) : (diagnose pc ir s).idex = s.idex := rfl
@[simp] theorem diagnose_exmem (pc ir : Word) : (diagnose pc ir s).exmem = s.exmem := rfl
@[simp] theorem diagnose_memwb (pc ir : Word) : (diagnose pc ir s).memwb = s.memwb := rfl
@[simp] theorem diagnose_selA (pc ir : Word) : (diagnose pc ir s).selA = s.selA := rfl
@[simp] theorem diagnose_selB (pc ir : Word) : (diagnose pc ir s).selB = s.selB := rfl
@[simp] theorem diagnose_stallCount (pc ir : Word) : (diagnose pc ir s).stallCount = s.stallCount := rfl
@[simp] theorem diagnose_exDest (pc ir : Word) : (diagnose pc ir s).exDest = s.exDest := rfl
@[simp] theorem diagnose_exWe (pc ir : Word) : (diagnose pc ir s).exWe = s.exWe := rfl
@[simp] theorem diagnose_exLoad (pc ir : Word) : (diagnose pc ir s).exLoad = s.exLoad := rfl
@[simp] theorem diagnose_memDest (pc ir : Word) : (diagnose pc ir s).memDest = s.memDest := rfl
@[simp] theorem diagnose_memWe (pc ir : Word) : (diagnose pc ir s).memWe = s.memWe := rfl
@[simp] theorem diagnose_branchFlag (pc ir : Word) : (diagnose pc ir s).branchFlag = s.branchFlag := rfl
@[simp] theorem diagnose_forwardingEnabled (pc ir : Word) : (diagnose pc ir s).forwardingEnabled = s.forwardingEnabled := rfl
@[simp] theorem diagnose_diagLog (pc ir : Word) : (diagnose pc ir s).diagLog = s.diagLog ++ [⟨pc, ir⟩] := rfl
@[simp] theorem diagnose_runFlag (pc ir : Word) : (diagnose pc ir s).runFlag = s.runFlag := rfl
@[simp] theorem diagnose_cycleCount (pc ir : Word) : (diagnose pc ir s).cycleCount = s.cycleCount := rfl
@[simp] theorem diagnose_instructionCount (pc ir : Word) : (diagnose pc ir s).instructionCount = s.instructionCount := rfl
@[simp] theorem diagnose_cache (pc ir : Word) : (diagnose pc ir s).cache = s.cache := rfl
@[simp] theorem diagnose_hitEvents (pc ir : Word) : (diagnose pc ir s).hitEvents = s.hitEvents := rfl
@[simp] theorem diagnose_missEvents (pc ir : Word) : (diagnose pc ir s).missEvents = s.missEvents := rfl
@[simp] theorem diagnose_missFlag (pc ir : Word) : (diagnose pc ir s).missFlag = s.missFlag := rfl
@[simp] theorem diagnose_penaltyRemaining (pc ir : Word) : (diagnose pc ir s).penaltyRemaining = s.penaltyRemaining := rfl
@[simp] theorem diagnose_mem (pc ir : Word) : (diagnose pc ir s).mem = s.mem := rfl
@[simp] theorem diagnose_stage (pc ir : Word) : (diagnose pc ir s).stage = s.stage := rfl
@[simp] theorem diagnose_drawCount (pc ir : Word) : (diagnose pc ir s).drawCount = s.drawCount := rfl

/-! ### bubbleEx -/

@[simp] theorem bubbleEx_cfg : (bubbleEx s).cfg = s.cfg := rfl
@[simp] theorem bubbleEx_cur : (bubbleEx s).cur = s.cur := rfl
@[simp] theorem bubbleEx_nxt : (bubbleEx s).nxt = s.nxt := rfl
@[simp] theorem bubbleEx_ifid : (bubbleEx s).ifid = s.ifid := rfl
@[simp] theorem bubbleEx_idex : (bubbleEx s).idex = s.idex := rfl
@[simp] theorem bubbleEx_exmem : (bubbleEx s).exmem = PipeReg.bubble := rfl
@[simp] theorem bubbleEx_memwb : (bubbleEx s).memwb = s.memwb := rfl
@[simp] theorem bubbleEx_selA : (bubbleEx s).selA = .none := rfl
@[simp] theorem bubbleEx_selB : (bubbleEx s).selB = .none := rfl
@[simp] theorem bubbleEx_stallCount : (bubbleEx s).stallCount = s.stallCount := rfl
@[simp] theorem bubbleEx_exDest : (bubbleEx s).exDest = 0 := rfl
@[simp] theorem bubbleEx_exWe : (bubbleEx s).exWe = false := rfl
@[simp] theorem bubbleEx_exLoad : (bubbleEx s).exLoad = false := rfl
@[simp] theorem bubbleEx_memDest : (bubbleEx s).memDest = s.memDest := rfl
@[simp] theorem bubbleEx_memWe : (bubbleEx s).memWe = s.memWe := rfl
@[simp] theorem bubbleEx_branchFlag : (bubbleEx s).branchFlag = s.branchFlag := rfl
@[simp] theorem bubbleEx_forwardingEnabled : (bubbleEx s).forwardingEnabled = s.forwardingEnabled := rfl
@[simp] theorem bubbleEx_diagLog : (bubbleEx s).diagLog = s.diagLog := rfl
@[simp] theorem bubbleEx_runFlag : (bubbleEx s).runFlag = s.runFlag := rfl
@[simp] theorem bubbleEx_cycleCount : (bubbleEx s).cycleCount = s.cycleCount := rfl
@[simp] theorem bubbleEx_instructionCount : (bubbleEx s).instructionCount = s.instructionCount := rfl
@[simp] theorem bubbleEx_cache : (bubbleEx s).cache = s.cache := rfl
@[simp] theorem bubbleEx_hitEvents : (bubbleEx s).hitEvents = s.hitEvents := rfl
@[simp] theorem bubbleEx_missEvents : (bubbleEx s).missEvents = s.missEvents := rfl
@[simp] theorem bubbleEx_missFlag : (bubbleEx s).missFlag = s.missFlag := rfl
@[simp] theorem bubbleEx_penaltyRemaining : (bubbleEx s).penaltyRemaining = s.penaltyRemaining := rfl
@[simp] theorem bubbleEx_mem : (bubbleEx s).mem = s.mem := rfl
@[simp] theorem bubbleEx_stage : (bubbleEx s).stage = s.stage := rfl
@[simp] theorem bubbleEx_drawCount : (bubbleEx s).drawCount = s.drawCount := rfl

/-! ### memLatch -/

@[simp] theorem memLatch_cfg (c : Traits) : (memLatch c s).cfg = s.cfg := rfl
@[simp] theorem memLatch_cur (c : Traits) : (memLatch c s).cur = s.cur := rfl
@[simp] theorem memLatch_nxt (c : Traits) : (memLatch c s).nxt = s.nxt := rfl
@[simp] theorem memLatch_ifid (c : Traits) : (memLatch c s).ifid = s.ifid := rfl
@[simp] theorem memLatch_idex (c : Traits) : (memLatch c s).idex = s.idex := rfl
@[simp] theorem memLatch_exmem (c : Traits) : (memLatch c s).exmem = s.exmem := rfl
@[simp] theorem memLatch_memwb (c : Traits) : (memLatch c s).memwb = { s.exmem with lmd := 0 } := rfl
@[simp] theorem memLatch_selA (c : Traits) : (memLatch c s).selA = s.selA := rfl
@[simp] theorem memLatch_selB (c : Traits) : (memLatch c s).selB = s.selB := rfl
@[simp] theorem memLatch_stallCount (c : Traits) : (memLatch c s).stallCount = s.stallCount := rfl
@[simp] theorem memLatch_exDest (c : Traits) : (memLatch c s).exDest = s.exDest := rfl
@[simp] theorem memLatch_exWe (c : Traits) : (memLatch c s).exWe = s.exWe := rfl
@[simp] theorem memLatch_exLoad (c : Traits) : (memLatch c s).exLoad = s.exLoad := rfl
@[simp] theorem memLatch_memDest (c : Traits) : (memLatch c s).memDest = c.dest := rfl
@[simp] theorem memLatch_memWe (c : Traits) : (memLatch c s).memWe = c.we := rfl
@[simp] theorem memLatch_branchFlag (c : Traits) : (memLatch c s).branchFlag = s.branchFlag := rfl
@[simp] theorem memLatch_forwardingEnabled (c : Traits) : (memLatch c s).forwardingEnabled = s.forwardingEnabled := rfl
@[simp] theorem memLatch_diagLog (c : Traits) : (memLatch c s).diagLog = s.diagLog := rfl
@[simp] theorem memLatch_runFlag (c : Traits) : (memLatch c s).runFlag = s.runFlag := rfl
@[simp] theorem memLatch_cycleCount (c : Traits) : (memLatch c s).cycleCount = s.cycleCount := rfl
@[simp] theorem memLatch_instructionCount (c : Traits) : (memLatch c s).instructionCount = s.instructionCount := rfl
@[simp] theorem memLatch_cache (c : Traits) : (memLatch c s).cache = s.cache := rfl
@[simp] theorem memLatch_hitEvents (c : Traits) : (memLatch c s).hitEvents = s.hitEvents := rfl
@[simp] theorem memLatch_missEvents (c : Traits) : (memLatch c s).missEvents = s.missEvents := rfl
@[simp] theorem memLatch_missFlag (c : Traits) : (memLatch c s).missFlag = s.missFlag := rfl
@[simp] theorem memLatch_penaltyRemaining (c : Traits) : (memLatch c s).penaltyRemaining = s.penaltyRemaining := rfl
@[simp] theorem memLatch_mem (c : Traits) : (memLatch c s).mem = s.mem := rfl
@[simp] theorem memLatch_stage (c : Traits) : (memLatch c s).stage = s.stage := rfl
@[simp] theorem memLatch_drawCount (c : Traits) : (memLatch c s).drawCount = s.drawCount := rfl

/-! ### bubbleMem -/

@[simp] theorem bubbleMem_cfg : (bubbleMem s).cfg = s.cfg := rfl
@[simp] theorem bubbleMem_cur : (bubbleMem s).cur = s.cur := rfl
@[simp] theorem bubbleMem_nxt : (bubbleMem s).nxt = s.nxt := rfl
@[simp] theorem bubbleMem_ifid : (bubbleMem s).ifid = s.ifid := rfl
@[simp] theorem bubbleMem_idex : (bubbleMem s).idex = s.idex := rfl
@[simp] theorem bubbleMem_exmem : (bubbleMem s).exmem = s.exmem := rfl
@[simp] theorem bubbleMem_memwb : (bubbleMem s).memwb = PipeReg.bubble := rfl
@[simp] theorem bubbleMem_selA : (bubbleMem s).selA = s.selA := rfl
@[simp] theorem bubbleMem_selB : (bubbleMem s).selB = s.selB := rfl
@[simp] theorem bubbleMem_stallCount : (bubbleMem s).stallCount = s.stallCount := rfl
@[simp] theorem bubbleMem_exDest : (bubbleMem s).exDest = s.exDest := rfl
@[simp] theorem bubbleMem_exWe : (bubbleMem s).exWe = s.exWe := rfl
@[simp] theorem bubbleMem_exLoad : (bubbleMem s).exLoad = s.exLoad := rfl
@[simp] theorem bubbleMem_memDest : (bubbleMem s).memDest = 0 := rfl
@[simp] theorem bubbleMem_memWe : (bubbleMem s).memWe = false := rfl
@[simp] theorem bubbleMem_branchFlag : (bubbleMem s).branchFlag = s.branchFlag := rfl
@[simp] theorem bubbleMem_forwardingEnabled : (bubbleMem s).forwardingEnabled = s.forwardingEnabled := rfl
@[simp] theorem bubbleMem_diagLog : (bubbleMem s).diagLog = s.diagLog := rfl
@[simp] theorem bubbleMem_runFlag : (bubbleMem s).runFlag = s.runFlag := rfl
@[simp] theorem bubbleMem_cycleCount : (bubbleMem s).cycleCount = s.cycleCount := rfl
@[simp] theorem bubbleMem_instructionCount : (bubbleMem s).instructionCount = s.instructionCount := rfl
@[simp] theorem bubbleMem_cache : (bubbleMem s).cache = s.cache := rfl
@[simp] theorem bubbleMem_hitEvents : (bubbleMem s).hitEvents = s.hitEvents := rfl
@[simp] theorem bubbleMem_missEvents : (bubbleMem s).missEvents = s.missEvents := rfl
@[simp] theorem bubbleMem_missFlag : (bubbleMem s).missFlag = s.missFlag := rfl
@[simp] theorem bubbleMem_penaltyRemaining : (bubbleMem s).penaltyRemaining = s.penaltyRemaining := rfl
@[simp] theorem bubbleMem_mem : (bubbleMem s).mem = s.mem := rfl
@[simp] theorem bubbleMem_stage : (bubbleMem s).stage = s.stage := rfl
@[simp] theorem bubbleMem_drawCount : (bubbleMem s).drawCount = s.drawCount := rfl

/-! ### idBubble -/

@[simp] theorem idBubble_cfg : (idBubble s).cfg = s.cfg := rfl
@[simp] theorem idBubble_cur : (idBubble s).cur = s.cur := rfl
@[simp] theorem idBubble_nxt : (idBubble s).nxt = s.nxt := rfl
@[simp] theorem idBubble_ifid : (idBubble s).ifid = s.ifid := rfl
@[simp] theorem idBubble_idex : (idBubble s).idex = PipeReg.bubble := rfl
@[simp] theorem idBubble_exmem : (idBubble s).exmem = s.exmem := rfl
@[simp] theorem idBubble_memwb : (idBubble s).memwb = s.memwb := rfl
@[simp] theorem idBubble_selA : (idBubble s).selA = .none := rfl
@[simp] theorem idBubble_selB : (idBubble s).selB = .none := rfl
@[simp] theorem idBubble_stallCount : (idBubble s).stallCount = s.stallCount := rfl
@[simp] theorem idBubble_exDest : (idBubble s).exDest = s.exDest := rfl
@[simp] theorem idBubble_exWe : (idBubble s).exWe = s.exWe := rfl
@[simp] theorem idBubble_exLoad : (idBubble s).exLoad = s.exLoad := rfl
@[simp] theorem idBubble_memDest : (idBubble s).memDest = s.memDest := rfl
@[simp] theorem idBubble_memWe : (idBubble s).memWe = s.memWe := rfl
@[simp] theorem idBubble_branchFlag : (idBubble s).branchFlag = s.branchFlag := rfl
@[simp] theorem idBubble_forwardingEnabled : (idBubble s).forwardingEnabled = s.forwardingEnabled := rfl
@[simp] theorem idBubble_diagLog : (idBubble s).diagLog = s.diagLog := rfl
@[simp] theorem idBubble_runFlag : (idBubble s).runFlag = s.runFlag := rfl
@[simp] theorem idBubble_cycleCount : (idBubble s).cycleCount = s.cycleCount := rfl
@[simp] theorem idBubble_instructionCount : (idBubble s).instructionCount = s.instructionCount := rfl
@[simp] theorem idBubble_cache : (idBubble s).cache = s.cache := rfl
@[simp] theorem idBubble_hitEvents : (idBubble s).hitEvents = s.hitEvents := rfl
@[simp] theorem idBubble_missEvents : (idBubble s).missEvents = s.missEvents := rfl
@[simp] theorem idBubble_missFlag : (idBubble s).missFlag = s.missFlag := rfl
@[simp] theorem idBubble_penaltyRemaining : (idBubble s).penaltyRemaining = s.penaltyRemaining := rfl
@[simp] theorem idBubble_mem : (idBubble s).mem = s.mem := rfl
@[simp] theorem idBubble_stage : (idBubble s).stage = s.stage := rfl
@[simp] theorem idBubble_drawCount : (idBubble s).drawCount = s.drawCount := rfl

/-! ### commit -/

@[simp] theorem commit_cfg : (commit s).cfg = s.cfg := rfl
@[simp] theorem commit_cur : (commit s).cur = s.nxt := rfl
@[simp] theorem commit_nxt : (commit s).nxt = s.nxt := rfl
@[simp] theorem commit_ifid : (commit s).ifid = s.ifid := rfl
@[simp] theorem commit_idex : (commit s).idex = s.idex := rfl
@[simp] theorem commit_exmem : (commit s).exmem = s.exmem := rfl
@[simp] theorem commit_memwb : (commit s).memwb = s.memwb := rfl
@[simp] theorem commit_selA : (commit s).selA = s.selA := rfl
@[simp] theorem commit_selB : (commit s).selB = s.selB := rfl
@[simp] theorem commit_stallCount : (commit s).stallCount = s.stallCount := rfl
@[simp] theorem commit_exDest : (commit s).exDest = s.exDest := rfl
@[simp] theorem commit_exWe : (commit s).exWe = s.exWe := rfl
@[simp] theorem commit_exLoad : (commit s).exLoad = s.exLoad := rfl
@[simp] theorem commit_memDest : (commit s).memDest = s.memDest := rfl
@[simp] theorem commit_memWe : (commit s).memWe = s.memWe := rfl
@[simp] theorem commit_branchFlag : (commit s).branchFlag = s.branchFlag := rfl
@[simp] theorem commit_forwardingEnabled : (commit s).forwardingEnabled = s.forwardingEnabled := rfl
@[simp] theorem commit_diagLog : (commit s).diagLog = s.diagLog := rfl
@[simp] theorem commit_runFlag : (commit s).runFlag = s.runFlag := rfl
@[simp] theorem commit_cycleCount : (commit s).cycleCount = s.cycleCount + 1 := rfl
@[simp] theorem commit_instructionCount : (commit s).instructionCount = s.instructionCount := rfl
@[simp] theorem commit_cache : (commit s).cache = s.cache := rfl
@[simp] theorem commit_hitEvents : (commit s).hitEvents = s.hitEvents := rfl
@[simp] theorem commit_missEvents : (commit s).missEvents = s.missEvents := rfl
@[simp] theorem commit_missFlag : (commit s).missFlag = s.missFlag := rfl
@[simp] theorem commit_penaltyRemaining : (commit s).penaltyRemaining = s.penaltyRemaining := rfl
@[simp] theorem commit_mem : (commit s).mem = s.mem := rfl
@[simp] theorem commit_stage : (commit s).stage = s.stage := rfl
@[simp] theorem commit_drawCount : (commit s).drawCount = s.drawCount := rfl

/-! ### atStage -/

@[simp] theorem atStage_cfg (g : Stage) : (atStage g s).cfg = s.cfg := rfl
@[simp] theorem atStage_cur (g : Stage) : (atStage g s).cur = s.cur := rfl
@[simp] theorem atStage_nxt (g : Stage) : (atStage g s).nxt = s.nxt := rfl
@[simp] theorem atStage_ifid (g : Stage) : (atStage g s).ifid = s.ifid := rfl
@[simp] theorem atStage_idex (g : Stage) : (atStage g s).idex = s.idex := rfl
@[simp] theorem atStage_exmem (g : Stage) : (atStage g s).exmem = s.exmem := rfl
@[simp] theorem atStage_memwb (g : Stage) : (atStage g s).memwb = s.memwb := rfl
@[simp] theorem atStage_selA (g : Stage) : (atStage g s).selA = s.selA := rfl
@[simp] theorem atStage_selB (g : Stage) : (atStage g s).selB = s.selB := rfl
@[simp] theorem atStage_stallCount (g : Stage) : (atStage g s).stallCount = s.stallCount := rfl
@[simp] theorem atStage_exDest (g : Stage) : (atStage g s).exDest = s.exDest := rfl
@[simp] theorem atStage_exWe (g : Stage) : (atStage g s).exWe = s.exWe := rfl
@[simp] theorem atStage_exLoad (g : Stage) : (atStage g s).exLoad = s.exLoad := rfl
@[simp] theorem atStage_memDest (g : Stage) : (atStage g s).memDest = s.memDest := rfl
@[simp] theorem atStage_memWe (g : Stage) : (atStage g s).memWe = s.memWe := rfl
@[simp] theorem atStage_branchFlag (g : Stage) : (atStage g s).branchFlag = s.branchFlag := rfl
@[simp] theorem atStage_forwardingEnabled (g : Stage) : (atStage g s).forwardingEnabled = s.forwardingEnabled := rfl
@[simp] theorem atStage_diagLog (g : Stage) : (atStage g s).diagLog = s.diagLog := rfl
@[simp] theorem atStage_runFlag (g : Stage) : (atStage g s).runFlag = s.runFlag := rfl
@[simp] theorem atStage_cycleCount (g : Stage) : (atStage g s).cycleCount = s.cycleCount := rfl
@[simp] theorem atStage_instructionCount (g : Stage) : (atStage g s).instructionCount = s.instructionCount := rfl
@[simp] theorem atStage_cache (g : Stage) : (atStage g s).cache = s.cache := rfl
@[simp] theorem atStage_hitEvents (g : Stage) : (atStage g s).hitEvents = s.hitEvents := rfl
@[simp] theorem atStage_missEvents (g : Stage) : (atStage g s).missEvents = s.missEvents := rfl
@[simp] theorem atStage_missFlag (g : Stage) : (atStage g s).missFlag = s.missFlag := rfl
@[simp] theorem atStage_penaltyRemaining (g : Stage) : (atStage g s).penaltyRemaining = s.penaltyRemaining := rfl
@[simp] theorem atStage_mem (g : Stage) : (atStage g s).mem = s.mem := rfl
@[simp] theorem atStage_stage (g : Stage) : (atStage g s).stage = g := rfl
@[simp] theorem atStage_drawCount (g : Stage) : (atStage g s).drawCount = s.drawCount := rfl

end Sys2Proof.Machine
end

