-- ==== Sys2Proof/Laws/Ops.lean ====
section
/-! SUPPORT. What the shared operations of the stages can do, said once: the frames of EX, MEM and WB, and the shape that every
meaning has. -/

namespace Sys2Proof.Machine

/-! ### Outcomes -/

@[simp] theorem andThen_next (s : State) (f : State → Res) : andThen (.next s) f = f s := rfl
@[simp] theorem andThen_fault (r : Fault) (f : State → Res) : andThen (.fault r) f = .fault r := rfl
@[simp] theorem andThen_refused (r : Refusal) (f : State → Res) : andThen (.refused r) f = .refused r := rfl
@[simp] theorem ofExcept_ok (s : State) : ofExcept (.ok s) = .next s := rfl
@[simp] theorem ofExcept_error (f : Fault) : ofExcept (.error f) = .fault f := rfl

/-- A sequence answers a state only if both parts do. -/
theorem andThen_next_iff {o : Res} {f : State → Res} {t : State} :
    andThen o f = .next t ↔ ∃ u, o = .next u ∧ f u = .next t := by
  cases o with
  | next u => simp
  | fault r => simp
  | refused r => simp

theorem ofExcept_next_iff {e : Except Fault State} {t : State} : ofExcept e = .next t ↔ e = .ok t := by
  cases e with
  | ok s => simp
  | error f => simp

/-! ### An instruction's work, stage by stage -/

section
variable {c : Traits} {rs rt : Reg} {f : ExIn → ExOut} {m : MemStep} {b : WbStep} {s : State}

theorem perform_ex (h : s.stage = .ex) : perform c rs rt f m b s = .next (performEx c rs rt f s) := by simp [perform, h]
theorem perform_mem (h : s.stage = .mem) : perform c rs rt f m b s = ofExcept (performMem c m s) := by simp [perform, h]
theorem perform_wb (h : s.stage = .wb) : perform c rs rt f m b s = .next (performWb c b s) := by simp [perform, h]

end

/-- Every meaning is the frames applied to some register fields and steps: what one stage does is said once, in `performEx`,
`performMem` and `performWb`. -/
theorem exec_performs (i : Instr) :
    ∃ rs rt f m b, ∀ s, exec i s = perform (traitsOf i) rs rt f m b s := by
  cases i <;> exact ⟨_, _, _, _, _, fun _ => rfl⟩

/-- Every load writes a register (30_encoding.md R116). -/
theorem isLoad_we (w : Word) (h : (traitsOfWord w).isLoad = true) : (traitsOfWord w).we = true := by
  revert h
  unfold traitsOfWord traitsOfClass
  cases decode w with
  | bubble => exact fun h => h
  | unimplemented => exact fun h => h
  | instr i => cases i <;> simp [traitsOf, Traits.writes, Traits.load, Traits.reads, Traits.inert]

/-- An unimplemented word is performed by the same frames (46_system.md R322). -/
theorem execUnimplemented_performs (ir : Word) (s : State) :
    execUnimplemented ir s =
      perform .inert (rsField ir) (rtField ir) (fun _ => { report := true }) .pass .none s := rfl

/-! ### EX -/

section
variable (c : Traits) (rs rt : Reg) (f : ExIn → ExOut) (s : State)

/-- EX writes nothing but what its frame allows (40_pipeline.md R132). -/
theorem performEx_frame : ExFrame s (performEx c rs rt f s) := by
  unfold performEx
  dsimp only
  cases (f (exInput rs rt s)).target <;> cases (f (exInput rs rt s)).report <;> constructor <;> constructor <;> rfl

@[simp] theorem performEx_exmem : (performEx c rs rt f s).exmem = exLatch (exInput rs rt s) (f (exInput rs rt s)) s := rfl
@[simp] theorem performEx_selA : (performEx c rs rt f s).selA = .none := rfl
@[simp] theorem performEx_selB : (performEx c rs rt f s).selB = .none := rfl
@[simp] theorem performEx_exDest : (performEx c rs rt f s).exDest = c.dest := rfl
@[simp] theorem performEx_exWe : (performEx c rs rt f s).exWe = c.we := rfl
@[simp] theorem performEx_exLoad : (performEx c rs rt f s).exLoad = c.isLoad := rfl
@[simp] theorem performEx_drawCount :
    (performEx c rs rt f s).drawCount = if (f (exInput rs rt s)).drew then s.drawCount + 1 else s.drawCount := rfl

/-- The PC that IF will fetch from in this cycle (40_pipeline.md R168). -/
theorem performEx_pc : (performEx c rs rt f s).cur.pc = ((f (exInput rs rt s)).target).getD s.cur.pc := by
  unfold performEx
  dsimp only
  cases (f (exInput rs rt s)).target <;> cases (f (exInput rs rt s)).report <;> rfl

theorem performEx_branchFlag :
    (performEx c rs rt f s).branchFlag = ((f (exInput rs rt s)).target.isSome || s.branchFlag) := by
  unfold performEx
  dsimp only
  cases (f (exInput rs rt s)).target <;> cases (f (exInput rs rt s)).report <;> rfl

theorem performEx_diagLog :
    (performEx c rs rt f s).diagLog =
      if (f (exInput rs rt s)).report then s.diagLog ++ [⟨s.idex.pc - 4, s.idex.ir⟩] else s.diagLog := by
  unfold performEx
  dsimp only
  cases (f (exInput rs rt s)).target <;> cases (f (exInput rs rt s)).report <;> rfl

end

/-! ### MEM -/

/-- The merge of a store, bit by bit, is `storedWord`, by arithmetic (20_memory.md R73; D25). -/
theorem mergeWord_eq_storedWord (old v : Word) (width : Width) : mergeWord old v width = storedWord old v width := by
  have hold := old.isLt
  have append : ∀ (x : Nat) (k : Nat), x <<< k ||| v.toNat >>> 0 % 2 ^ k = x * 2 ^ k + v.toNat % 2 ^ k := fun x k => by
    rw [Nat.shiftRight_zero, ← Nat.shiftLeft_add_eq_or_of_lt (Nat.mod_lt _ (Nat.two_pow_pos k)), Nat.shiftLeft_eq]
  apply BitVec.eq_of_toNat_eq
  cases width with
  | byte =>
    simp only [mergeWord, storedWord, BitVec.toNat_append, BitVec.extractLsb'_toNat, BitVec.toNat_ofNat]
    rw [append, Nat.shiftRight_eq_div_pow]
    omega
  | half =>
    simp only [mergeWord, storedWord, BitVec.toNat_append, BitVec.extractLsb'_toNat, BitVec.toNat_ofNat]
    rw [append, Nat.shiftRight_eq_div_pow]
    omega
  | word => rfl


/-- What MEM can do: the frame's latches, and then at most one data access or one read of next HI or LO (R175, R178). -/
theorem performMem_cases {c : Traits} {m : MemStep} {s t : State} (h : performMem c m s = .ok t) :
    (m = .pass ∧ t = memLatch c s) ∨
    (∃ width w u, m = .load width ∧ dataRead s.exmem.alu (memLatch c s) = .ok (w, u) ∧
      t = { u with memwb := { u.memwb with lmd := extendLoad w width } }) ∨
    (∃ width, m = .store width ∧ dataWrite s.exmem.alu s.exmem.b width (memLatch c s) = .ok t) ∨
    (m = .readHi ∧ t = { memLatch c s with memwb := { (memLatch c s).memwb with alu := s.nxt.hi } }) ∨
    (m = .readLo ∧ t = { memLatch c s with memwb := { (memLatch c s).memwb with alu := s.nxt.lo } }) := by
  cases m with
  | pass => exact .inl ⟨rfl, (Except.ok.inj h).symm⟩
  | load width =>
    unfold performMem at h
    dsimp only [bind, Except.bind] at h
    split at h
    · cases h
    · next r hr => exact .inr (.inl ⟨width, r.1, r.2, rfl, hr, (Except.ok.inj h).symm⟩)
  | store width => exact .inr (.inr (.inl ⟨width, rfl, h⟩))
  | readHi => exact .inr (.inr (.inr (.inl ⟨rfl, (Except.ok.inj h).symm⟩)))
  | readLo => exact .inr (.inr (.inr (.inr ⟨rfl, (Except.ok.inj h).symm⟩)))

/-- MEM writes nothing but what its frame allows (40_pipeline.md R132). -/
theorem performMem_frame {c : Traits} {m : MemStep} {s t : State} (h : performMem c m s = .ok t) : MemFrame s t := by
  rcases performMem_cases h with ⟨-, rfl⟩ | ⟨width, w, u, -, hr, rfl⟩ | ⟨width, -, hw⟩ | ⟨-, rfl⟩ | ⟨-, rfl⟩
  · constructor
    · constructor <;> rfl
    all_goals rfl
  · have := dataRead_sameButMemory hr
    unfold SameButMemory at this
    rw [this]
    constructor
    · constructor <;> rfl
    all_goals rfl
  · have := dataWrite_sameButMemory hw
    unfold SameButMemory at this
    rw [this]
    constructor
    · constructor <;> rfl
    all_goals rfl
  · constructor
    · constructor <;> rfl
    all_goals rfl
  · constructor
    · constructor <;> rfl
    all_goals rfl

/-- MEM keeps the canonical form of Memory. -/
theorem performMem_wf {c : Traits} {m : MemStep} {s t : State} (h : performMem c m s = .ok t) (hm : Memory.wf s.mem) :
    Memory.wf t.mem := by
  rcases performMem_cases h with ⟨-, rfl⟩ | ⟨width, w, u, -, hr, rfl⟩ | ⟨width, -, hw⟩ | ⟨-, rfl⟩ | ⟨-, rfl⟩
  · exact hm
  · have := dataRead_mem hr
    simp only at this ⊢
    rw [this]
    exact hm
  · exact dataWrite_wf hw hm
  · exact hm
  · exact hm

/-! ### WB -/

/-- WB writes nothing but what its frame allows (40_pipeline.md R132). -/
theorem performWb_frame (c : Traits) (b : WbStep) (s : State) : WbFrame s (performWb c b s) := by
  unfold performWb wbWrite wbStep haltTest
  dsimp only
  cases b <;> dsimp only <;> split_ifs <;> constructor <;> first | rfl | (constructor <;> rfl)

/-- WB counts the instruction as retired (40_pipeline.md R180). -/
theorem performWb_instructionCount (c : Traits) (b : WbStep) (s : State) :
    (performWb c b s).instructionCount = s.instructionCount + 1 := by
  unfold performWb wbWrite wbStep haltTest
  dsimp only
  cases b <;> dsimp only <;> split_ifs <;> rfl

/-- The next-generation registers after WB (40_pipeline.md R180). -/
theorem performWb_regs (c : Traits) (b : WbStep) (s : State) :
    (performWb c b s).nxt.regs =
      if c.isLoad then regSet s.nxt.regs c.dest s.memwb.lmd
      else if c.we then regSet s.nxt.regs c.dest s.memwb.alu
      else s.nxt.regs := by
  unfold performWb wbWrite wbStep haltTest
  dsimp only
  cases b <;> dsimp only <;> split_ifs <;> rfl

end Sys2Proof.Machine
end

