-- ==== Sys2Proof/Laws/PerInstr.lean ====
section
/-! SUPPORT. The family NonzeroWord of LAWS.json: only the ill-formed SLL has the word of a bubble (30_encoding.md R114). -/

namespace Sys2Proof.Laws.NonzeroWord

/-- A well-formed instruction is not encoded as the bubble. -/
def Statement (i : Instr) : Prop := i.wf → encode i ≠ 0

theorem add (rd rs rt : Reg) (sa : Shamt) : Statement (.add rd rs rt sa) := fun _ h =>
  absurd (fnField_rWord .. ▸ congrArg fnField h) (by decide)

theorem addu (rd rs rt : Reg) (sa : Shamt) : Statement (.addu rd rs rt sa) := fun _ h =>
  absurd (fnField_rWord .. ▸ congrArg fnField h) (by decide)

theorem sub (rd rs rt : Reg) (sa : Shamt) : Statement (.sub rd rs rt sa) := fun _ h =>
  absurd (fnField_rWord .. ▸ congrArg fnField h) (by decide)

theorem subu (rd rs rt : Reg) (sa : Shamt) : Statement (.subu rd rs rt sa) := fun _ h =>
  absurd (fnField_rWord .. ▸ congrArg fnField h) (by decide)

theorem and (rd rs rt : Reg) (sa : Shamt) : Statement (.and rd rs rt sa) := fun _ h =>
  absurd (fnField_rWord .. ▸ congrArg fnField h) (by decide)

theorem or (rd rs rt : Reg) (sa : Shamt) : Statement (.or rd rs rt sa) := fun _ h =>
  absurd (fnField_rWord .. ▸ congrArg fnField h) (by decide)

theorem xor (rd rs rt : Reg) (sa : Shamt) : Statement (.xor rd rs rt sa) := fun _ h =>
  absurd (fnField_rWord .. ▸ congrArg fnField h) (by decide)

theorem nor (rd rs rt : Reg) (sa : Shamt) : Statement (.nor rd rs rt sa) := fun _ h =>
  absurd (fnField_rWord .. ▸ congrArg fnField h) (by decide)

theorem slt (rd rs rt : Reg) (sa : Shamt) : Statement (.slt rd rs rt sa) := fun _ h =>
  absurd (fnField_rWord .. ▸ congrArg fnField h) (by decide)

theorem sll (rd rs rt : Reg) (sa : Shamt) : Statement (.sll rd rs rt sa) := fun hwf h => by
  have hrd := congrArg rdField h
  have hrs := congrArg rsField h
  have hrt := congrArg rtField h
  have hsa := congrArg saField h
  simp only [encode, rdField_rWord, rsField_rWord, rtField_rWord, saField_rWord] at hrd hrs hrt hsa
  exact hwf (by rw [hrd, hrs, hrt, hsa]; rfl)

theorem srl (rd rs rt : Reg) (sa : Shamt) : Statement (.srl rd rs rt sa) := fun _ h =>
  absurd (fnField_rWord .. ▸ congrArg fnField h) (by decide)

theorem sra (rd rs rt : Reg) (sa : Shamt) : Statement (.sra rd rs rt sa) := fun _ h =>
  absurd (fnField_rWord .. ▸ congrArg fnField h) (by decide)

theorem addi (rt rs : Reg) (imm : Imm16) : Statement (.addi rt rs imm) := fun _ h =>
  absurd (opField_iWord .. ▸ congrArg opField h) (by decide)

theorem addiu (rt rs : Reg) (imm : Imm16) : Statement (.addiu rt rs imm) := fun _ h =>
  absurd (opField_iWord .. ▸ congrArg opField h) (by decide)

theorem slti (rt rs : Reg) (imm : Imm16) : Statement (.slti rt rs imm) := fun _ h =>
  absurd (opField_iWord .. ▸ congrArg opField h) (by decide)

theorem andi (rt rs : Reg) (imm : Imm16) : Statement (.andi rt rs imm) := fun _ h =>
  absurd (opField_iWord .. ▸ congrArg opField h) (by decide)

theorem ori (rt rs : Reg) (imm : Imm16) : Statement (.ori rt rs imm) := fun _ h =>
  absurd (opField_iWord .. ▸ congrArg opField h) (by decide)

theorem xori (rt rs : Reg) (imm : Imm16) : Statement (.xori rt rs imm) := fun _ h =>
  absurd (opField_iWord .. ▸ congrArg opField h) (by decide)

theorem lui (rt rs : Reg) (imm : Imm16) : Statement (.lui rt rs imm) := fun _ h =>
  absurd (opField_iWord .. ▸ congrArg opField h) (by decide)

theorem mult (rd rs rt : Reg) (sa : Shamt) : Statement (.mult rd rs rt sa) := fun _ h =>
  absurd (fnField_rWord .. ▸ congrArg fnField h) (by decide)

theorem multu (rd rs rt : Reg) (sa : Shamt) : Statement (.multu rd rs rt sa) := fun _ h =>
  absurd (fnField_rWord .. ▸ congrArg fnField h) (by decide)

theorem div (rd rs rt : Reg) (sa : Shamt) : Statement (.div rd rs rt sa) := fun _ h =>
  absurd (fnField_rWord .. ▸ congrArg fnField h) (by decide)

theorem divu (rd rs rt : Reg) (sa : Shamt) : Statement (.divu rd rs rt sa) := fun _ h =>
  absurd (fnField_rWord .. ▸ congrArg fnField h) (by decide)

theorem mfhi (rd rs rt : Reg) (sa : Shamt) : Statement (.mfhi rd rs rt sa) := fun _ h =>
  absurd (fnField_rWord .. ▸ congrArg fnField h) (by decide)

theorem mflo (rd rs rt : Reg) (sa : Shamt) : Statement (.mflo rd rs rt sa) := fun _ h =>
  absurd (fnField_rWord .. ▸ congrArg fnField h) (by decide)

theorem mthi (rd rs rt : Reg) (sa : Shamt) : Statement (.mthi rd rs rt sa) := fun _ h =>
  absurd (fnField_rWord .. ▸ congrArg fnField h) (by decide)

theorem mtlo (rd rs rt : Reg) (sa : Shamt) : Statement (.mtlo rd rs rt sa) := fun _ h =>
  absurd (fnField_rWord .. ▸ congrArg fnField h) (by decide)

theorem lb (rt rs : Reg) (imm : Imm16) : Statement (.lb rt rs imm) := fun _ h =>
  absurd (opField_iWord .. ▸ congrArg opField h) (by decide)

theorem lh (rt rs : Reg) (imm : Imm16) : Statement (.lh rt rs imm) := fun _ h =>
  absurd (opField_iWord .. ▸ congrArg opField h) (by decide)

theorem lw (rt rs : Reg) (imm : Imm16) : Statement (.lw rt rs imm) := fun _ h =>
  absurd (opField_iWord .. ▸ congrArg opField h) (by decide)

theorem sb (rt rs : Reg) (imm : Imm16) : Statement (.sb rt rs imm) := fun _ h =>
  absurd (opField_iWord .. ▸ congrArg opField h) (by decide)

theorem sh (rt rs : Reg) (imm : Imm16) : Statement (.sh rt rs imm) := fun _ h =>
  absurd (opField_iWord .. ▸ congrArg opField h) (by decide)

theorem sw (rt rs : Reg) (imm : Imm16) : Statement (.sw rt rs imm) := fun _ h =>
  absurd (opField_iWord .. ▸ congrArg opField h) (by decide)

theorem beq (rt rs : Reg) (imm : Imm16) : Statement (.beq rt rs imm) := fun _ h =>
  absurd (opField_iWord .. ▸ congrArg opField h) (by decide)

theorem bne (rt rs : Reg) (imm : Imm16) : Statement (.bne rt rs imm) := fun _ h =>
  absurd (opField_iWord .. ▸ congrArg opField h) (by decide)

theorem blez (rt rs : Reg) (imm : Imm16) : Statement (.blez rt rs imm) := fun _ h =>
  absurd (opField_iWord .. ▸ congrArg opField h) (by decide)

theorem bgtz (rt rs : Reg) (imm : Imm16) : Statement (.bgtz rt rs imm) := fun _ h =>
  absurd (opField_iWord .. ▸ congrArg opField h) (by decide)

theorem bltz (rs : Reg) (imm : Imm16) : Statement (.bltz rs imm) := fun _ h =>
  absurd (opField_iWord .. ▸ congrArg opField h) (by decide)

theorem bgez (rs : Reg) (imm : Imm16) : Statement (.bgez rs imm) := fun _ h =>
  absurd (opField_iWord .. ▸ congrArg opField h) (by decide)

theorem j (target : Target26) : Statement (.j target) := fun _ h =>
  absurd (opField_jWord .. ▸ congrArg opField h) (by decide)

theorem jal (target : Target26) : Statement (.jal target) := fun _ h =>
  absurd (opField_jWord .. ▸ congrArg opField h) (by decide)

theorem jr (rd rs rt : Reg) (sa : Shamt) : Statement (.jr rd rs rt sa) := fun _ h =>
  absurd (fnField_rWord .. ▸ congrArg fnField h) (by decide)

theorem jalr (rd rs rt : Reg) (sa : Shamt) : Statement (.jalr rd rs rt sa) := fun _ h =>
  absurd (fnField_rWord .. ▸ congrArg fnField h) (by decide)

theorem syscall (code : SysCode) : Statement (.syscall code) := fun _ h =>
  absurd (fnField_sysWord .. ▸ congrArg fnField h) (by decide)

end Sys2Proof.Laws.NonzeroWord
end

