-- ==== Sys2Proof/Laws/Pipeline.lean ====
section
/-! SUPPORT. What the stages and the cycle can do: each stage is a bubble's pass or the frame of its instruction, and a cycle is
the five stages and the commit (40_pipeline.md R131). -/

namespace Sys2Proof.Machine

/-! ### The register fields of the word are those that a meaning resolves -/

theorem targetRs_targetField (w : Word) : targetRs (targetField w) = rsField w := by
  apply BitVec.eq_of_getLsbD_eq
  intro i hi
  simp only [targetRs, targetField, rsField, BitVec.getLsbD_extractLsb']
  interval_cases i <;> simp

theorem targetRt_targetField (w : Word) : targetRt (targetField w) = rtField w := by
  apply BitVec.eq_of_getLsbD_eq
  intro i hi
  simp only [targetRt, targetField, rtField, BitVec.getLsbD_extractLsb']
  interval_cases i <;> simp

theorem codeRs_codeField (w : Word) : codeRs (codeField w) = rsField w := by
  apply BitVec.eq_of_getLsbD_eq
  intro i hi
  simp only [codeRs, codeField, rsField, BitVec.getLsbD_extractLsb']
  interval_cases i <;> simp

theorem codeRt_codeField (w : Word) : codeRt (codeField w) = rtField w := by
  apply BitVec.eq_of_getLsbD_eq
  intro i hi
  simp only [codeRt, codeField, rtField, BitVec.getLsbD_extractLsb']
  interval_cases i <;> simp

/-! ### Decoding -/

@[simp] theorem decode_zero : decode 0 = .bubble := rfl

/-- Only the all-zero word is a bubble (30_encoding.md R114). -/
theorem decode_eq_bubble_iff (w : Word) : decode w = .bubble ↔ w = 0 := by
  constructor
  · intro h
    by_contra hne
    rw [decode, if_neg hne] at h
    unfold decodePrimary decodeSpecial decodeRegimm at h
    dsimp only at h
    split at h <;> first | cases h | (split at h <;> cases h)
  · rintro rfl
    rfl

theorem perform_fields {c : Traits} {rs rt rs' rt' : Reg} {f : ExIn → ExOut} {m : MemStep} {b : WbStep} (h : rs = rs')
    (h' : rt = rt') (s : State) : perform c rs rt f m b s = perform c rs' rt' f m b s := by
  subst h h'
  rfl

/-- The meaning of the instruction that a word decodes to resolves the register fields of that word. -/
theorem decoded_performs {w : Word} {i : Instr} (h : decode w = .instr i) :
    ∃ f m b, ∀ s, exec i s = perform (traitsOf i) (rsField w) (rtField w) f m b s := by
  unfold decode at h
  split at h
  · cases h
  · unfold decodePrimary decodeSpecial decodeRegimm at h
    dsimp only at h
    split at h
    · split at h
      all_goals first
        | (injection h with h
           subst h
           first
             | exact ⟨_, _, _, fun _ => rfl⟩
             | exact ⟨_, _, _, fun s => perform_fields (codeRs_codeField w) (codeRt_codeField w) s⟩)
        | cases h
    · split at h
      · next hrt =>
        injection h with h
        subst h
        have hz : rtField w = 0 := BitVec.eq_of_toNat_eq hrt
        exact ⟨_, _, _, fun s => by rw [hz]; exact rfl⟩
      · next hrt =>
        injection h with h
        subst h
        have ho : rtField w = 1 := BitVec.eq_of_toNat_eq hrt
        exact ⟨_, _, _, fun s => by rw [ho]; exact rfl⟩
      · cases h
    all_goals first
      | (injection h with h
         subst h
         first
           | exact ⟨_, _, _, fun _ => rfl⟩
           | exact ⟨_, _, _, fun s => perform_fields (targetRs_targetField w) (targetRt_targetField w) s⟩)
      | cases h

/-! ### The stages -/

/-- What WB can do on its input register (40_pipeline.md R136, R180). -/
theorem wbStage_cases (s : State) :
    (s.memwb.ir = 0 ∧ wbStage s = .next (atStage .wb s)) ∨
      ∃ b, s.memwb.ir ≠ 0 ∧ wbStage s = .next (performWb (traitsOfWord s.memwb.ir) b (atStage .wb s)) := by
  unfold wbStage traitsOfWord
  cases hd : decode s.memwb.ir with
  | bubble => exact .inl ⟨(decode_eq_bubble_iff _).mp hd, rfl⟩
  | unimplemented =>
    refine .inr ⟨.none, fun h => ?_, rfl⟩
    rw [h] at hd
    cases hd
  | instr i =>
    obtain ⟨f, m, b, hp⟩ := decoded_performs hd
    refine .inr ⟨b, fun h => ?_, ?_⟩
    · rw [h] at hd
      cases hd
    · dsimp only
      rw [hp, perform_wb rfl]
      rfl

/-- What MEM can do on its input register (40_pipeline.md R136, R175). -/
theorem memStage_cases (s : State) :
    (s.exmem.ir = 0 ∧ memStage s = .next (bubbleMem (atStage .mem s))) ∨
      ∃ m, s.exmem.ir ≠ 0 ∧ memStage s = ofExcept (performMem (traitsOfWord s.exmem.ir) m (atStage .mem s)) := by
  unfold memStage traitsOfWord
  cases hd : decode s.exmem.ir with
  | bubble => exact .inl ⟨(decode_eq_bubble_iff _).mp hd, rfl⟩
  | unimplemented =>
    refine .inr ⟨.pass, fun h => ?_, rfl⟩
    rw [h] at hd
    cases hd
  | instr i =>
    obtain ⟨f, m, b, hp⟩ := decoded_performs hd
    refine .inr ⟨m, fun h => ?_, ?_⟩
    · rw [h] at hd
      cases hd
    · dsimp only
      rw [hp, perform_mem rfl]
      rfl

/-- What EX can do on its input register (40_pipeline.md R136, R160). -/
theorem exStage_cases (s : State) :
    (s.idex.ir = 0 ∧ exStage s = .next (bubbleEx (atStage .ex s))) ∨
      ∃ f, s.idex.ir ≠ 0 ∧
        exStage s = .next (performEx (traitsOfWord s.idex.ir) (rsField s.idex.ir) (rtField s.idex.ir) f (atStage .ex s)) := by
  unfold exStage traitsOfWord
  cases hd : decode s.idex.ir with
  | bubble => exact .inl ⟨(decode_eq_bubble_iff _).mp hd, rfl⟩
  | unimplemented =>
    refine .inr ⟨_, fun h => ?_, rfl⟩
    rw [h] at hd
    cases hd
  | instr i =>
    obtain ⟨f, m, b, hp⟩ := decoded_performs hd
    refine .inr ⟨f, fun h => ?_, ?_⟩
    · rw [h] at hd
      cases hd
    · dsimp only
      rw [hp, perform_ex rfl]
      rfl

/-- WB and EX always answer a state. -/
theorem wbStage_next (s : State) : ∃ t, wbStage s = .next t := by
  rcases wbStage_cases s with ⟨-, h⟩ | ⟨b, -, h⟩ <;> exact ⟨_, h⟩

theorem exStage_next (s : State) : ∃ t, exStage s = .next t := by
  rcases exStage_cases s with ⟨-, h⟩ | ⟨f, -, h⟩ <;> exact ⟨_, h⟩

/-! ### ID and IF -/

/-- What ID can do (40_pipeline.md R151, R155, R157). -/
theorem idStage_cases (s : State) :
    (0 < s.stallCount ∧ idStage s = (idBubble { s with stallCount := s.stallCount - 1 }, true)) ∨
    (s.stallCount = 0 ∧ s.branchFlag = true ∧ idStage s = (idBubble { s with branchFlag := false }, false)) ∨
    (s.stallCount = 0 ∧ s.branchFlag = false ∧ s.ifid.ir = 0 ∧ idStage s = (idBubble s, false)) ∨
    (s.stallCount = 0 ∧ s.branchFlag = false ∧ s.ifid.ir ≠ 0 ∧ idStage s = idDecode s) := by
  unfold idStage
  by_cases h1 : 0 < s.stallCount
  · exact .inl ⟨h1, if_pos h1⟩
  · have h0 : s.stallCount = 0 := by omega
    rw [if_neg h1]
    cases h2 : s.branchFlag with
    | true => exact .inr (.inl ⟨h0, rfl, rfl⟩)
    | false =>
      rw [if_neg Bool.false_ne_true]
      by_cases h3 : s.ifid.ir = 0
      · exact .inr (.inr (.inl ⟨h0, rfl, h3, if_pos h3⟩))
      · exact .inr (.inr (.inr ⟨h0, rfl, h3, if_neg h3⟩))

/-- What decoding can do: a stall bubble that keeps the snapshot, or the instruction with its selectors (40_pipeline.md R155,
R158). -/
theorem idDecode_cases (s : State) :
    let ir := s.ifid.ir
    let c := traitsOfWord ir
    let need := stallNeed s c (rsField ir) (rtField ir)
    (0 < need ∧ idDecode s = (afterDecode s 0 .none .none (need - 1), true)) ∨
      (need = 0 ∧ idDecode s = (afterDecode s ir (operandSelector s c.srcA (rsField ir))
        (operandSelector s c.srcB (rtField ir)) s.stallCount, false)) := by
  dsimp only
  by_cases h : 0 < stallNeed s (traitsOfWord s.ifid.ir) (rsField s.ifid.ir) (rtField s.ifid.ir)
  · exact .inl ⟨h, if_pos h⟩
  · exact .inr ⟨by omega, if_neg h⟩

/-- ID writes ID/EX, the stall count, the branch flag and the selectors, and nothing else (40_pipeline.md R132). -/
theorem idStage_writes (s : State) :
    (idStage s).1 =
      { s with
        idex := (idStage s).1.idex, stallCount := (idStage s).1.stallCount, branchFlag := (idStage s).1.branchFlag,
        selA := (idStage s).1.selA, selB := (idStage s).1.selB } := by
  rcases idStage_cases s with ⟨-, h⟩ | ⟨-, -, h⟩ | ⟨-, -, -, h⟩ | ⟨-, -, -, h⟩ <;> rw [h]
  · rfl
  · rfl
  · rfl
  · rcases idDecode_cases s with ⟨-, e⟩ | ⟨-, e⟩ <;> rw [e] <;> rfl

/-- So IF fetches what it would have fetched before ID. -/
theorem idStage_frame (s : State) :
    (idStage s).1.cfg = s.cfg ∧ (idStage s).1.mem = s.mem ∧ (idStage s).1.cur = s.cur ∧ (idStage s).1.nxt = s.nxt := by
  rw [idStage_writes]
  exact ⟨rfl, rfl, rfl, rfl⟩

/-- ID leaves the cache, its counters, the miss flag and Memory alone (40_pipeline.md R132). -/
theorem idStage_sameMemory (s : State) : SameMemory s (idStage s).1 := by
  rw [idStage_writes]
  exact ⟨rfl, rfl, rfl, rfl, rfl⟩

/-- What IF can do (40_pipeline.md R140). -/
theorem ifStage_cases {stalled : Bool} {s t : State} (h : ifStage stalled s = .ok t) :
    (stalled = true ∧ t = s) ∨
      ∃ w, stalled = false ∧ memRead s.cfg.regions s.mem s.cur.pc = .ok w ∧
        t = { s with ifid := fetchLatch w s.cur.pc, nxt := { s.nxt with pc := s.cur.pc + 4 } } := by
  unfold ifStage at h
  split at h
  · next hs => exact .inl ⟨hs, (Except.ok.inj h).symm⟩
  · next hs =>
    dsimp only [bind, Except.bind] at h
    split at h
    · cases h
    · next w hw => exact .inr ⟨w, by simpa using hs, hw, (Except.ok.inj h).symm⟩

/-! ### The cycle -/

/-- A cycle of a running machine that answers a state went through every stage (40_pipeline.md R131). -/
theorem cycle_next_iff {s t : State} (hrun : s.runFlag = true) :
    cycle s = .next t ↔
      ∃ a b c u, wbStage { s with missFlag := false } = .next a ∧ memStage a = .next b ∧ exStage b = .next c ∧
        ifStage (idStage c).2 (idStage c).1 = .ok u ∧ t = atStage .wb (commit u) := by
  rw [cycle, if_pos hrun, andThen_next_iff]
  constructor
  · rintro ⟨a, ha, h⟩
    rw [andThen_next_iff] at h
    obtain ⟨b, hb, h⟩ := h
    rw [andThen_next_iff] at h
    obtain ⟨c, hc, h⟩ := h
    unfold finishCycle at h
    dsimp only at h
    split at h
    · next u hu => exact ⟨a, b, c, u, ha, hb, hc, hu, by injection h with h; exact h.symm⟩
    · cases h
  · rintro ⟨a, b, c, u, ha, hb, hc, hu, rfl⟩
    refine ⟨a, ha, andThen_next_iff.mpr ⟨b, hb, andThen_next_iff.mpr ⟨c, hc, ?_⟩⟩⟩
    unfold finishCycle
    dsimp only
    rw [hu]

/-- A halted machine runs no cycle (40_pipeline.md R137). -/
theorem cycle_halted {s : State} (h : s.runFlag = false) : cycle s = .next s := by
  simp [cycle, h]

end Sys2Proof.Machine
end

