-- ==== Sys2Proof/Tests/Slice0.lean ====
section
/-! SUPPORT. The model's own tests. Expected values come from spec/95_test_vectors.md and 30_encoding.md, or by hand from the rule
named. A witness theorem shows a state and operands that meet all the hypotheses of the statement it is named after. -/

namespace Sys2Proof.Tests

open Sys2Proof Sys2Proof.Machine

/-! ### WellFormed -/

/-- The all-zero word is a bubble, so the term that would be encoded as it is refused (30_encoding.md R114). -/
theorem test_wf_refuses_the_zero_word : ¬ (Instr.sll 0 0 0 0).wf := by decide

/-- "Any other SLL" is an instruction (41_alu_register.md R210). -/
theorem test_wf_accepts_other_shifts : (Instr.sll 0 0 0 1).wf ∧ (Instr.sll 1 0 0 0).wf ∧ (Instr.sll 0 1 0 0).wf := by decide

/-! ### Decoding: words written from 30_encoding.md R101, R110, R111 and R113 -/

/-- Bit by bit, one word of each family: `op rs rt rd sa fn`, `op rs rt imm16` or `op target26`. -/
theorem test_decode_bit_by_bit :
    decode (0b000000#6 ++ 0b00100#5 ++ 0b00101#5 ++ 0b00110#5 ++ 0b00001#5 ++ 0b100000#6) = .instr (.add 6 4 5 1) ∧
    decode (0b001000#6 ++ 0b00100#5 ++ 0b00110#5 ++ 0b1111111111111110#16) = .instr (.addi 6 4 0xFFFE) ∧
    decode (0b000000#6 ++ 0b00100#5 ++ 0b00101#5 ++ 0b00000#5 ++ 0b00000#5 ++ 0b011010#6) = .instr (.div 0 4 5 0) ∧
    decode (0b101011#6 ++ 0b01000#5 ++ 0b00101#5 ++ 0b0000000000000100#16) = .instr (.sw 5 8 4) ∧
    decode (0b000001#6 ++ 0b00100#5 ++ 0b00001#5 ++ 0b1000000000000000#16) = .instr (.bgez 4 0x8000) ∧
    decode (0b000011#6 ++ 0b00000100000000000001000000#26) = .instr (.jal 0x0100040) ∧
    decode (0b000000#6 ++ 0b00000000000000000001#20 ++ 0b001100#6) = .instr (.syscall 1) := by decide

theorem test_decode_register_alu :
    decode 0x00853020 = .instr (.add 6 4 5 0) ∧ decode 0x00853021 = .instr (.addu 6 4 5 0) ∧
    decode 0x00853022 = .instr (.sub 6 4 5 0) ∧ decode 0x00853023 = .instr (.subu 6 4 5 0) ∧
    decode 0x00853024 = .instr (.and 6 4 5 0) ∧ decode 0x00853025 = .instr (.or 6 4 5 0) ∧
    decode 0x00853026 = .instr (.xor 6 4 5 0) ∧ decode 0x00853027 = .instr (.nor 6 4 5 0) ∧
    decode 0x0085302A = .instr (.slt 6 4 5 0) ∧ decode 0x000537C0 = .instr (.sll 6 0 5 31) ∧
    decode 0x00053102 = .instr (.srl 6 0 5 4) ∧ decode 0x00053083 = .instr (.sra 6 0 5 2) := by decide

theorem test_decode_immediate_alu :
    decode 0x20860001 = .instr (.addi 6 4 1) ∧ decode 0x24868000 = .instr (.addiu 6 4 0x8000) ∧
    decode 0x2886FFFF = .instr (.slti 6 4 0xFFFF) ∧ decode 0x3086FFFF = .instr (.andi 6 4 0xFFFF) ∧
    decode 0x34868000 = .instr (.ori 6 4 0x8000) ∧ decode 0x38868000 = .instr (.xori 6 4 0x8000) ∧
    decode 0x3C06FFFF = .instr (.lui 6 0 0xFFFF) ∧ decode 0x3C860000 = .instr (.lui 6 4 0) := by decide

theorem test_decode_muldiv_hilo :
    decode 0x00850018 = .instr (.mult 0 4 5 0) ∧ decode 0x0085F818 = .instr (.mult 31 4 5 0) ∧
    decode 0x00850019 = .instr (.multu 0 4 5 0) ∧ decode 0x0085001A = .instr (.div 0 4 5 0) ∧
    decode 0x0085001B = .instr (.divu 0 4 5 0) ∧ decode 0x00003010 = .instr (.mfhi 6 0 0 0) ∧
    decode 0x00003012 = .instr (.mflo 6 0 0 0) ∧ decode 0x00800011 = .instr (.mthi 0 4 0 0) ∧
    decode 0x00800013 = .instr (.mtlo 0 4 0 0) := by decide

theorem test_decode_load_store :
    decode 0x81060003 = .instr (.lb 6 8 3) ∧ decode 0x85060002 = .instr (.lh 6 8 2) ∧
    decode 0x8D060000 = .instr (.lw 6 8 0) ∧ decode 0xA1050003 = .instr (.sb 5 8 3) ∧
    decode 0xA5050002 = .instr (.sh 5 8 2) ∧ decode 0xAD050001 = .instr (.sw 5 8 1) := by decide

theorem test_decode_control_transfer :
    decode 0x1085FFFF = .instr (.beq 5 4 0xFFFF) ∧ decode 0x14850004 = .instr (.bne 5 4 4) ∧
    decode 0x18808000 = .instr (.blez 0 4 0x8000) ∧ decode 0x1C800002 = .instr (.bgtz 0 4 2) ∧
    decode 0x0480FFFC = .instr (.bltz 4 0xFFFC) ∧ decode 0x0481FFFC = .instr (.bgez 4 0xFFFC) ∧
    decode 0x08100040 = .instr (.j 0x0100040) ∧ decode 0x0C100040 = .instr (.jal 0x0100040) ∧
    decode 0x03E00008 = .instr (.jr 0 31 0 0) ∧ decode 0x03E0F809 = .instr (.jalr 31 31 0 0) := by decide

/-- The bubble, SYSCALL with its ignored bits, and the shift that is no bubble (V30; 30_encoding.md R115). -/
theorem test_decode_system :
    decode 0x00000000 = .bubble ∧ decode 0x0000000C = .instr (.syscall 0) ∧ decode 0x03FFFFCC = .instr (.syscall 0xFFFFF) ∧
    decode 0x00000040 = .instr (.sll 0 0 0 1) := by decide

/-- The words of V30 that no map has. -/
theorem test_decode_unimplemented :
    decode 0x0000000D = .unimplemented ∧ decode 0x7C000000 = .unimplemented ∧ decode 0x42000018 = .unimplemented ∧
    decode 0x00853028 = .unimplemented ∧ decode 0x0085302B = .unimplemented ∧ decode 0x0085302C = .unimplemented ∧
    decode 0x00851804 = .unimplemented ∧ decode 0x04A20000 = .unimplemented ∧ decode 0x04100000 = .unimplemented ∧
    decode 0x2C860001 = .unimplemented ∧ decode 0x90860000 = .unimplemented := by decide

/-- The table's numbering: 32 bits, the word itself; the all-zero word of the SLL row is a bubble (log 11). -/
theorem test_decode_table_word :
    decodeTableWord 32 0x00853020 = some (.add 6 4 5 0) ∧ decodeTableWord 32 0x0000000D = none ∧ decodeTableWord 32 0 = none := by
  decide

/-! ### One step on a small state -/

/-- General registers r4 and r5 as given, r8 at the data base, HI and LO of V43, and the PC of V45. -/
def archWith (a b : Word) : ArchState :=
  { regs := regSet (regSet (regSet (Vector.replicate 32 0) 4 a) 5 b) 8 0x10000000, hi := 0x11111111, lo := 0x22222222,
    pc := 0x00400010 }

/-- Reset with those registers in both generations. -/
def ready (a b : Word) : State := { State.reset with cur := archWith a b, nxt := archWith a b }

/-- What one step that starts with this word in EX leaves of a state. -/
def afterEx1 (a b w : Word) (f : State → Word) : Option Word :=
  match step ((ready a b).withFetchWord 32 w.toNat) with
  | .next t => some (f t)
  | .fault _ => none
  | .refused _ => none

/-- `EXMEM.ALU` after that step. -/
def aluOf (a b w : Word) : Option Word := afterEx1 a b w fun t => t.exmem.alu

/-- The address fetched from in that step: the target of a taken transfer, and otherwise the PC as it stood, which `withFetchWord`
leaves at 0x00400010 (log 2). -/
def fetchOf (a w : Word) (b : Word := 0) : Option Word := afterEx1 a b w fun t => t.ifid.pc - 4

/-- A state with this word in MEM/WB. -/
def inWb (w alu lmd b hi lo : Word) : State :=
  { ready 0 0 with memwb := { PipeReg.bubble with ir := w, alu := alu, lmd := lmd, b := b, hi := hi, lo := lo } }

/-- What one step leaves of a state. -/
def after1 {α : Type} (s : State) (f : State → α) : Option α :=
  match step s with
  | .next t => some (f t)
  | .fault _ => none
  | .refused _ => none

/-- Memory with the word 0x11223344 at the data base. -/
def dataMem : Machine.Memory := memSetWord [] 0x10000000 0x11223344

/-- A state with this word in EX/MEM, its address and datum as given, and that memory. -/
def inMem (w alu b : Word) (m : Machine.Memory := dataMem) : State :=
  { ready 0 0 with mem := m, exmem := { PipeReg.bubble with ir := w, alu := alu, b := b } }

-- V41
theorem test_add_wraps : aluOf 0x7FFFFFFF 1 0x00853020 = some 0x80000000 := by decide
theorem test_addu_wraps : aluOf 0x7FFFFFFF 1 0x00853021 = some 0x80000000 := by decide
theorem test_sub_wraps : aluOf 0 1 0x00853022 = some 0xFFFFFFFF := by decide
theorem test_subu_equal : aluOf 5 5 0x00853023 = some 0 := by decide
theorem test_and : aluOf 0xF0F0F0F0 0xFF00FF00 0x00853024 = some 0xF000F000 := by decide
theorem test_or : aluOf 0xF0F0F0F0 0x0F0F0F0F 0x00853025 = some 0xFFFFFFFF := by decide
theorem test_xor : aluOf 0xF0F0F0F0 0xFF00FF00 0x00853026 = some 0x0FF00FF0 := by decide
theorem test_nor_zero : aluOf 0 0 0x00853027 = some 0xFFFFFFFF := by decide
theorem test_slt_signed : aluOf 0x80000000 0x7FFFFFFF 0x0085302A = some 1 := by decide
theorem test_slt_order : aluOf 0x7FFFFFFF 0x80000000 0x0085302A = some 0 := by decide
theorem test_sll_by_31 : aluOf 0 0xFFFFFFFF 0x000537C0 = some 0x80000000 := by decide
theorem test_srl_zero_fill : aluOf 0 0x80000000 0x00053102 = some 0x08000000 := by decide
theorem test_sra_sign_fill : aluOf 0 0x80000000 0x00053103 = some 0xF8000000 := by decide
-- V42
theorem test_addi_wraps : aluOf 0x80000000 0 0x2086FFFF = some 0x7FFFFFFF := by decide
theorem test_addiu_sign_extends : aluOf 0 0 0x24868000 = some 0xFFFF8000 := by decide
theorem test_slti_signed : aluOf 0xFFFFFFFF 0 0x28860000 = some 1 := by decide
theorem test_slti_sign_extends : aluOf 0x7FFFFFFF 0 0x28868000 = some 0 := by decide
theorem test_andi_zero_extends : aluOf 0xFFFFFFFF 0 0x3086FFFF = some 0x0000FFFF := by decide
theorem test_ori_zero_extends : aluOf 0 0 0x34868000 = some 0x00008000 := by decide
theorem test_xori_zero_extends : aluOf 0x80000000 0 0x38868000 = some 0x80008000 := by decide
theorem test_lui_ignores_rs : aluOf 0x12345678 0 0x3C860000 = some 0 := by decide
theorem test_lui : aluOf 0 0 0x3C06FFFF = some 0xFFFF0000 := by decide
-- V43
theorem test_mult_signed : afterEx1 0x80000000 1 0x00850018 (fun t => t.exmem.hi) = some 0xFFFFFFFF ∧
    afterEx1 0x80000000 1 0x00850018 (fun t => t.exmem.lo) = some 0x80000000 := by decide
theorem test_multu_unsigned : afterEx1 0xFFFFFFFF 0xFFFFFFFF 0x00850019 (fun t => t.exmem.hi) = some 0xFFFFFFFE ∧
    afterEx1 0xFFFFFFFF 0xFFFFFFFF 0x00850019 (fun t => t.exmem.lo) = some 1 := by decide
theorem test_div_rounds_toward_zero : afterEx1 0xFFFFFFF9 2 0x0085001A (fun t => t.exmem.hi) = some 0xFFFFFFFF ∧
    afterEx1 0xFFFFFFF9 2 0x0085001A (fun t => t.exmem.lo) = some 0xFFFFFFFD := by decide
/-- The overflowing division completes, whatever the draw is, and uses one draw (R260). -/
theorem test_div_overflow_draws : after1 ((ready 0x80000000 0xFFFFFFFF).withFetchWord 32 0x0085001A) (fun t => t.drawCount) =
    some 1 := by decide
theorem test_divu_unsigned : afterEx1 0xFFFFFFFF 2 0x0085001B (fun t => t.exmem.hi) = some 1 ∧
    afterEx1 0xFFFFFFFF 2 0x0085001B (fun t => t.exmem.lo) = some 0x7FFFFFFF := by decide
theorem test_divu_by_zero_leaves_hilo : after1 (inWb 0x0085001B 0 0 0 7 9) (fun t => (t.cur.hi, t.cur.lo)) =
    some (0x11111111, 0x22222222) := by decide
theorem test_mfhi : after1 (inMem 0x00003010 0 0) (fun t => t.memwb.alu) = some 0x11111111 := by decide
theorem test_mflo : after1 (inMem 0x00003012 0 0) (fun t => t.memwb.alu) = some 0x22222222 := by decide
theorem test_mthi : after1 (inWb 0x00800011 0xDEADBEEF 0 0 0 0) (fun t => (t.cur.hi, t.cur.lo)) =
    some (0xDEADBEEF, 0x22222222) := by decide
theorem test_mtlo : after1 (inWb 0x00800013 0xDEADBEEF 0 0 0 0) (fun t => (t.cur.hi, t.cur.lo)) =
    some (0x11111111, 0xDEADBEEF) := by decide
-- V44
theorem test_lb_sign_extends : after1 (inMem 0x81060003 0x10000003 0 (memSetWord [] 0x10000000 0x12345680))
    (fun t => t.memwb.lmd) = some 0xFFFFFF80 := by decide
theorem test_lh_low_half : after1 (inMem 0x85060002 0x10000002 0 (memSetWord [] 0x10000000 0xFFFF8000))
    (fun t => t.memwb.lmd) = some 0xFFFF8000 := by decide
theorem test_lw_ignores_alignment : after1 (inMem 0x8D060002 0x10000002 0) (fun t => t.memwb.lmd) = some 0x11223344 := by
  decide
theorem test_lw_unmapped_misses : after1 (inMem 0x8D060000 0x20000000 0) (fun t => (t.memwb.lmd, t.hitEvents, t.missEvents)) =
    some (0, 0, 1) := by decide
theorem test_sb_low_byte : after1 (inMem 0xA1050003 0x10000003 0x000000AB) (fun t => memGetWord t.mem 0x10000000) =
    some 0x112233AB := by decide
theorem test_sh_low_half : after1 (inMem 0xA5050002 0x10000002 0xCAFEBABE) (fun t => memGetWord t.mem 0x10000000) =
    some 0x1122BABE := by decide
theorem test_sw_aligned_word : after1 (inMem 0xAD050001 0x10000001 0xCAFEBABE) (fun t => memGetWord t.mem 0x10000000) =
    some 0xCAFEBABE := by decide
theorem test_sw_unmapped_is_dropped : after1 (inMem 0xAD050000 0x20000000 0x1234) (fun t => t.mem) = some dataMem := by decide
-- V45
theorem test_beq_taken : fetchOf 1 0x1085FFFF 1 = some 0x00400010 := by decide
theorem test_beq_not_taken : fetchOf 7 0x10850003 8 = some 0x00400010 := by decide
theorem test_bne_taken : fetchOf 1 0x1485FFFE 0 = some 0x0040000C := by decide
theorem test_blez_zero : fetchOf 0 0x18808000 = some 0x003E0014 := by decide
theorem test_blez_negative : fetchOf 0x80000000 0x18800002 = some 0x0040001C := by decide
theorem test_bgtz_positive : fetchOf 1 0x1C800002 = some 0x0040001C := by decide
theorem test_bgtz_zero : fetchOf 0 0x1C800002 = some 0x00400010 := by decide
theorem test_bltz_negative : fetchOf 0x80000000 0x0480FFFC = some 0x00400004 := by decide
theorem test_bgez_zero : fetchOf 0 0x0481FFFC = some 0x00400004 := by decide
theorem test_j : fetchOf 0 0x08100040 = some 0x00400100 := by decide
theorem test_jal_links : fetchOf 0 0x0C100040 = some 0x00400100 ∧ aluOf 0 0 0x0C100040 = some 0x00400014 := by decide
theorem test_jr_misaligned : fetchOf 0x00400102 0x00800008 = some 0x00400102 := by decide
theorem test_jalr_old_register : fetchOf 0x00400100 0x00802009 = some 0x00400100 ∧
    aluOf 0x00400100 0 0x00802009 = some 0x00400014 := by decide
/-- J in the last word of a segment jumps within the next one (V45, at 0x0FFFFFFC). -/
theorem test_j_next_segment : jumpTarget 0x10000000 0x0000010 = 0x10000040 := by decide
-- V46
theorem test_syscall_halts :
    after1 { inWb 0x0000000C 0 0 0 0 0 with cur := { archWith 0 0 with regs := regSet (archWith 0 0).regs 2 0xA } }
      (fun t => (t.runFlag, t.instructionCount)) = some (false, 1) := by decide
theorem test_syscall_other_code_retires : after1 (inWb 0x0000000C 0 0 0 0 0) (fun t => (t.runFlag, t.instructionCount)) =
    some (true, 1) := by decide
theorem test_unimplemented_is_reported : after1 ((ready 0 0).withFetchWord 32 0x7C000000) (fun t => t.diagLog) =
    some [⟨0x00400010, 0x7C000000⟩] := by decide
/-- Register 0 is written like any other (10_state.md R22). -/
theorem test_wb_writes_r0 : after1 (inWb 0x00850020 3 0 0 0 0) (fun t => regGet t.cur.regs 0) = some 3 := by decide

/-! ### Witnesses: the hypotheses of the statements can be met, clause by clause -/

/-- The outcome is a next state. -/
def answers : Res → Bool
  | .next _ => true
  | .fault _ => false
  | .refused _ => false

theorem answers_next {o : Res} (h : answers o = true) : ∃ t, o = .next t := by
  cases o with
  | next t => exact ⟨t, rfl⟩
  | fault r => cases h
  | refused r => cases h

/-- The instruction in EX, with r4 = `a` and r5 = `b`. -/
def exState (a b w : Word) : State := { (ready a b).withFetchWord 32 w.toNat with stage := .ex }

/-- The cache holds the block at the data base, as Memory does. -/
def warm : State :=
  { ready 0 0 with
    mem := dataMem
    cache := blockSet (ready 0 0).cache 0 { valid := true, tag := 0x100000, words := #v[0x11223344, 0, 0, 0] } }

/-- A load or store in EX/MEM, about to make its access, with the block at the data base in the cache. -/
def memState (w alu b : Word) : State :=
  { warm with stage := .mem, exmem := { PipeReg.bubble with ir := w, alu := alu, b := b } }

/-- An instruction in MEM/WB. -/
def wbState (w alu b : Word) : State := { inWb w alu 0 b 7 9 with stage := .wb }

/-- ADD r3, r1, r2 in ID/EX, its two producers in EX/MEM and MEM/WB, and SYSCALL behind it, with forwarding. -/
def mid : State :=
  { ready 0 0 with
    forwardingEnabled := true
    ifid := { PipeReg.bubble with ir := 0x0000000C, pc := 0x00400010 }
    idex := { PipeReg.bubble with ir := 0x00221820, pc := 0x0040000C, imm := 0x1820 }
    exmem := { PipeReg.bubble with ir := 0x20010005, pc := 0x00400008, imm := 5, alu := 5 }
    memwb := { PipeReg.bubble with ir := 0x2002000A, pc := 0x00400004, imm := 0xA, alu := 0xA }
    selA := .fromEx
    selB := .fromMem
    exDest := 1
    exWe := true
    memDest := 2
    memWe := true }

theorem mid_pipelineInv : PipelineInv mid := by
  constructor <;> first
    | decide
    | exact And.intro rfl (And.intro (by decide) (And.intro rfl rfl))
    | exact And.intro rfl (And.intro (by decide) (And.intro (fun h => absurd h.2 (by decide)) (And.intro rfl rfl)))

/-- A stall with two bubbles to go. -/
def stalled : State := { ready 0 0 with stallCount := 2, ifid := { PipeReg.bubble with ir := 0x00221820, pc := 0x00400010 } }

theorem bubbles_pipelineInv {s : State} (hc : s.cur = s.nxt) (hb : s.branchFlag = false) (hg : s.stage = .wb)
    (hs : s.stallCount ≤ 2) (hx : s.idex = PipeReg.bubble) (hm : s.exmem = PipeReg.bubble) (hw : s.memwb = PipeReg.bubble)
    (hl : s.exDest = 0 ∧ s.exWe = false ∧ s.exLoad = false ∧ s.memDest = 0 ∧ s.memWe = false)
    (ha : s.selA = .none) (hb' : s.selB = .none) : PipelineInv s := by
  obtain ⟨h1, h2, h3, h4, h5⟩ := hl
  constructor <;> first
    | assumption
    | (rw [hx]; exact fun _ => rfl)
    | (rw [hm]; exact fun h => absurd rfl h)
    | (rw [hw]; exact fun h => absurd rfl h)
    | (rw [h1, hm]; rfl)
    | (rw [h2, hm]; rfl)
    | (rw [h3, hm]; rfl)
    | (rw [h4, hw]; rfl)
    | (rw [h5, hw]; rfl)
    | exact fun _ => ⟨ha, hb'⟩
    | (rw [ha, hx]; exact fun h => absurd h (by decide))
    | (rw [hb', hx]; exact fun h => absurd h (by decide))

/-- A taken BEQ r0, r0, 1 in ID/EX at 0x0040000C. -/
def branching : State :=
  { ready 0 0 with
    idex := { PipeReg.bubble with ir := 0x10000001, pc := 0x00400010, imm := 1 }
    ifid := { PipeReg.bubble with ir := 0x014B4821, pc := 0x00400014 } }

theorem branching_pipelineInv : PipelineInv branching := by
  constructor <;> first
    | decide
    | exact fun _ _ => And.intro (fun h => absurd h.1 (by decide)) (fun h => absurd h.1 (by decide))

theorem warm_memoryInv (w alu b : Word) : MemoryInv (memState w alu b) := by
  constructor
  · show Memory.wf dataMem
    decide
  · show ∀ c ∈ dataMem, ∃ g ∈ Config.defaultRegions, inRegion g c.1 = true
    decide

theorem warm_coherent (w alu b : Word) : CacheCoherent (memState w alu b) := by
  have h : ∀ index : BitVec 4, (blockGet warm.cache index).valid = true → index = 0 := by decide
  intro index hv _ off
  have hi := h index hv
  subst hi
  have hw : ∀ off : BitVec 2, memGetWord dataMem (blockWordAddr (blockGet warm.cache 0).tag 0 off).toNat =
      blockWord (blockGet warm.cache 0) off ∧
      regionOf Config.defaultRegions (blockWordAddr (blockGet warm.cache 0).tag 0 off) =
        some ⟨"data", 0x10000000, 0x00100000⟩ ∧
      (blockWordAddr (blockGet warm.cache 0).tag 0 off).toNat + 4 ≤ 0x10000000 + 0x00100000 := by decide
  obtain ⟨h1, h2, h3⟩ := hw off
  show memRead Config.defaultRegions dataMem (blockWordAddr (blockGet warm.cache 0).tag 0 off) = _
  rw [memRead, h2]
  exact (if_pos h3).trans (congrArg Except.ok h1)

theorem witness_DecodeOfEncodeIsTheInstruction : (Instr.add 31 31 31 31).wf ∧ (Instr.sll 0 0 0 1).wf := by decide

theorem witness_EncodeOfDecodeIsTheWord : decode 0x00853060 = .instr (.add 6 4 5 1) := by decide

theorem witness_RegisterAluComputesInEx : (exState 7 8 0x00853020).stage = .ex := rfl

theorem witness_RegisterAluPassesAndWrites :
    (memState 0x00853020 0 0).stage = .mem ∧ (wbState 0x00853020 3 0).stage = .wb := ⟨rfl, rfl⟩

theorem witness_ImmediateAluComputesInEx :
    (exState 7 0 0x2086FFFF).stage = .ex ∧ (exState 7 0 0x2086FFFF).idex.imm = BitVec.ofInt 32 (0xFFFF : Imm16).toInt ∧
    (exState 7 0 0x20868000).idex.imm = BitVec.ofInt 32 (0x8000 : Imm16).toInt := by decide

theorem witness_ImmediateAluPassesAndWrites :
    (memState 0x20860001 0 0).stage = .mem ∧ (wbState 0x20860001 3 0).stage = .wb := ⟨rfl, rfl⟩

theorem witness_LoneAluInstructionWritesItsResult :
    Quiet (ready 7 8) ∧ fetchesBubbles (ready 7 8) (ready 7 8).cur.pc ∧ (Instr.add 6 4 5 0).wf ∧
      aluResult (readReg (ready 7 8)) (.add 6 4 5 0) = some (6, 15) :=
  ⟨⟨rfl, rfl, rfl, rfl, rfl, rfl, rfl, rfl⟩, ⟨rfl, rfl, rfl⟩, by decide, by decide⟩

theorem witness_MultiplyGivesTheExactProductInEx : (exState 7 8 0x00850018).stage = .ex := rfl

/-- One state for each clause: a zero divisor, the overflow, and another division. -/
theorem witness_DivGivesQuotientAndRemainderInEx :
    (exState 7 0 0x0085001A).stage = .ex ∧ resolve (exState 7 0 0x0085001A) .none 5 = 0 ∧
    resolve (exState 0x80000000 0xFFFFFFFF 0x0085001A) .none 4 = 0x80000000 ∧
    resolve (exState 0x80000000 0xFFFFFFFF 0x0085001A) .none 5 = 0xFFFFFFFF ∧
    resolve (exState 0x80000000 1 0x0085001A) .none 5 = 1 := by decide

theorem witness_DivuGivesQuotientAndRemainderInEx :
    (exState 7 0 0x0085001B).stage = .ex ∧ resolve (exState 7 0 0x0085001B) .none 5 = 0 ∧
    resolve (exState 7 1 0x0085001B) .none 5 ≠ 0 := by decide

theorem witness_MultiplyAndDivideWriteHiLoInWb :
    (memState 0x0085001A 0 1).stage = .mem ∧ (wbState 0x0085001A 0 1).stage = .wb ∧ (wbState 0x0085001A 0 1).memwb.b ≠ 0 := by
  decide

theorem witness_DivideByZeroLeavesHiLo :
    (wbState 0x0085001A 0 0).stage = .wb ∧ (wbState 0x0085001A 0 0).memwb.b = 0 := by decide

theorem witness_HiLoMovesInTheirStages :
    (exState 7 8 0x00003010).stage = .ex ∧ (memState 0x00003010 0 0).stage = .mem ∧ (wbState 0x00003010 0 0).stage = .wb :=
  ⟨rfl, rfl, rfl⟩

/-- MFHI behind MULT, and MFLO behind MULTU. -/
theorem witness_HiLoReadSeesTheRetiringMultiply :
    (∃ t, step { inWb 0x00850018 0 0 0 7 9 with exmem := { PipeReg.bubble with ir := 0x00003010 } } = .next t) ∧
    (∃ t, step { inWb 0x00850019 0 0 0 7 9 with exmem := { PipeReg.bubble with ir := 0x00003012 } } = .next t) ∧
    decode 0x00850018 = .instr (.mult 0 4 5 0) ∧ decode 0x00003010 = .instr (.mfhi 6 0 0 0) ∧
    decode 0x00850019 = .instr (.multu 0 4 5 0) ∧ decode 0x00003012 = .instr (.mflo 6 0 0 0) :=
  ⟨answers_next (by decide), answers_next (by decide), by decide, by decide, by decide, by decide⟩

theorem witness_LoadsAndStoresComputeTheAddressInEx :
    (exState 7 0 0x8C86FFFC).stage = .ex ∧ (exState 7 0 0x8C86FFFC).idex.imm = BitVec.ofInt 32 (0xFFFC : Imm16).toInt := by
  decide

/-- A hit at the last byte of the cached block, and a miss just past it. -/
theorem witness_LoadsReadThroughTheCacheInMem :
    Config.default.wf ∧
    (memState 0x8D060000 0x1000000F 0).stage = .mem ∧ (memState 0x8D060000 0x1000000F 0).cfg.cacheEnabled = true ∧
    cacheHit (memState 0x8D060000 0x1000000F 0).cache 0x1000000F = true ∧
    cacheHit (memState 0x8D060000 0x10000010 0).cache 0x10000010 = false := by decide

/-- The first and the last address of the data region. -/
theorem witness_LoadGetsWhatMemoryHolds :
    Config.default.wf ∧ CacheCoherent (memState 0x8D060000 0x10000000 0) ∧ mapped Config.default 0x10000000 ∧
    mapped Config.default 0x100FFFFF ∧ (∃ t, exec (.lw 6 8 0) (memState 0x8D060000 0x10000000 0) = .next t) ∧
    ∃ t, exec (.lw 6 8 0) (memState 0x8D060000 0x100FFFFF 0) = .next t :=
  ⟨by decide, warm_coherent _ _ _, rfl, rfl, answers_next (by decide), answers_next (by decide)⟩

/-- A store that hits, at the last byte of the cached block; one that misses, at the last address of the data region; and one that
misses outside every region, at the first address behind it. -/
theorem witness_StoresChangeOnlyTheStoredBytes :
    Config.default.wf ∧ (memState 0xAD050000 0x1000000F 5).stage = .mem ∧
    (memState 0xAD050000 0x1000000F 5).cfg.cacheEnabled = true ∧
    (blockGet warm.cache (cacheIndex 0x1000000F)).valid = true ∧
    (blockGet warm.cache (cacheIndex 0x1000000F)).tag = cacheTag 0x1000000F ∧
    (blockGet warm.cache (cacheIndex 0x100FFFFF)).valid = false ∧ (blockGet warm.cache (cacheIndex 0x10100010)).valid = false ∧
    MemoryInv (memState 0xAD050000 0x100FFFFF 5) ∧ CacheCoherent (memState 0xAD050000 0x100FFFFF 5) ∧
    mapped Config.default 0x1000000F ∧ mapped Config.default 0x100FFFFF ∧ ¬ mapped Config.default 0x10100000 ∧
    ¬ mapped Config.default 0x10100010 :=
  ⟨by decide, rfl, rfl, by decide, by decide, by decide, by decide, warm_memoryInv _ _ _, warm_coherent _ _ _, rfl, rfl,
    by unfold mapped; decide, by unfold mapped; decide⟩

/-- Without the cache: a word that fits its region to the last byte, and one that runs past its end. -/
theorem witness_LoadsAndStoresWithoutTheCache :
    ({ memState 0 0 0 with cfg := { Config.default with cacheEnabled := false } } : State).cfg.cacheEnabled = false ∧
    memRead Config.defaultRegions dataMem 0x100FFFFC = .ok 0 ∧
    (∃ m, memWrite Config.defaultRegions dataMem 0x100FFFFC 5 = .ok m) ∧
    memRead Config.defaultRegions dataMem 0x100FFFFD = .error (.memOverrun 0x100FFFFD) :=
  ⟨rfl, rfl, ⟨_, rfl⟩, rfl⟩

theorem witness_LoadsWriteAndStoresRetireInWb : (wbState 0x8D060000 0 0).stage = .wb := rfl

/-- BEQ taken and not taken; BLEZ and BGTZ at 0, where they part. -/
theorem witness_BranchesRedirectInEx :
    (exState 7 7 0x10858000).stage = .ex ∧ (exState 7 7 0x10858000).idex.imm = BitVec.ofInt 32 (0x8000 : Imm16).toInt ∧
    resolve (exState 7 7 0x10858000) .none 4 = resolve (exState 7 7 0x10858000) .none 5 ∧
    resolve (exState 7 8 0x10858000) .none 4 ≠ resolve (exState 7 8 0x10858000) .none 5 ∧
    (resolve (exState 0 0 0x18808000) .none 4).toInt = 0 := by decide

theorem witness_JumpsRedirectInEx : (exState 0 0 0x08100040).stage = .ex := rfl

theorem witness_TransfersPassAndLink : (memState 0x0C100040 0 0).stage = .mem ∧ (wbState 0x0C100040 0 0).stage = .wb :=
  ⟨rfl, rfl⟩

/-- WB with the halt code in r2, and with another value. -/
theorem witness_SyscallHaltsOnTheHaltCode :
    (exState 0 0 0x0000000C).stage = .ex ∧ (memState 0x0000000C 0 0).stage = .mem ∧ (wbState 0x0000000C 0 0).stage = .wb ∧
    regGet (setReg 2 0xA (wbState 0x0000000C 0 0)).cur.regs 2 = 0xA ∧ regGet (wbState 0x0000000C 0 0).cur.regs 2 ≠ 0xA := by
  decide

theorem witness_UnimplementedWordIsReportedOnce :
    decode (exState 0 0 0x7C000000).idex.ir = .unimplemented ∧ decode (memState 0x7C000000 0 0).exmem.ir = .unimplemented ∧
    decode (wbState 0x7C000000 0 0).memwb.ir = .unimplemented := by decide

theorem witness_BubbleHasNoEffectInAnyStage :
    (ready 7 8).memwb.ir = 0 ∧ (ready 7 8).exmem.ir = 0 ∧ (ready 7 8).idex.ir = 0 ∧ (ready 7 8).ifid.ir = 0 ∧
    (ready 7 8).stallCount = 0 ∧ (ready 7 8).branchFlag = false := by decide

theorem witness_StepExecutesTheDecodedInstructions :
    mid.runFlag = true ∧ ({ mid with runFlag := false } : State).runFlag = false ∧
    decode mid.memwb.ir = .instr (.addi 2 0 0xA) ∧ decode mid.exmem.ir = .instr (.addi 1 0 5) ∧
    decode mid.idex.ir = .instr (.add 3 1 2 0) := by decide

theorem witness_PresentedWordIsExecutedByTheNextStep :
    decode 0x00853020 = .instr (.add 6 4 5 0) ∧ (ready 7 8).memwb.ir = 0 ∧ (ready 7 8).exmem.ir = 0 := by decide

theorem witness_FetchTakesTheWordAtTheCurrentPc :
    (∃ t, ifStage true mid = .ok t) ∧ ∃ t, ifStage false mid = .ok t := ⟨⟨_, rfl⟩, ⟨_, rfl⟩⟩

theorem witness_InstructionsWriteOnlyWhatTheirStageMay :
    (∃ t, exec (.add 6 4 5 0) (exState 7 8 0x00853020) = .next t) ∧
    (∃ t, exec (.sw 5 8 0) (memState 0xAD050000 0x10000000 5) = .next t) ∧
    ∃ t, exec (.add 6 4 5 0) (wbState 0x00853020 3 0) = .next t :=
  ⟨answers_next (by decide), answers_next (by decide), answers_next (by decide)⟩

/-- A load and an instruction without access, in MEM. -/
theorem witness_OnlyStoresChangeMemoryInMem :
    (memState 0x8D060000 0x10000000 0).stage = .mem ∧
    (∃ t, exec (.lw 6 8 0) (memState 0x8D060000 0x10000000 0) = .next t) ∧
    ∃ t, exec (.mfhi 6 0 0 0) (memState 0x00003010 0 0) = .next t :=
  ⟨rfl, answers_next (by decide), answers_next (by decide)⟩

theorem witness_WbWritesOnlyTheDestination :
    (wbState 0x00850020 3 0).stage = .wb ∧ (∃ t, exec (.add 0 4 5 0) (wbState 0x00850020 3 0) = .next t) ∧
    ∃ t, exec (.mult 0 4 5 0) (wbState 0x00850018 0 0) = .next t :=
  ⟨rfl, answers_next (by decide), answers_next (by decide)⟩

/-- A step that retires a word, and one that retires none. -/
theorem witness_EachCycleCommitsAndCounts :
    mid.runFlag = true ∧ (∃ t, step mid = .next t) ∧ mid.memwb.ir ≠ 0 ∧ (ready 7 8).runFlag = true ∧
    (∃ t, step (ready 7 8) = .next t) ∧ (ready 7 8).memwb.ir = 0 :=
  ⟨rfl, answers_next (by decide), by decide, rfl, answers_next (by decide), rfl⟩

/-- A SYSCALL in WB with the halt code in r2, and one without it. -/
theorem witness_OnlyAHaltingSyscallClearsTheRunFlag :
    (setReg 2 0xA (wbState 0x0000000C 0 0)).runFlag = true ∧ (∃ t, step (setReg 2 0xA (wbState 0x0000000C 0 0)) = .next t) ∧
    ∃ t, step (wbState 0x0000000C 0 0) = .next t :=
  ⟨rfl, answers_next (by decide), answers_next (by decide)⟩

theorem witness_HaltedMachineKeepsItsState : ({ mid with runFlag := false } : State).runFlag = false := rfl

theorem witness_DiagnosticLogRecordsUnimplementedWords :
    (exState 0 0 0x7C000000).runFlag = true ∧ (∃ t, step (exState 0 0 0x7C000000) = .next t) ∧ ∃ t, step mid = .next t :=
  ⟨rfl, answers_next (by decide), answers_next (by decide)⟩

theorem witness_StepChangesNoSetting : ∃ t, step mid = .next t := answers_next (by decide)

/-- A load in MEM that hits at the last byte of the cached block, a store that misses just behind it, a load that finds at its
index the valid block of another tag, and an instruction without access. -/
theorem witness_OneCacheAccessForEachLoadOrStore :
    (memState 0x8D060000 0x1000000F 0).runFlag = true ∧ (memState 0x8D060000 0x1000000F 0).cfg.cacheEnabled = true ∧
    decode (memState 0x8D060000 0x1000000F 0).exmem.ir = .instr (.lw 6 8 0) ∧
    decode (memState 0xAD050000 0x10000010 5).exmem.ir = .instr (.sw 5 8 0) ∧
    (blockGet warm.cache (cacheIndex 0x1000000F)).valid = true ∧
    (blockGet warm.cache (cacheIndex 0x1000000F)).tag = cacheTag 0x1000000F ∧
    (blockGet warm.cache (cacheIndex 0x10000010)).valid = false ∧
    (blockGet warm.cache (cacheIndex 0x10000100)).valid = true ∧
    (blockGet warm.cache (cacheIndex 0x10000100)).tag ≠ cacheTag 0x10000100 ∧
    (∃ t, step (memState 0x8D060000 0x1000000F 0) = .next t) ∧ (∃ t, step (memState 0xAD050000 0x10000010 5) = .next t) ∧
    (∃ t, step (memState 0x8D060000 0x10000100 0) = .next t) ∧
    decode mid.exmem.ir = .instr (.addi 1 0 5) ∧ ∃ t, step mid = .next t :=
  ⟨rfl, rfl, by decide, by decide, by decide, by decide, by decide, by decide, by decide, answers_next (by decide),
    answers_next (by decide), answers_next (by decide), by decide, answers_next (by decide)⟩

/-- The fetch at the last three bytes of the text region stops, and the one at its last word does not. -/
theorem witness_OnlyAMisalignedFetchFaults :
    Config.default.wf ∧ Config.default.cacheEnabled = true ∧
    step { ready 0 0 with cur := { archWith 0 0 with pc := 0x004FFFFD } } = .fault (.memOverrun 0x004FFFFD) ∧
    step { ready 0 0 with cur := { archWith 0 0 with pc := 0x004FFFFF } } = .fault (.memOverrun 0x004FFFFF) ∧
    (∃ t, step { ready 0 0 with cur := { archWith 0 0 with pc := 0x004FFFFC } } = .next t) ∧
    (∃ a b c, wbStage { stalled with missFlag := false } = .next a ∧ memStage a = .next b ∧ exStage b = .next c ∧
      (idStage c).2 = true) :=
  ⟨by decide, rfl, rfl, rfl, answers_next (by decide), _, _, _, rfl, rfl, rfl, rfl⟩

/-- ADD r3, r0, r0 in ID/EX behind two writers of r0, ADDI r0, r0, 7 in EX/MEM and in MEM/WB. -/
def midR0 : State :=
  { ready 0 0 with
    idex := { PipeReg.bubble with ir := 0x00001820, pc := 0x0040000C, imm := 0x1820 }
    exmem := { PipeReg.bubble with ir := 0x20000007, pc := 0x00400008, imm := 7, alu := 7 }
    memwb := { PipeReg.bubble with ir := 0x20000007, pc := 0x00400004, imm := 7, alu := 7 }
    exWe := true
    memWe := true }

theorem midR0_pipelineInv : PipelineInv midR0 := by
  constructor <;> first
    | decide
    | exact fun _ h => absurd rfl h

/-- Both operands are forwarded: r1 from EX/MEM and r2 from MEM/WB. Then both are r0, which two instructions in flight write. -/
theorem witness_OperandsAreExactInProgramOrder :
    PipelineInv mid ∧ mid.runFlag = true ∧
    (∃ a b, wbStage { mid with missFlag := false } = .next a ∧ memStage a = .next b ∧
      (traitsOfWord b.idex.ir).srcA = true ∧ rsField b.idex.ir ≠ 0 ∧ (traitsOfWord b.idex.ir).srcB = true ∧
      rtField b.idex.ir ≠ 0) ∧
    PipelineInv midR0 ∧ midR0.runFlag = true ∧
    (∃ a b, wbStage { midR0 with missFlag := false } = .next a ∧ memStage a = .next b ∧
      (traitsOfWord b.idex.ir).srcA = true ∧ rsField b.idex.ir = 0 ∧ (traitsOfWord b.idex.ir).srcB = true ∧
      rtField b.idex.ir = 0) :=
  ⟨mid_pipelineInv, rfl, ⟨_, _, rfl, rfl, by decide, by decide, by decide, by decide⟩, midR0_pipelineInv, rfl,
    ⟨_, _, rfl, rfl, by decide, by decide, by decide, by decide⟩⟩

/-- A word of each row of 30_encoding.md R116. -/
theorem witness_OperandsAreExactInProgramOrder_rows :
    decode 0x00853020 = .instr (.add 6 4 5 0) ∧ decode 0x000537C0 = .instr (.sll 6 0 5 31) ∧
    decode 0x00003010 = .instr (.mfhi 6 0 0 0) ∧ decode 0x03E0F809 = .instr (.jalr 31 31 0 0) ∧
    decode 0x20860001 = .instr (.addi 6 4 1) ∧ decode 0x3C06FFFF = .instr (.lui 6 0 0xFFFF) ∧
    decode 0x8D060000 = .instr (.lw 6 8 0) ∧ decode 0x0C100040 = .instr (.jal 0x0100040) ∧
    decode 0x00850018 = .instr (.mult 0 4 5 0) ∧ decode 0x03E00008 = .instr (.jr 0 31 0 0) ∧
    decode 0x1085FFFF = .instr (.beq 5 4 0xFFFF) ∧ decode 0x0480FFFC = .instr (.bltz 4 0xFFFC) ∧
    decode 0xAD050001 = .instr (.sw 5 8 1) ∧ decode 0x08100040 = .instr (.j 0x0100040) ∧
    decode 0x0000000D = .unimplemented ∧ decode 0x00000000 = .bubble := by decide

/-- ADD r3, r1, r2 in IF/ID with the given occupants. -/
def decoding (exDest memDest : Reg) (forwarding exLoad : Bool) : State :=
  { ready 0 0 with
    ifid := { PipeReg.bubble with ir := 0x00221820, pc := 0x00400010 }
    exDest := exDest
    exWe := true
    exLoad := exLoad
    memDest := memDest
    memWe := true
    forwardingEnabled := forwarding }

/-- The EX occupant writes r1; the MEM occupant writes r2; neither writes a source. -/
theorem witness_StallsWithoutForwarding :
    (decoding 1 2 false false).stallCount = 0 ∧ (decoding 1 2 false false).branchFlag = false ∧
    (decoding 1 2 false false).ifid.ir ≠ 0 ∧ (decoding 1 2 false false).forwardingEnabled = false ∧
    (decoding 1 2 false false).exLoad = false ∧ (traitsOfWord (decoding 1 2 false false).ifid.ir).srcA = true ∧
    rsField (decoding 1 2 false false).ifid.ir = (decoding 1 2 false false).exDest ∧
    (traitsOfWord (decoding 3 2 false false).ifid.ir).srcB = true ∧
    rtField (decoding 3 2 false false).ifid.ir = (decoding 3 2 false false).memDest ∧
    rsField (decoding 3 4 false false).ifid.ir ≠ 3 ∧ rtField (decoding 3 4 false false).ifid.ir ≠ 4 := by decide

/-- r1 comes from the EX occupant and r2 from the MEM occupant; with other occupants both come from the register file. -/
theorem witness_SelectorsWithForwarding :
    (decoding 1 2 true false).stallCount = 0 ∧ (decoding 1 2 true false).branchFlag = false ∧
    (decoding 1 2 true false).ifid.ir ≠ 0 ∧ (decoding 1 2 true false).forwardingEnabled = true ∧
    (decoding 1 2 true false).exLoad = false ∧ (idStage (decoding 1 2 true false)).1.selA = .fromEx ∧
    (idStage (decoding 1 2 true false)).1.selB = .fromMem ∧ (idStage (decoding 3 4 true false)).1.selA = .none := by decide

/-- ID latches the PC, the snapshots and the immediate (by hand from 40_pipeline.md R155): ADD r3, r4, r5 passes with them,
and under a stall bubble they are latched too. -/
theorem test_id_latches :
    (idStage { ready 7 8 with ifid := { PipeReg.bubble with ir := 0x00851820, pc := 0x00400010 } }).1.idex =
      ⟨0x00851820, 0x00400010, 7, 8, 0x1820, 0, 0, 0, 0⟩ ∧
    (idStage { ready 7 8 with ifid := { PipeReg.bubble with ir := 0x00851820, pc := 0x00400010 }, exLoad := true }).1.idex =
      ⟨0, 0x00400010, 7, 8, 0x1820, 0, 0, 0, 0⟩ := by decide

/-- A load ahead that writes no source, in both modes. -/
theorem witness_LoadUseStallIsUnconditional :
    (decoding 3 4 true true).stallCount = 0 ∧ (decoding 3 4 true true).branchFlag = false ∧
    (decoding 3 4 true true).ifid.ir ≠ 0 ∧ (decoding 3 4 true true).exLoad = true ∧
    (decoding 3 4 true true).forwardingEnabled = true ∧ (decoding 3 4 false true).exLoad = true ∧
    (decoding 3 4 false true).forwardingEnabled = false ∧
    rsField (decoding 3 4 false true).ifid.ir ≠ (decoding 3 4 false true).exDest ∧
    rtField (decoding 3 4 false true).ifid.ir ≠ (decoding 3 4 false true).exDest ∧
    rsField (decoding 3 4 false true).ifid.ir ≠ (decoding 3 4 false true).memDest ∧
    rtField (decoding 3 4 false true).ifid.ir ≠ (decoding 3 4 false true).memDest := by decide

theorem witness_OutstandingStallHoldsTheFetch :
    PipelineInv stalled ∧ stalled.runFlag = true ∧ stalled.stallCount = 1 + 1 ∧ ∃ t, step stalled = .next t :=
  ⟨bubbles_pipelineInv rfl rfl rfl (by decide) rfl rfl rfl ⟨rfl, rfl, rfl, rfl, rfl⟩ rfl rfl, rfl, rfl,
    answers_next (by decide)⟩

theorem witness_TakenTransferFlushesExactlyOne :
    PipelineInv branching ∧ branching.runFlag = true ∧
    (∃ a b c, wbStage { branching with missFlag := false } = .next a ∧ memStage a = .next b ∧ exStage b = .next c ∧
      c.branchFlag = true) ∧
    ∃ t, step branching = .next t :=
  ⟨branching_pipelineInv, rfl, ⟨_, _, _, rfl, rfl, rfl, rfl⟩, answers_next (by decide)⟩

theorem witness_StepKeepsThePipelineInvariant : PipelineInv mid ∧ ∃ t, step mid = .next t :=
  ⟨mid_pipelineInv, answers_next (by decide)⟩

/-- The first and the last byte of one word. -/
theorem witness_AddressesSplitIntoTagIndexAndOffset : (0x1000000C : Word).toNat / 4 = (0x1000000F : Word).toNat / 4 := by decide

/-- The last word of a region, the addresses behind it that overrun, and an address outside every region. -/
theorem witness_WordAccessesAreLittleEndian :
    Memory.wf dataMem ∧ regionOf Config.defaultRegions 0x00500000 = none ∧
    regionOf Config.defaultRegions 0x004FFFFC = some ⟨"text", 0x00400000, 0x00100000⟩ ∧
    (0x004FFFFC : Word).toNat + 4 = 0x00400000 + 0x00100000 ∧
    regionOf Config.defaultRegions 0x004FFFFD = some ⟨"text", 0x00400000, 0x00100000⟩ := by decide

theorem witness_LoadAfterStoreGetsTheMergedWord :
    warm.cfg.cacheEnabled = true ∧ (∃ r, dataRead 0x10000003 warm = .ok r) ∧
    ∃ t, dataWrite 0x10000003 0xAB .byte warm = .ok t := ⟨rfl, ⟨_, rfl⟩, ⟨_, rfl⟩⟩

theorem witness_StepKeepsTheMemoryInvariant :
    MemoryInv (memState 0xAD050000 0x10000000 5) ∧ ∃ t, step (memState 0xAD050000 0x10000000 5) = .next t :=
  ⟨warm_memoryInv _ _ _, answers_next (by decide)⟩

theorem witness_StepKeepsTheCacheCoherent :
    Config.default.wf ∧ MemoryInv (memState 0xAD050000 0x10000010 5) ∧ CacheCoherent (memState 0xAD050000 0x10000010 5) ∧
    ∃ t, step (memState 0xAD050000 0x10000010 5) = .next t :=
  ⟨by decide, warm_memoryInv _ _ _, warm_coherent _ _ _, answers_next (by decide)⟩

theorem witness_HostResetKeepsOnlyTheForwardingMode : ∃ t, hostReset [0x20010005, 0x0000000C] mid = .ok t := ⟨_, rfl⟩

/-- Two words at the base of the text region. -/
theorem witness_LoadedProgramIsDumpedBack :
    ([0x20010005, 0x0000000C] : List Word) ≠ [] ∧ mid.cfg.textBase.toNat + 4 * 2 ≤ 2 ^ 32 ∧
    (∀ i < 2, ∃ g, regionOf mid.cfg.regions (mid.cfg.textBase + BitVec.ofNat 32 (4 * i)) = some g ∧
      mid.cfg.textBase.toNat + 4 * i + 4 ≤ g.base + g.size) ∧
    ∃ t, hostReset [0x20010005, 0x0000000C] mid = .ok t := by
  refine ⟨by decide, by decide, fun i hi => ⟨⟨"text", 0x00400000, 0x00100000⟩, ?_⟩, ⟨_, rfl⟩⟩
  revert i
  decide

/-- No word, one word with the bound at its last byte, and two words. -/
theorem witness_HostCommandsSetAndDump :
    (0x10000000 : Word).toNat < (0x10000004 : Word).toNat ∧
    (0x10000003 : Word).toNat < (0x10000000 : Word).toNat + 4 ∧
    memRead warm.cfg.regions warm.mem 0x10000000 = .ok 0x11223344 ∧
    (0x10000000 : Word).toNat + 4 ≤ (0x10000004 : Word).toNat ∧
    memoryDump (0x10000000 + 4) 0x10000004 warm = .ok [(0x10000004, 0)] :=
  ⟨by decide, by decide, rfl, by decide, rfl⟩

/-- A run that halts in its one cycle. -/
theorem witness_BoundedRunWithoutPenaltyIsRunAll :
    (setReg 2 0xA (wbState 0x0000000C 0 0)).penaltyRemaining = 0 ∧
    ∃ o, runAll 1 (setReg 2 0xA (wbState 0x0000000C 0 0)) = some o := ⟨rfl, ⟨_, rfl⟩⟩

/-- A penalty that is owed, a cycle with a miss and one that faults when none is, and a running and a halted machine. -/
theorem witness_PenaltyCycleOnlyCounts :
    0 < ({ mid with penaltyRemaining := 3 } : State).penaltyRemaining ∧
    (memState 0x8D060000 0x10000010 0).penaltyRemaining = 0 ∧
    (∃ t, step (memState 0x8D060000 0x10000010 0) = .next t) ∧
    step { ready 0 0 with cur := { archWith 0 0 with pc := 0x004FFFFD } } = .fault (.memOverrun 0x004FFFFD) ∧
    mid.runFlag = true ∧ ({ mid with runFlag := false } : State).runFlag = false :=
  ⟨by decide, rfl, answers_next (by decide), rfl, rfl, rfl⟩

end Sys2Proof.Tests
end

section
/-! PROOF. How the cache splits an address (20_memory.md R70), and that its operations see an address only through that split. -/

namespace Sys2Proof.Machine

/-! ### The parts of an address as numbers (R70) -/

theorem cacheIndex_toNat (a : Word) : (cacheIndex a).toNat = a.toNat / 16 % 16 := by
  rw [cacheIndex, BitVec.extractLsb'_toNat, Nat.shiftRight_eq_div_pow]

/-- The tag is the top of the word: nothing above bit 31 is cut off. -/
theorem cacheTag_toNat (a : Word) : (cacheTag a).toNat = a.toNat / 256 := by
  rw [cacheTag, BitVec.extractLsb'_toNat, Nat.shiftRight_eq_div_pow]
  have := a.isLt
  omega

theorem cacheOffset_toNat (a : Word) : (cacheOffset a).toNat = a.toNat / 4 % 4 := by
  rw [cacheOffset, BitVec.extractLsb'_toNat, Nat.shiftRight_eq_div_pow]

/-- The block's address is the address with its low four bits cleared. -/
theorem cacheBase_toNat (a : Word) : (cacheBase a).toNat = a.toNat / 16 * 16 := by
  rw [cacheBase, BitVec.toNat_append, ← Nat.shiftLeft_add_eq_or_of_lt (BitVec.isLt _), BitVec.extractLsb'_toNat,
    Nat.shiftRight_eq_div_pow, Nat.shiftLeft_eq, BitVec.toNat_ofNat]
  have := a.isLt
  omega

/-! ### Two addresses of one word (R70: bits [1:0] play no part) -/

section SameWord
variable {a b : Word} (h : a.toNat / 4 = b.toNat / 4)
include h

theorem cacheIndex_eq_of_sameWord : cacheIndex a = cacheIndex b := by
  apply BitVec.eq_of_toNat_eq
  rw [cacheIndex_toNat, cacheIndex_toNat]
  omega

theorem cacheTag_eq_of_sameWord : cacheTag a = cacheTag b := by
  apply BitVec.eq_of_toNat_eq
  rw [cacheTag_toNat, cacheTag_toNat]
  omega

theorem cacheOffset_eq_of_sameWord : cacheOffset a = cacheOffset b := by
  apply BitVec.eq_of_toNat_eq
  rw [cacheOffset_toNat, cacheOffset_toNat, h]

theorem cacheBase_eq_of_sameWord : cacheBase a = cacheBase b := by
  apply BitVec.eq_of_toNat_eq
  rw [cacheBase_toNat, cacheBase_toNat]
  omega

theorem cacheHit_eq_of_sameWord (c : Vector CacheBlock 16) : cacheHit c a = cacheHit c b := by
  rw [cacheHit, cacheHit, cacheIndex_eq_of_sameWord h, cacheTag_eq_of_sameWord h]

theorem cacheAccess_eq_of_sameWord (s : State) : cacheAccess a s = cacheAccess b s := by
  rw [cacheAccess, cacheAccess, cacheHit_eq_of_sameWord h, cacheBase_eq_of_sameWord h, cacheIndex_eq_of_sameWord h,
    cacheTag_eq_of_sameWord h]

theorem cacheRead_eq_of_sameWord (s : State) : cacheRead a s = cacheRead b s := by
  simp only [cacheRead, cacheAccess_eq_of_sameWord h, cacheIndex_eq_of_sameWord h, cacheOffset_eq_of_sameWord h]

theorem cacheWrite_eq_of_sameWord (v : Word) (width : Width) (s : State) :
    cacheWrite a v width s = cacheWrite b v width s := by
  simp only [cacheWrite, cacheAccess_eq_of_sameWord h, cacheIndex_eq_of_sameWord h, cacheOffset_eq_of_sameWord h,
    cacheBase_eq_of_sameWord h]

end SameWord

/-- Settles O49: each part is read off as a number, and two addresses of one word have the same parts, which are all that a
cache operation takes from its address. -/
theorem addressesSplitIntoTagIndexAndOffset : Obligations.AddressesSplitIntoTagIndexAndOffset := by
  unfold Obligations.AddressesSplitIntoTagIndexAndOffset
  intro a
  refine ⟨cacheIndex_toNat a, cacheTag_toNat a, cacheOffset_toNat a, cacheBase_toNat a, ?_⟩
  intro b s h
  exact ⟨cacheAccess_eq_of_sameWord h s, cacheRead_eq_of_sameWord h s,
    fun v width => cacheWrite_eq_of_sameWord h v width s⟩

end Sys2Proof.Machine
end

section
/-! PROOF. Which instruction a word is, read off its fields (30_encoding.md R100, R110, R111), and the worked encodings R122. -/

namespace Sys2Proof

/-! ### The rows of the maps that the worked encodings use -/

section Fields
variable {w : Word} {rs rt rd : Reg} {sa : Shamt} {imm : Imm16} {code : SysCode}

/-- Row 0x08 of the primary map R110. Its `op` alone shows that the word is no bubble. -/
theorem decode_eq_addi (hop : opField w = 0x08) (hrs : rsField w = rs) (hrt : rtField w = rt) (himm : immField w = imm) :
    decode w = .instr (.addi rt rs imm) := by
  have hne : w ≠ 0 := by
    rintro rfl
    exact absurd hop (by decide)
  rw [decode, if_neg hne, decodePrimary, hop, hrs, hrt, himm]
  rfl

/-- Row 0x00 of the primary map R110: any word but the bubble is left to the SPECIAL map. -/
theorem decode_eq_decodeSpecial (hne : w ≠ 0) (hop : opField w = 0x00) : decode w = decodeSpecial w := by
  rw [decode, if_neg hne, decodePrimary, hop]
  rfl

/-- A word with a nonzero `fn` is no bubble, so `op = 0` suffices for the SPECIAL map. -/
theorem ne_zero_of_fnField_ne_zero (hfn : fnField w ≠ 0) : w ≠ 0 := by
  rintro rfl
  exact hfn rfl

/-- Row 0x20 of the SPECIAL map R111. -/
theorem decode_eq_add (hop : opField w = 0x00) (hrs : rsField w = rs) (hrt : rtField w = rt) (hrd : rdField w = rd)
    (hsa : saField w = sa) (hfn : fnField w = 0x20) : decode w = .instr (.add rd rs rt sa) := by
  have hne : w ≠ 0 := ne_zero_of_fnField_ne_zero (by rw [hfn]; decide)
  rw [decode_eq_decodeSpecial hne hop, decodeSpecial, hfn, hrs, hrt, hrd, hsa]
  rfl

/-- Row 0x0C of the SPECIAL map R111; of the other fields only bits [25:6] are kept (R115). -/
theorem decode_eq_syscall (hop : opField w = 0x00) (hcode : codeField w = code) (hfn : fnField w = 0x0C) :
    decode w = .instr (.syscall code) := by
  have hne : w ≠ 0 := ne_zero_of_fnField_ne_zero (by rw [hfn]; decide)
  rw [decode_eq_decodeSpecial hne hop, decodeSpecial, hfn, hcode]
  rfl

end Fields

/-- Settles O3: the fields of each word are cut out of its bits, and the instruction is the map's row for those fields. -/
theorem workedEncodingsDecode : Obligations.WorkedEncodingsDecode := by
  unfold Obligations.WorkedEncodingsDecode
  refine ⟨?addi_r1, ?addi_r2, ?add, ?syscall⟩
  case addi_r1 => exact ⟨rfl, rfl, rfl, rfl, decode_eq_addi rfl rfl rfl rfl⟩
  case addi_r2 => exact ⟨rfl, rfl, rfl, rfl, decode_eq_addi rfl rfl rfl rfl⟩
  case add => exact ⟨rfl, rfl, rfl, rfl, rfl, rfl, decode_eq_add rfl rfl rfl rfl rfl rfl⟩
  case syscall => exact ⟨rfl, rfl, rfl, rfl, rfl, rfl, decode_eq_syscall rfl rfl rfl⟩

end Sys2Proof
end

section
/-! PROOF. A stage executes the instruction in its input register (30_encoding.md R114), a cycle is the five stages and the commit
in their order (40_pipeline.md R131), and IF fetches at the current PC (R140). -/

namespace Sys2Proof.Machine

/-! ### WB, MEM and EX on an instruction -/

theorem wbStage_of_decode {s : State} {i : Instr} (h : decode s.memwb.ir = .instr i) :
    wbStage s = exec i (atStage .wb s) := by
  rw [wbStage, h]

theorem memStage_of_decode {s : State} {i : Instr} (h : decode s.exmem.ir = .instr i) :
    memStage s = exec i (atStage .mem s) := by
  rw [memStage, h]

theorem exStage_of_decode {s : State} {i : Instr} (h : decode s.idex.ir = .instr i) :
    exStage s = exec i (atStage .ex s) := by
  rw [exStage, h]

/-! ### The order of a cycle -/

/-- Two sequences agree if their second parts agree on every state that the first part may answer. -/
theorem andThen_congr {o : Res} {f g : State → Res} (h : ∀ s, f s = g s) : andThen o f = andThen o g := by
  rw [funext h]

theorem finishCycle_of_fetch {s t : State} (h : ifStage (idStage s).2 (idStage s).1 = .ok t) :
    finishCycle s = .next (atStage .wb (commit t)) := by
  simp only [finishCycle, h]

theorem finishCycle_of_fault {s : State} {f : Fault} (h : ifStage (idStage s).2 (idStage s).1 = .error f) :
    finishCycle s = .fault f := by
  simp only [finishCycle, h]

/-- The driver `Cycle()` of a machine that runs (R131, R138). -/
theorem cycle_running {s : State} (h : s.runFlag = true) :
    cycle s =
      andThen (wbStage { s with missFlag := false }) fun a =>
        andThen (memStage a) fun b => andThen (exStage b) finishCycle := by
  rw [cycle, if_pos h]

/-- Settles O29: the stages of a running cycle stand in the stated order, its end is a commit or the fetch's fault, and each of
WB, MEM and EX is `exec` where its input register decodes to an instruction. -/
theorem stepExecutesTheDecodedInstructions : Obligations.StepExecutesTheDecodedInstructions := by
  unfold Obligations.StepExecutesTheDecodedInstructions
  intro s
  refine ⟨cycle_halted, ?running, fun _ => wbStage_of_decode, fun _ => memStage_of_decode, fun _ => exStage_of_decode⟩
  case running =>
    intro hrun
    rw [step, cycle_running hrun]
    refine andThen_congr fun a => andThen_congr fun b => andThen_congr fun c => ?_
    cases hfetch : ifStage (idStage c).2 (idStage c).1 with
    | ok u => exact finishCycle_of_fetch hfetch
    | error f => exact finishCycle_of_fault hfetch

/-! ### IF -/

/-- Settles O31: of the two things that IF can do, the stall flag chooses one, and the word it fetches is IF/ID's `ir`. -/
theorem fetchTakesTheWordAtTheCurrentPc : Obligations.FetchTakesTheWordAtTheCurrentPc := by
  unfold Obligations.FetchTakesTheWordAtTheCurrentPc
  intro s t stalled hif
  obtain ⟨rfl, ht⟩ | ⟨w, rfl, hread, rfl⟩ := ifStage_cases hif
  · exact ⟨fun _ => ht, fun h => nomatch h⟩
  · exact ⟨fun h => (nomatch h), fun _ => ⟨hread, rfl⟩⟩

end Sys2Proof.Machine
end

section
/-! PROOF. The decoder and the encoder are inverse to each other (30_encoding.md R100, R101, R114), and the words that no
map R110, R111 or R113 has. -/

namespace Sys2Proof

/-! ### From the instruction to its word and back -/

theorem decode_of_ne_zero {w : Word} (h : w ≠ 0) : decode w = decodePrimary w := if_neg h

/-- Only the ill-formed SLL has the word of a bubble (R114): any other word has a nonzero `op` or a nonzero `fn`. -/
theorem encode_ne_zero {i : Instr} (hwf : i.wf) : encode i ≠ 0 := by
  intro h0
  have hop : opField (encode i) = 0 := by rw [h0]; rfl
  have hfn : fnField (encode i) = 0 := by rw [h0]; rfl
  cases i with
  | sll rd rs rt sa => exact Laws.NonzeroWord.sll rd rs rt sa hwf h0
  | _ => simp [encode] at hop hfn

/-- The maps select on the fields that the encoder has set, and the instruction's own fields are read back. -/
theorem decodePrimary_encode (i : Instr) : decodePrimary (encode i) = .instr i := by
  cases i <;> simp [encode, decodePrimary, decodeSpecial, decodeRegimm]

theorem decode_encode {i : Instr} (hwf : i.wf) : decode (encode i) = .instr i := by
  rw [decode_of_ne_zero (encode_ne_zero hwf), decodePrimary_encode]

/-- Settles O1: a well-formed instruction's word is no bubble, so the maps decide it. -/
theorem decodeOfEncodeIsTheInstruction : Obligations.DecodeOfEncodeIsTheInstruction := by
  unfold Obligations.DecodeOfEncodeIsTheInstruction
  exact fun i => decode_encode

/-! ### From the word to its instruction and back: a word is its fields, side by side (R100) -/

section Fields
variable {w : Word} {op fn : BitVec 6} {rt : Reg}

theorem rWord_fields (hop : opField w = 0) (hfn : fnField w = fn) :
    rWord (rdField w) (rsField w) (rtField w) (saField w) fn = w := by
  subst hfn
  rw [rWord, ← show opField w = 0#6 from hop]
  apply BitVec.eq_of_getLsbD_eq
  intro i hi
  simp only [opField, rsField, rtField, rdField, saField, fnField, BitVec.getLsbD_extractLsb', BitVec.getLsbD_append]
  interval_cases i <;> simp

theorem iWord_fields (hop : opField w = op) (hrt : rtField w = rt) : iWord op rt (rsField w) (immField w) = w := by
  subst hop hrt
  apply BitVec.eq_of_getLsbD_eq
  intro i hi
  simp only [iWord, opField, rsField, rtField, immField, BitVec.getLsbD_extractLsb', BitVec.getLsbD_append]
  interval_cases i <;> simp

theorem jWord_fields (hop : opField w = op) : jWord op (targetField w) = w := by
  subst hop
  apply BitVec.eq_of_getLsbD_eq
  intro i hi
  simp only [jWord, opField, targetField, BitVec.getLsbD_extractLsb', BitVec.getLsbD_append]
  interval_cases i <;> simp

theorem sysWord_fields (hop : opField w = 0) (hfn : fnField w = fn) : sysWord (codeField w) fn = w := by
  subst hfn
  rw [sysWord, ← show opField w = 0#6 from hop]
  apply BitVec.eq_of_getLsbD_eq
  intro i hi
  simp only [opField, codeField, fnField, BitVec.getLsbD_extractLsb', BitVec.getLsbD_append]
  interval_cases i <;> simp

end Fields

/-- A row of the SPECIAL map R111 drops no bit of the word. -/
theorem encode_of_decodeSpecial {w : Word} {i : Instr} (hop : opField w = 0) (h : decodeSpecial w = .instr i) :
    encode i = w := by
  unfold decodeSpecial at h
  split at h
  case h_6 hfn => cases h; exact sysWord_fields hop (BitVec.eq_of_toNat_eq hfn)
  case h_24 => cases h
  all_goals
    next hfn => cases h; exact rWord_fields hop (BitVec.eq_of_toNat_eq hfn)

/-- Nor does a row of the REGIMM map R113. -/
theorem encode_of_decodeRegimm {w : Word} {i : Instr} (hop : opField w = 1) (h : decodeRegimm w = .instr i) :
    encode i = w := by
  unfold decodeRegimm at h
  split at h
  case h_3 => cases h
  all_goals
    next hrt => cases h; exact iWord_fields hop (BitVec.eq_of_toNat_eq hrt)

/-- Nor does a row of the primary map R110. -/
theorem encode_of_decodePrimary {w : Word} {i : Instr} (h : decodePrimary w = .instr i) : encode i = w := by
  unfold decodePrimary at h
  split at h
  case h_1 hop => exact encode_of_decodeSpecial (BitVec.eq_of_toNat_eq hop) h
  case h_2 hop => exact encode_of_decodeRegimm (BitVec.eq_of_toNat_eq hop) h
  case h_3 hop => cases h; exact jWord_fields (BitVec.eq_of_toNat_eq hop)
  case h_4 hop => cases h; exact jWord_fields (BitVec.eq_of_toNat_eq hop)
  case h_22 => cases h
  all_goals
    next hop => cases h; exact iWord_fields (BitVec.eq_of_toNat_eq hop) rfl

/-- A word that decodes to an instruction is no bubble. -/
theorem ne_zero_of_decode {w : Word} {i : Instr} (h : decode w = .instr i) : w ≠ 0 := by
  rintro rfl
  cases h

theorem encode_of_decode {w : Word} {i : Instr} (h : decode w = .instr i) : encode i = w :=
  encode_of_decodePrimary (decode_of_ne_zero (ne_zero_of_decode h) ▸ h)

/-- Settles O2: each row of the maps puts the word's fields back where they stood, and the ill-formed SLL would come from the
bubble. -/
theorem encodeOfDecodeIsTheWord : Obligations.EncodeOfDecodeIsTheWord := by
  unfold Obligations.EncodeOfDecodeIsTheWord
  intro w i h
  refine ⟨encode_of_decode h, ?_⟩
  rintro rfl
  exact ne_zero_of_decode h (encode_of_decode h).symm

/-! ### The words outside the maps (R117) -/

theorem decodeSpecial_eq_unimplemented_iff (w : Word) :
    decodeSpecial w = .unimplemented ↔
      fnField w ∉ ([0x00, 0x02, 0x03, 0x08, 0x09, 0x0C, 0x10, 0x11, 0x12, 0x13, 0x18, 0x19, 0x1A, 0x1B, 0x20, 0x21, 0x22,
        0x23, 0x24, 0x25, 0x26, 0x27, 0x2A] : List (BitVec 6)) := by
  unfold decodeSpecial
  split <;> simp_all [← BitVec.toNat_inj]

theorem decodeRegimm_eq_unimplemented_iff (w : Word) : decodeRegimm w = .unimplemented ↔ rtField w ≠ 0 ∧ rtField w ≠ 1 := by
  unfold decodeRegimm
  split <;> simp_all [← BitVec.toNat_inj]

theorem decodePrimary_eq_unimplemented_iff (w : Word) :
    decodePrimary w = .unimplemented ↔
      (opField w = 0 ∧ decodeSpecial w = .unimplemented) ∨ (opField w = 1 ∧ decodeRegimm w = .unimplemented) ∨
      opField w ∉ ([0x00, 0x01, 0x02, 0x03, 0x04, 0x05, 0x06, 0x07, 0x08, 0x09, 0x0A, 0x0C, 0x0D, 0x0E, 0x0F, 0x20, 0x21, 0x23,
        0x28, 0x29, 0x2B] : List (BitVec 6)) := by
  unfold decodePrimary
  split <;> simp_all [← BitVec.toNat_inj]

/-- Settles O4: the bubble is in none of the three sets of words, and of any other word each map answers for its own selector. -/
theorem unimplementedWordsAreThoseOutsideTheMaps : Obligations.UnimplementedWordsAreThoseOutsideTheMaps := by
  unfold Obligations.UnimplementedWordsAreThoseOutsideTheMaps
  intro w
  by_cases hw : w = 0
  · subst hw
    decide
  · rw [decode_of_ne_zero hw, decodePrimary_eq_unimplemented_iff, decodeSpecial_eq_unimplemented_iff,
      decodeRegimm_eq_unimplemented_iff]
    simp only [ne_eq, hw, not_false_eq_true, true_and]

end Sys2Proof
end

section
/-! PROOF. What each stage of a cycle leaves alone and what it latches, in a shape that every rule of the whole machine uses
(40_pipeline.md R132, R170, R176). -/

namespace Sys2Proof.Machine

/-! ### The frames of the stages (R132) -/

theorem wbFrame_refl (s : State) : WbFrame s s := by
  constructor
  case toSameSettings => exact ⟨rfl, rfl, rfl⟩
  case toSameMemory => exact ⟨rfl, rfl, rfl, rfl, rfl⟩
  all_goals rfl

/-- WB writes nothing but what its frame allows, whatever the word in MEM/WB is. -/
theorem wbStage_frame {s t : State} (h : wbStage s = .next t) : WbFrame (atStage .wb s) t := by
  rcases wbStage_cases s with ⟨-, e⟩ | ⟨b, -, e⟩ <;> cases e.symm.trans h
  · exact wbFrame_refl _
  · exact performWb_frame _ b _

/-- So does MEM. -/
theorem memStage_frame {s t : State} (h : memStage s = .next t) : MemFrame (atStage .mem s) t := by
  rcases memStage_cases s with ⟨-, e⟩ | ⟨m, -, e⟩
  · cases e.symm.trans h
    constructor
    case toSameSettings => exact ⟨rfl, rfl, rfl⟩
    all_goals rfl
  · exact performMem_frame (ofExcept_next_iff.mp (e.symm.trans h))

/-- And EX. -/
theorem exStage_frame {s t : State} (h : exStage s = .next t) : ExFrame (atStage .ex s) t := by
  rcases exStage_cases s with ⟨-, e⟩ | ⟨f, -, e⟩ <;> cases e.symm.trans h
  · constructor
    case toSameSettings => exact ⟨rfl, rfl, rfl⟩
    case toSameMemory => exact ⟨rfl, rfl, rfl, rfl, rfl⟩
    all_goals rfl
  · exact performEx_frame _ _ _ f _

/-- IF writes IF/ID and the next PC, and nothing else. -/
theorem ifStage_writes {stalled : Bool} {s t : State} (h : ifStage stalled s = .ok t) :
    ∃ f n, t = { s with ifid := f, nxt := n } := by
  rcases ifStage_cases h with ⟨-, rfl⟩ | ⟨w, -, -, rfl⟩
  · exact ⟨_, _, rfl⟩
  · exact ⟨_, _, rfl⟩

/-! ### What a stage hands on (R170, R176) -/

/-- MEM moves the word of EX/MEM to MEM/WB, with its immediate, and refreshes the latches of its occupant. -/
theorem memStage_memwb {s t : State} (h : memStage s = .next t) :
    t.memwb.ir = s.exmem.ir ∧ (t.memwb.ir ≠ 0 → t.memwb.imm = s.exmem.imm) ∧
      t.memDest = (traitsOfWord t.memwb.ir).dest ∧ t.memWe = (traitsOfWord t.memwb.ir).we := by
  rcases memStage_cases s with ⟨h0, e⟩ | ⟨m, -, e⟩
  · cases e.symm.trans h
    exact ⟨h0.symm, fun hne => absurd rfl hne, rfl, rfl⟩
  · rcases performMem_cases (ofExcept_next_iff.mp (e.symm.trans h)) with
      ⟨-, rfl⟩ | ⟨width, w, u, -, hr, rfl⟩ | ⟨width, -, hw⟩ | ⟨-, rfl⟩ | ⟨-, rfl⟩
    · exact ⟨rfl, fun _ => rfl, rfl, rfl⟩
    · rw [dataRead_sameButMemory hr]
      exact ⟨rfl, fun _ => rfl, rfl, rfl⟩
    · rw [dataWrite_sameButMemory hw]
      exact ⟨rfl, fun _ => rfl, rfl, rfl⟩
    · exact ⟨rfl, fun _ => rfl, rfl, rfl⟩
    · exact ⟨rfl, fun _ => rfl, rfl, rfl⟩

/-- EX moves the word of ID/EX to EX/MEM, with its immediate, and refreshes the latches of its occupant. -/
theorem exStage_exmem {s t : State} (h : exStage s = .next t) :
    t.exmem.ir = s.idex.ir ∧ (t.exmem.ir ≠ 0 → t.exmem.imm = s.idex.imm) ∧
      t.exDest = (traitsOfWord t.exmem.ir).dest ∧ t.exWe = (traitsOfWord t.exmem.ir).we ∧
      t.exLoad = (traitsOfWord t.exmem.ir).isLoad := by
  rcases exStage_cases s with ⟨h0, e⟩ | ⟨f, -, e⟩ <;> cases e.symm.trans h
  · exact ⟨h0.symm, fun hne => absurd rfl hne, rfl, rfl, rfl⟩
  · exact ⟨rfl, fun _ => rfl, rfl, rfl, rfl⟩

/-- EX on a bubble takes no transfer (R136). -/
theorem exStage_bubble_branchFlag {s t : State} (h : exStage s = .next t) (h0 : s.idex.ir = 0) :
    t.branchFlag = s.branchFlag ∧ t.cur = s.cur := by
  rcases exStage_cases s with ⟨-, e⟩ | ⟨f, hne, -⟩
  · cases e.symm.trans h
    exact ⟨rfl, rfl⟩
  · exact absurd h0 hne

/-- A step of a running machine: WB, MEM and EX answer `a`, `b` and `c`, ID leaves the state of `idStage c`, and IF and the commit
write IF/ID, both generations, the cycle count and the field `stage` (40_pipeline.md R131, R132, R135). -/
theorem step_stages {s t : State} (hrun : s.runFlag = true) (h : step s = .next t) :
    ∃ a b c f n, wbStage { s with missFlag := false } = .next a ∧ memStage a = .next b ∧ exStage b = .next c ∧
      ifStage (idStage c).2 (idStage c).1 = .ok { (idStage c).1 with ifid := f, nxt := n } ∧
      t = { (idStage c).1 with
        ifid := f, nxt := n, cur := n, cycleCount := (idStage c).1.cycleCount + 1, stage := .wb } := by
  obtain ⟨a, b, c, u, ha, hb, hc, hu, rfl⟩ := (cycle_next_iff hrun).mp h
  obtain ⟨f, n, rfl⟩ := ifStage_writes hu
  exact ⟨a, b, c, f, n, ha, hb, hc, hu, rfl⟩

end Sys2Proof.Machine
end

section
/-! PROOF. The invariant of the pipeline between cycles (10_state.md R21, R42; 40_pipeline.md R143, R150 to R157). -/

namespace Sys2Proof.Machine

/-! ### The hazard comparisons and the selectors, read as facts about the older instructions (R152, R155) -/

/-- The occupant latches describe EX/MEM and MEM/WB (10_state.md R42), as they do between cycles and again when ID runs. -/
structure OccupantsLatched (s : State) : Prop where
  exDest : s.exDest = (traitsOfWord s.exmem.ir).dest
  exWe : s.exWe = (traitsOfWord s.exmem.ir).we
  exLoad : s.exLoad = (traitsOfWord s.exmem.ir).isLoad
  memDest : s.memDest = (traitsOfWord s.memwb.ir).dest
  memWe : s.memWe = (traitsOfWord s.memwb.ir).we

section Occupants
variable {s : State} (h : OccupantsLatched s) {reads : Bool} {r : Reg}
include h

theorem exHit_iff : exHit s r = true ↔ r ≠ 0 ∧ writesReg s.exmem.ir r := by
  simp only [exHit, writesReg, ← h.exDest, ← h.exWe, Bool.and_eq_true, bne_iff_ne, beq_iff_eq]
  constructor
  · rintro ⟨⟨hwe, hne⟩, rfl⟩
    exact ⟨hne, hwe, rfl⟩
  · rintro ⟨hne, hwe, rfl⟩
    exact ⟨⟨hwe, hne⟩, rfl⟩

theorem memHit_iff : memHit s r = true ↔ r ≠ 0 ∧ writesReg s.memwb.ir r := by
  simp only [memHit, writesReg, ← h.memDest, ← h.memWe, Bool.and_eq_true, bne_iff_ne, beq_iff_eq]
  constructor
  · rintro ⟨⟨hwe, hne⟩, rfl⟩
    exact ⟨hne, hwe, rfl⟩
  · rintro ⟨hne, hwe, rfl⟩
    exact ⟨⟨hwe, hne⟩, rfl⟩

/-- Where an operand needs no stall, its selector points at the youngest older instruction that writes its register: with
forwarding by R155, and without because neither occupant writes it. -/
theorem operandSelector_fits (hstall : operandStall s reads r = 0) :
    selectorFits s reads r (operandSelector s reads r) := by
  have hex := exHit_iff h (r := r)
  have hmem := memHit_iff h (r := r)
  unfold operandStall at hstall
  unfold operandSelector
  cases reads with
  | false => exact fun hr => nomatch hr
  | true =>
    cases hx : exHit s r with
    | true =>
      obtain ⟨hne, hw⟩ := hex.mp hx
      cases hf : s.forwardingEnabled with
      | true => exact ⟨rfl, hne, hw⟩
      | false => simp [hf, hx, stallEx] at hstall
    | false =>
      have hnx : r ≠ 0 → ¬ writesReg s.exmem.ir r := fun hne hw => by simp [hex.mpr ⟨hne, hw⟩] at hx
      cases hm : memHit s r with
      | true =>
        obtain ⟨hne, hw⟩ := hmem.mp hm
        cases hf : s.forwardingEnabled with
        | true => exact ⟨rfl, hne, hnx hne, hw⟩
        | false => simp [hf, hx, hm, stallMem] at hstall
      | false =>
        have hnm : r ≠ 0 → ¬ writesReg s.memwb.ir r := fun hne hw => by simp [hmem.mpr ⟨hne, hw⟩] at hm
        cases s.forwardingEnabled <;> exact fun _ hne => ⟨hnx hne, hnm hne⟩

end Occupants

/-- No operand needs more than `STALL_EX`, and neither does a load ahead (R155, R156). -/
theorem stallNeed_le (s : State) (c : Traits) (rs rt : Reg) : stallNeed s c rs rt ≤ 3 := by
  have hop : ∀ reads r, operandStall s reads r ≤ 3 := fun reads r => by
    unfold operandStall stallEx stallMem
    split_ifs <;> omega
  have h1 := hop c.srcA rs
  have h2 := hop c.srcB rt
  unfold stallNeed stallLoad
  split_ifs <;> omega

/-! ### What ID leaves (R151, R155, R157) -/

/-- ID emits a bubble with no selector armed, or it passes the instruction of IF/ID, which needs no stall. -/
theorem idStage_emits (s : State) :
    ((idStage s).1.idex.ir = 0 ∧ (idStage s).1.selA = .none ∧ (idStage s).1.selB = .none) ∨
      (stallNeed s (traitsOfWord s.ifid.ir) (rsField s.ifid.ir) (rtField s.ifid.ir) = 0 ∧ s.stallCount = 0 ∧
        (idStage s).1 = afterDecode s s.ifid.ir (operandSelector s (traitsOfWord s.ifid.ir).srcA (rsField s.ifid.ir))
          (operandSelector s (traitsOfWord s.ifid.ir).srcB (rtField s.ifid.ir)) 0) := by
  rcases idStage_cases s with ⟨-, e⟩ | ⟨-, -, e⟩ | ⟨-, -, -, e⟩ | ⟨h0, -, -, e⟩ <;> rw [e]
  · exact .inl ⟨rfl, rfl, rfl⟩
  · exact .inl ⟨rfl, rfl, rfl⟩
  · exact .inl ⟨rfl, rfl, rfl⟩
  · rcases idDecode_cases s with ⟨-, e'⟩ | ⟨hneed, e'⟩ <;> rw [e']
    · exact .inl ⟨rfl, rfl, rfl⟩
    · exact .inr ⟨hneed, h0, by rw [h0]⟩

/-- At most 2 bubbles are still to come after ID, and they come behind a bubble (R143, R156). -/
theorem idStage_stall {s : State} (h : s.stallCount ≤ 2) :
    (idStage s).1.stallCount ≤ 2 ∧ (0 < (idStage s).1.stallCount → (idStage s).1.idex.ir = 0) := by
  rcases idStage_cases s with ⟨-, e⟩ | ⟨-, -, e⟩ | ⟨-, -, -, e⟩ | ⟨h0, -, -, e⟩ <;> rw [e]
  · exact ⟨(Nat.sub_le _ 1).trans h, fun _ => rfl⟩
  · exact ⟨h, fun _ => rfl⟩
  · exact ⟨h, fun _ => rfl⟩
  · rcases idDecode_cases s with ⟨-, e'⟩ | ⟨-, e'⟩ <;> rw [e']
    · exact ⟨Nat.sub_le_sub_right (stallNeed_le _ _ _ _) 1, fun _ => rfl⟩
    · exact ⟨h, fun hpos => absurd h0 (Nat.ne_of_gt hpos)⟩

/-- ID leaves the branch flag down, unless a transfer was taken under an outstanding stall, which never happens (R151). -/
theorem idStage_branchFlag {s : State} (h : 0 < s.stallCount → s.branchFlag = false) :
    (idStage s).1.branchFlag = false := by
  rcases idStage_cases s with ⟨hs, e⟩ | ⟨-, -, e⟩ | ⟨-, hb, -, e⟩ | ⟨-, hb, -, e⟩ <;> rw [e]
  · exact h hs
  · rfl
  · exact hb
  · rcases idDecode_cases s with ⟨-, e'⟩ | ⟨-, e'⟩ <;> rw [e'] <;> exact hb

/-! ### The invariant -/

/-- Before ID the pipeline is as the invariant has it, but that the word in EX may have raised the branch flag. -/
structure ReadyForId (s : State) : Prop where
  occupants : OccupantsLatched s
  stallBound : s.stallCount ≤ 2
  stallBranch : 0 < s.stallCount → s.branchFlag = false
  exmemImm : s.exmem.ir ≠ 0 → s.exmem.imm = sextImm (immField s.exmem.ir)
  memwbImm : s.memwb.ir ≠ 0 → s.memwb.imm = sextImm (immField s.memwb.ir)

/-- WB, MEM and EX keep what the invariant says of the words and move them on by one register. -/
theorem readyForId {s a b c : State} (hinv : PipelineInv s) (ha : wbStage { s with missFlag := false } = .next a)
    (hb : memStage a = .next b) (hc : exStage b = .next c) : ReadyForId c := by
  have fa := wbStage_frame ha
  have fb := memStage_frame hb
  have fc := exStage_frame hc
  have hidex : b.idex = s.idex := fb.idex.trans fa.idex
  have hexmem : a.exmem = s.exmem := fa.exmem
  have hstall : c.stallCount = s.stallCount := fc.stallCount.trans (fb.stallCount.trans fa.stallCount)
  obtain ⟨hir, himm, hexDest, hexWe, hexLoad⟩ := exStage_exmem hc
  obtain ⟨hir', himm', hmemDest, hmemWe⟩ := memStage_memwb hb
  have hmemwb : c.memwb = b.memwb := fc.memwb
  refine ⟨⟨hexDest, hexWe, hexLoad, ?_, ?_⟩, hstall ▸ hinv.stallBound, fun hpos => ?_, fun hne => ?_, fun hne => ?_⟩
  · rw [hmemwb, fc.memDest]
    exact hmemDest
  · rw [hmemwb, fc.memWe]
    exact hmemWe
  · have h0 : b.idex.ir = 0 := by rw [hidex, hinv.stallBubble (hstall ▸ hpos)]
    rw [(exStage_bubble_branchFlag hc h0).1, fb.branchFlag]
    exact fa.branchFlag.trans hinv.branchFlag
  · rw [himm hne, hir, hidex]
    exact hinv.idexImm (hidex ▸ hir ▸ hne)
  · rw [hmemwb] at hne ⊢
    rw [himm' hne, hir', hexmem]
    exact hinv.exmemImm (hexmem ▸ hir' ▸ hne)

/-- A bubble reads no register, so any disarmed selector fits it (30_encoding.md R116). -/
theorem selectorFits_bubble (s : State) (r : Reg) :
    selectorFits s (traitsOfWord 0).srcA r .none ∧ selectorFits s (traitsOfWord 0).srcB r .none :=
  ⟨fun h => absurd h (by decide), fun h => absurd h (by decide)⟩

/-- ID, IF and the commit establish the invariant from what holds before ID. -/
theorem pipelineInv_of_readyForId {c : State} (h : ReadyForId c) (f : PipeReg) (n : ArchState) :
    PipelineInv { (idStage c).1 with
      ifid := f, nxt := n, cur := n, cycleCount := (idStage c).1.cycleCount + 1, stage := .wb } := by
  have hexmem : (idStage c).1.exmem = c.exmem := by rw [idStage_writes]
  have hmemwb : (idStage c).1.memwb = c.memwb := by rw [idStage_writes]
  obtain ⟨hexDest, hexWe, hexLoad, hmemDest, hmemWe⟩ := h.occupants
  obtain ⟨hbound, hbubble⟩ := idStage_stall h.stallBound
  constructor
  case generations => rfl
  case branchFlag => exact idStage_branchFlag h.stallBranch
  case stage => rfl
  case stallBound => exact hbound
  case stallBubble => exact hbubble
  case exmemImm => exact hexmem ▸ h.exmemImm
  case memwbImm => exact hmemwb ▸ h.memwbImm
  case exDest => rw [hexmem, ← hexDest, idStage_writes]
  case exWe => rw [hexmem, ← hexWe, idStage_writes]
  case exLoad => rw [hexmem, ← hexLoad, idStage_writes]
  case memDest => rw [hmemwb, ← hmemDest, idStage_writes]
  case memWe => rw [hmemwb, ← hmemWe, idStage_writes]
  case idexImm =>
    rcases idStage_emits c with ⟨h0, -, -⟩ | ⟨-, -, e⟩
    · exact fun hne => absurd h0 hne
    · rw [e]
      exact fun _ => rfl
  case bubbleSelectors =>
    rcases idStage_emits c with ⟨-, hA, hB⟩ | ⟨-, -, e⟩
    · exact fun _ => ⟨hA, hB⟩
    · rw [e]
      intro h0
      have h0 : c.ifid.ir = 0 := h0
      rw [h0]
      exact ⟨rfl, rfl⟩
  case selAFits =>
    rcases idStage_emits c with ⟨h0, hA, -⟩ | ⟨hneed, -, e⟩
    · dsimp only
      rw [h0, hA]
      exact (selectorFits_bubble _ _).1
    · rw [e]
      unfold stallNeed at hneed
      exact operandSelector_fits h.occupants (by omega)
  case selBFits =>
    rcases idStage_emits c with ⟨h0, -, hB⟩ | ⟨hneed, -, e⟩
    · dsimp only
      rw [h0, hB]
      exact (selectorFits_bubble _ _).2
    · rw [e]
      unfold stallNeed at hneed
      exact operandSelector_fits h.occupants (by omega)

/-- Settles O48: a halted machine keeps its state; in a cycle WB, MEM and EX move the words on with their latches, and ID, which
compares its operands with those latches, restores the rest. -/
theorem stepKeepsThePipelineInvariant : Obligations.StepKeepsThePipelineInvariant := by
  unfold Obligations.StepKeepsThePipelineInvariant
  intro s t hinv h
  cases hrun : s.runFlag with
  | false =>
    cases (cycle_halted hrun).symm.trans h
    exact hinv
  | true =>
    obtain ⟨a, b, c, f, n, ha, hb, hc, -, rfl⟩ := step_stages hrun h
    exact pipelineInv_of_readyForId (readyForId hinv ha hb hc) f n

end Sys2Proof.Machine
end

section
/-! PROOF. Memory stays canonical and inside the regions (20_memory.md R68), and word accesses are little-endian (R62 to R64). -/

namespace Sys2Proof.Machine

/-! ### What a step does to Memory and the cache -/

/-- Of the stages of a cycle only MEM touches Memory, the cache, its counters and the miss flag, which the cycle has cleared; and no
stage writes the parameters (40_pipeline.md R132, R138). -/
theorem step_data {s t : State} (hrun : s.runFlag = true) (h : step s = .next t) :
    ∃ a b, SameMemory { s with missFlag := false } a ∧ a.cfg = s.cfg ∧ a.exmem = s.exmem ∧ memStage a = .next b ∧
      b.cfg = s.cfg ∧ SameMemory b t ∧ t.cfg = s.cfg := by
  obtain ⟨a, b, c, f, n, ha, hb, hc, -, rfl⟩ := step_stages hrun h
  have fa := wbStage_frame ha
  have fb := memStage_frame hb
  have fc := exStage_frame hc
  have hcfg : b.cfg = s.cfg := fb.cfg.trans fa.cfg
  obtain ⟨hmem, hcache, hhit, hmiss, hflag⟩ := fa.toSameMemory
  obtain ⟨hmem', hcache', hhit', hmiss', hflag'⟩ := fc.toSameMemory
  obtain ⟨imem, icache, ihit, imiss, iflag⟩ := idStage_sameMemory c
  refine ⟨a, b, ⟨hmem, hcache, hhit, hmiss, hflag⟩, fa.cfg, fa.exmem, hb, hcfg,
    ⟨imem.trans hmem', icache.trans hcache', ihit.trans hhit', imiss.trans hmiss', iflag.trans hflag'⟩, ?_⟩
  exact (idStage_frame c).1.trans (fc.cfg.trans hcfg)

/-! ### What every word write keeps, MEM keeps -/

section Writes
variable {P : Memory → Prop} {gs : List Region}

theorem writeBackWords_keeps (hP : ∀ m m' a v, memWrite gs m a v = .ok m' → P m → P m') {m m' : Memory} {base : Word}
    {ws : Vector Word 4} (h : writeBackWords gs m base ws = .ok m') (hm : P m) : P m' := by
  unfold writeBackWords at h
  dsimp only [bind, Except.bind] at h
  split at h
  · cases h
  · next m0 h0 =>
    split at h
    · cases h
    · next m1 h1 =>
      split at h
      · cases h
      · next m2 h2 => exact hP _ _ _ _ h (hP _ _ _ _ h2 (hP _ _ _ _ h1 (hP _ _ _ _ h0 hm)))

end Writes

section MemStage
variable {P : Memory → Prop} {s t : State}

theorem dataWrite_keeps (hP : ∀ m m' a v, memWrite s.cfg.regions m a v = .ok m' → P m → P m') {a v : Word} {width : Width}
    (h : dataWrite a v width s = .ok t) (hm : P s.mem) : P t.mem := by
  unfold dataWrite at h
  split at h
  · obtain ⟨u, m, hu, hwb, rfl⟩ := cacheWrite_cases h
    have hsame : u.mem = s.mem ∧ u.cfg = s.cfg := by
      rcases cacheAccess_cases hu with ⟨-, rfl⟩ | ⟨ws, -, -, rfl⟩ <;> exact ⟨rfl, rfl⟩
    rw [hsame.1, hsame.2] at hwb
    exact writeBackWords_keeps hP hwb hm
  · dsimp only [bind, Except.bind] at h
    split at h
    · cases h
    · split at h
      · cases h
      · next m hw =>
        cases h
        exact hP _ _ _ _ hw hm

theorem memStage_keeps (hP : ∀ m m' a v, memWrite s.cfg.regions m a v = .ok m' → P m → P m') (h : memStage s = .next t)
    (hm : P s.mem) : P t.mem := by
  rcases memStage_cases s with ⟨-, e⟩ | ⟨m, -, e⟩
  · cases e.symm.trans h
    exact hm
  · rcases performMem_cases (ofExcept_next_iff.mp (e.symm.trans h)) with
      ⟨-, rfl⟩ | ⟨width, w, u, -, hr, rfl⟩ | ⟨width, -, hw⟩ | ⟨-, rfl⟩ | ⟨-, rfl⟩
    · exact hm
    · dsimp only
      rw [dataRead_mem hr]
      exact hm
    · exact dataWrite_keeps (s := memLatch _ (atStage .mem s)) hP hw hm
    · exact hm
    · exact hm

end MemStage

/-! ### The invariant of Memory -/

/-- A cell of a memory after a word is written is one of the four written, or an old one. -/
theorem mem_memSetWord {m : Memory} {n : Nat} {v : Word} {c : Host.Cell} (h : c ∈ memSetWord m n v) :
    (n ≤ c.1 ∧ c.1 < n + 4) ∨ c ∈ m := by
  unfold memSetWord at h
  rcases mem_memSet h with ⟨rfl, -⟩ | h
  · exact .inl ⟨by simp, by simp⟩
  rcases mem_memSet h with ⟨rfl, -⟩ | h
  · exact .inl ⟨by simp, by simp⟩
  rcases mem_memSet h with ⟨rfl, -⟩ | h
  · exact .inl ⟨by simp, by simp⟩
  rcases mem_memSet h with ⟨rfl, -⟩ | h
  · exact .inl ⟨by simp, by simp⟩
  exact .inr h

/-- Memory is canonical and holds bytes in the given regions only (20_memory.md R68). -/
structure MemoryInside (gs : List Region) (m : Memory) : Prop where
  canonical : Memory.wf m
  inRegions : ∀ c ∈ m, ∃ g ∈ gs, inRegion g c.1 = true

theorem memoryInv_iff {s : State} : MemoryInv s ↔ MemoryInside s.cfg.regions s.mem :=
  ⟨fun h => ⟨h.canonical, h.inRegions⟩, fun h => ⟨h.canonical, h.inRegions⟩⟩

/-- A word write lands in the region of its address, which it does not overrun (R63). -/
theorem memWrite_memoryInside {gs : List Region} {m m' : Memory} {a v : Word} (h : memWrite gs m a v = .ok m')
    (hm : MemoryInside gs m) : MemoryInside gs m' := by
  refine ⟨memWrite_wf h hm.canonical, fun c hc => ?_⟩
  rcases memWrite_cases h with ⟨-, rfl⟩ | ⟨g, hg, hfit, rfl⟩
  · exact hm.inRegions c hc
  · rcases mem_memSetWord hc with ⟨hlo, hhi⟩ | hold
    · obtain ⟨hmem, hbase, -⟩ := regionOf_some hg
      refine ⟨g, hmem, ?_⟩
      simp only [inRegion, Bool.and_eq_true, decide_eq_true_eq]
      omega
    · exact hm.inRegions c hold

/-- Settles O52: MEM alone writes Memory, word by word, and each word write keeps the canonical form and stays in one region. -/
theorem stepKeepsTheMemoryInvariant : Obligations.StepKeepsTheMemoryInvariant := by
  unfold Obligations.StepKeepsTheMemoryInvariant
  intro s t hinv h
  cases hrun : s.runFlag with
  | false =>
    cases (cycle_halted hrun).symm.trans h
    exact hinv
  | true =>
    obtain ⟨a, b, ha, hcfg, -, hb, -, ht, hcfg'⟩ := step_data hrun h
    rw [memoryInv_iff, hcfg', ht.mem]
    refine memStage_keeps (P := MemoryInside s.cfg.regions) (fun m m' x v hw => ?_) hb ?_
    · rw [hcfg] at hw
      exact memWrite_memoryInside hw
    · rw [ha.mem]
      exact memoryInv_iff.mp hinv

/-! ### Byte order (R62, R63, R64) -/

/-- A concatenation as a number. -/
theorem toNat_append_eq_add {n m : Nat} (x : BitVec n) (y : BitVec m) : (x ++ y).toNat = x.toNat * 2 ^ m + y.toNat := by
  rw [BitVec.toNat_append, ← Nat.shiftLeft_add_eq_or_of_lt y.isLt, Nat.shiftLeft_eq]

/-- The number that four bytes make, the lowest address first (R64). -/
theorem wordOfBytes_toNat (b0 b1 b2 b3 : Byte) :
    (wordOfBytes b0 b1 b2 b3).toNat = b0.toNat + 256 * b1.toNat + 65536 * b2.toNat + 16777216 * b3.toNat := by
  simp only [wordOfBytes, toNat_append_eq_add]
  omega

section Region
variable {gs : List Region} {a : Word} (m : Memory) (v : Word)

theorem memRead_unmapped (h : regionOf gs a = none) : memRead gs m a = .ok 0 := by
  rw [memRead, h]

theorem memWrite_unmapped (h : regionOf gs a = none) : memWrite gs m a v = .ok m := by
  rw [memWrite, h]

variable {g : Region} (hg : regionOf gs a = some g)
include hg

theorem memRead_fits (hfit : a.toNat + 4 ≤ g.base + g.size) : memRead gs m a = .ok (memGetWord m a.toNat) := by
  simp only [memRead, hg, if_pos hfit]

theorem memWrite_fits (hfit : a.toNat + 4 ≤ g.base + g.size) : memWrite gs m a v = .ok (memSetWord m a.toNat v) := by
  simp only [memWrite, hg, if_pos hfit]

theorem memRead_overruns (hover : g.base + g.size < a.toNat + 4) : memRead gs m a = .error (.memOverrun a) := by
  simp only [memRead, hg, if_neg (Nat.not_le.mpr hover)]

theorem memWrite_overruns (hover : g.base + g.size < a.toNat + 4) : memWrite gs m a v = .error (.memOverrun a) := by
  simp only [memWrite, hg, if_neg (Nat.not_le.mpr hover)]

end Region

/-- Settles O50: the region of the first byte decides between the three outcomes, and the bytes are the laws of `memSetWord`. -/
theorem wordAccessesAreLittleEndian : Obligations.WordAccessesAreLittleEndian := by
  unfold Obligations.WordAccessesAreLittleEndian
  intro gs m a v hm
  refine ⟨fun h => ⟨memRead_unmapped m h, memWrite_unmapped m v h⟩, fun g hg hfit => ⟨?read, ?write⟩,
    fun g hg hover => ⟨memRead_overruns m hg hover, memWrite_overruns m v hg hover⟩⟩
  case read => exact ⟨_, memRead_fits m hg hfit, wordOfBytes_toNat _ _ _ _⟩
  case write =>
    have hbyte := fun k hk => memGet_memSetWord_byte m a.toNat k v hm hk
    exact ⟨_, memWrite_fits m v hg hfit, memSetWord_wf m _ v hm, hbyte 0 (by omega), hbyte 1 (by omega), hbyte 2 (by omega),
      hbyte 3 (by omega), fun n hn => memGet_memSetWord_other m _ n v hn⟩

end Sys2Proof.Machine
end

section
/-! PROOF. The cache is coherent with Memory (20_memory.md R76), and what loads and stores do through it (R70 to R77;
44_load_store.md R271 to R277). -/

namespace Sys2Proof.Machine

/-! ### Addresses of blocks and of their words (20_memory.md R70; 10_state.md R49) -/

theorem blockBase_toNat (tag : BitVec 24) (index : BitVec 4) :
    (blockBase tag index).toNat = tag.toNat * 256 + index.toNat * 16 := by
  simp only [blockBase, toNat_append_eq_add, BitVec.toNat_ofNat]
  omega

theorem blockWordAddr_toNat (tag : BitVec 24) (index : BitVec 4) (off : BitVec 2) :
    (blockWordAddr tag index off).toNat = tag.toNat * 256 + index.toNat * 16 + off.toNat * 4 := by
  simp only [blockWordAddr, toNat_append_eq_add, BitVec.toNat_ofNat]
  omega

/-- The block of an address, named by the address's tag and index, starts at the address's base. -/
theorem blockBase_of_address (a : Word) : blockBase (cacheTag a) (cacheIndex a) = cacheBase a := by
  apply BitVec.eq_of_toNat_eq
  rw [blockBase_toNat, cacheTag_toNat, cacheIndex_toNat, cacheBase_toNat]
  omega

theorem blockWordAddr_of_address (a : Word) (off : BitVec 2) :
    (blockWordAddr (cacheTag a) (cacheIndex a) off).toNat = (cacheBase a).toNat + off.toNat * 4 := by
  rw [blockWordAddr_toNat, cacheTag_toNat, cacheIndex_toNat, cacheBase_toNat]
  omega

/-- The aligned address is the address of the word that tag, index and offset name. -/
theorem alignedAddr_toNat (a : Word) : (alignedAddr a).toNat = a.toNat / 4 * 4 := by
  have h : alignedAddr a = a.extractLsb' 2 30 ++ 0#2 := by
    apply BitVec.eq_of_getLsbD_eq
    intro i hi
    simp only [alignedAddr, BitVec.getLsbD_and, BitVec.getLsbD_append, BitVec.getLsbD_extractLsb']
    interval_cases i <;> simp
  rw [h, toNat_append_eq_add, BitVec.extractLsb'_toNat, Nat.shiftRight_eq_div_pow, BitVec.toNat_ofNat]
  have := a.isLt
  omega

theorem alignedAddr_eq (a : Word) : alignedAddr a = blockWordAddr (cacheTag a) (cacheIndex a) (cacheOffset a) := by
  apply BitVec.eq_of_toNat_eq
  rw [alignedAddr_toNat, blockWordAddr_of_address, cacheBase_toNat, cacheOffset_toNat]
  omega

/-! ### One block and Memory -/

/-- The block at `index`, if valid and over addresses in a region, holds what Memory `m` reads there (R76). -/
def BlockCoherent (c : Config) (m : Memory) (index : BitVec 4) (b : CacheBlock) : Prop :=
  b.valid = true → mapped c (blockBase b.tag index) →
    ∀ off : BitVec 2, memRead c.regions m (blockWordAddr b.tag index off) = .ok (blockWord b off)

theorem cacheCoherent_iff {s : State} :
    CacheCoherent s ↔ ∀ index, BlockCoherent s.cfg s.mem index (blockGet s.cache index) := Iff.rfl

/-- The block as an access to `a` leaves it when it holds the words `ws`. -/
def blockAt (a : Word) (ws : Vector Word 4) : CacheBlock := { valid := true, tag := cacheTag a, words := ws }

/-- A refill gives each word that Memory holds at the word's own address (R71). -/
theorem memRead_of_refillWords {gs : List Region} {m : Memory} {a : Word} {ws : Vector Word 4}
    (h : refillWords gs m (cacheBase a) = .ok ws) (off : BitVec 2) :
    memRead gs m (blockWordAddr (cacheTag a) (cacheIndex a) off) = .ok (blockWord (blockAt a ws) off) := by
  obtain ⟨h0, h1, h2, h3⟩ := refillWords_words h
  have haddr : ∀ k < 16, off.toNat * 4 = k →
      blockWordAddr (cacheTag a) (cacheIndex a) off = cacheBase a + BitVec.ofNat 32 k := fun k hk hoff => by
    apply BitVec.eq_of_toNat_eq
    rw [blockWordAddr_of_address, cacheBase_add a k hk, hoff]
  have hoff := off.isLt
  unfold blockWord blockAt
  rcases (by omega : off.toNat = 0 ∨ off.toNat = 1 ∨ off.toNat = 2 ∨ off.toNat = 3) with h | h | h | h <;> simp only [h]
  · rw [haddr 0 (by omega) (by omega), BitVec.add_zero]
    exact h0
  · rw [haddr 4 (by omega) (by omega)]
    exact h1
  · rw [haddr 8 (by omega) (by omega)]
    exact h2
  · rw [haddr 12 (by omega) (by omega)]
    exact h3

/-! ### The data path with the cache enabled (R80) -/

theorem dataRead_cached {s : State} (he : s.cfg.cacheEnabled = true) (a : Word) : dataRead a s = cacheRead a s := if_pos he

theorem dataWrite_cached {s : State} (he : s.cfg.cacheEnabled = true) (a v : Word) (width : Width) :
    dataWrite a v width s = cacheWrite a v width s := if_pos he

/-! ### What an access and a store do, hit or miss (R71, R73) -/

/-- An access is a hit as the statements say it. -/
theorem cacheHit_iff (c : Vector CacheBlock 16) (a : Word) :
    cacheHit c a = true ↔
      (blockGet c (cacheIndex a)).valid = true ∧ (blockGet c (cacheIndex a)).tag = cacheTag a := by
  simp only [cacheHit, Bool.and_eq_true, beq_iff_eq]

/-- From `s` to `u` an access to `a` was made, which found or fetched the words `ws`: a hit counts and no more, and a miss refills
the block from Memory. -/
structure AccessedWith (s : State) (a : Word) (ws : Vector Word 4) (u : State) : Prop where
  hit : cacheHit s.cache a = true → ws = (blockGet s.cache (cacheIndex a)).words ∧ u = afterHit s
  miss : cacheHit s.cache a = false → refillWords s.cfg.regions s.mem (cacheBase a) = .ok ws ∧ u = afterMiss s a ws

section Access
variable {s u : State} {a : Word} {ws : Vector Word 4}

theorem accessedWith_of_cacheAccess (h : cacheAccess a s = .ok u) : ∃ ws, AccessedWith s a ws u := by
  rcases cacheAccess_cases h with ⟨hhit, rfl⟩ | ⟨ws, hmiss, hrefill, rfl⟩
  · exact ⟨_, fun _ => ⟨rfl, rfl⟩, fun hm => absurd (hhit.symm.trans hm) (by decide)⟩
  · exact ⟨ws, fun hh => absurd (hmiss.symm.trans hh) (by decide), fun _ => ⟨hrefill, rfl⟩⟩

variable (h : AccessedWith s a ws u)
include h

theorem AccessedWith.block : blockGet u.cache (cacheIndex a) = blockAt a ws := by
  cases hh : cacheHit s.cache a with
  | true =>
    obtain ⟨rfl, rfl⟩ := h.hit hh
    obtain ⟨hv, ht⟩ := (cacheHit_iff _ _).mp hh
    rw [blockAt, ← ht, ← hv]
    rfl
  | false =>
    obtain ⟨-, rfl⟩ := h.miss hh
    exact blockGet_blockSet_same _ _ _

theorem AccessedWith.others (index : BitVec 4) (hne : index ≠ cacheIndex a) :
    blockGet u.cache index = blockGet s.cache index := by
  cases hh : cacheHit s.cache a with
  | true => rw [(h.hit hh).2, afterHit]
  | false =>
    rw [(h.miss hh).2]
    exact blockGet_blockSet_other _ _ _ _ hne

theorem AccessedWith.mem : u.mem = s.mem ∧ u.cfg = s.cfg := by
  cases hh : cacheHit s.cache a with
  | true => rw [(h.hit hh).2]; exact ⟨rfl, rfl⟩
  | false => rw [(h.miss hh).2]; exact ⟨rfl, rfl⟩

/-- An access keeps the cache coherent: what it refills it takes from Memory. -/
theorem AccessedWith.coherent (hc : CacheCoherent s) : CacheCoherent u := by
  intro index
  rw [h.mem.1, h.mem.2]
  by_cases hi : index = cacheIndex a
  · subst hi
    cases hh : cacheHit s.cache a with
    | true =>
      rw [(h.hit hh).2]
      exact hc _
    | false =>
      rw [h.block]
      exact fun _ _ => memRead_of_refillWords (h.miss hh).1
  · rw [h.others index hi]
    exact hc index

/-- In a coherent state the accessed block, if in a region, holds what Memory holds. -/
theorem AccessedWith.memRead (hc : CacheCoherent s) (hm : mapped s.cfg (cacheBase a)) (off : BitVec 2) :
    memRead s.cfg.regions s.mem (blockWordAddr (cacheTag a) (cacheIndex a) off) = .ok (blockWord (blockAt a ws) off) := by
  have hu := h.coherent hc (cacheIndex a)
  rw [h.block, h.mem.1, h.mem.2] at hu
  refine hu rfl ?_ off
  rw [blockAt, blockBase_of_address]
  exact hm

end Access

/-! ### Regions -/

section Region
variable {c : Config} (hc : c.wf)
include hc

/-- The addresses of a block lie in the region of its base, or all outside every region (R76). -/
theorem regionOf_cacheBase {a b : Word} (h : a.toNat / 16 = b.toNat / 16) :
    regionOf c.regions a = regionOf c.regions (cacheBase b) :=
  regionOf_sameBlock hc (by rw [cacheBase_toNat]; omega)

theorem mapped_cacheBase_iff (a : Word) : mapped c (cacheBase a) ↔ mapped c a := by
  rw [mapped, mapped, regionOf_cacheBase hc (a := a) rfl]

theorem memRead_blockWord (m : Memory) {tag : BitVec 24} {index : BitVec 4} {g : Region}
    (hg : regionOf c.regions (blockBase tag index) = some g) (off : BitVec 2) :
    memRead c.regions m (blockWordAddr tag index off) =
      .ok (memGetWord m ((blockBase tag index).toNat + off.toNat * 4)) := by
  have haddr : (blockWordAddr tag index off).toNat = (blockBase tag index).toNat + off.toNat * 4 := by
    rw [blockWordAddr_toNat, blockBase_toNat]
  have hoff := off.isLt
  have hr : regionOf c.regions (blockWordAddr tag index off) = some g := by
    rw [← hg]
    exact regionOf_sameBlock hc (by rw [haddr, blockBase_toNat]; omega)
  rw [memRead_fits m hr (aligned_fits hc (by rw [haddr, blockBase_toNat]; omega) hr), haddr]

end Region

theorem memGetWord_memSetBlock_other (m : Memory) (n k : Nat) (ws : Vector Word 4) (h : k + 4 ≤ n ∨ n + 16 ≤ k) :
    memGetWord (memSetBlock m n ws) k = memGetWord m k := by
  simp only [memGetWord]
  rw [memGet_memSetBlock_other _ _ _ _ (by omega), memGet_memSetBlock_other _ _ _ _ (by omega),
    memGet_memSetBlock_other _ _ _ _ (by omega), memGet_memSetBlock_other _ _ _ _ (by omega)]

/-! ### The write-back (R73, R76) -/

/-- The four words of a block once a store of `v` to `a` is merged into them. -/
def storedWords (ws : Vector Word 4) (a v : Word) (width : Width) : Vector Word 4 :=
  ws.set (cacheOffset a).toNat (storedWord (getElem ws (cacheOffset a).toNat (cacheOffset a).isLt) v width) (cacheOffset a).isLt

/-- Memory after a block in a region was written back, or as it was if the block lies outside every region. -/
def writtenBack (c : Config) (m : Memory) (a : Word) (ws : Vector Word 4) : Memory :=
  if (regionOf c.regions (cacheBase a)).isSome then memSetBlock m (cacheBase a).toNat ws else m

theorem writeBackWords_eq {c : Config} (hc : c.wf) (m : Memory) (a : Word) (ws : Vector Word 4) :
    writeBackWords c.regions m (cacheBase a) ws = .ok (writtenBack c m a ws) := by
  unfold writtenBack
  cases hr : regionOf c.regions (cacheBase a) with
  | none => exact writeBackWords_unmapped hc m a ws hr
  | some g => exact writeBackWords_mapped hc m a ws hr

/-- The merge replaces one word of the accessed block. -/
theorem blockSetWord_blockAt (ws : Vector Word 4) (a v : Word) (width : Width) :
    blockSetWord (blockAt a ws) (cacheOffset a) (mergeWord (blockWord (blockAt a ws) (cacheOffset a)) v width) =
      blockAt a (storedWords ws a v width) := by
  rw [mergeWord_eq_storedWord]
  rfl

/-- A store through the cache is an access, the merge into the block, and the write-back. -/
theorem cacheWrite_eq {s : State} (hc : s.cfg.wf) (a v : Word) (width : Width) :
    ∃ ws u, AccessedWith s a ws u ∧
      cacheWrite a v width s =
        .ok (withStored u a v width ws (writtenBack s.cfg s.mem a (storedWords ws a v width))) := by
  obtain ⟨u, hu⟩ := cacheAccess_ok hc a
  obtain ⟨ws, hws⟩ := accessedWith_of_cacheAccess hu
  have hwb : writeBackWords u.cfg.regions u.mem (cacheBase a) (blockAt a (storedWords ws a v width)).words =
      .ok (writtenBack s.cfg s.mem a (storedWords ws a v width)) := by
    rw [hws.mem.1, hws.mem.2]
    exact writeBackWords_eq hc _ _ _
  refine ⟨ws, u, hws, ?_⟩
  unfold cacheWrite
  rw [hu]
  dsimp only [bind, Except.bind]
  rw [hws.block, blockSetWord_blockAt, hwb]
  rfl

/-- The written-back block is what Memory then reads there. -/
theorem memRead_writtenBack {c : Config} (hc : c.wf) {m : Memory} (hm : Memory.wf m) {a : Word} (hmap : mapped c (cacheBase a))
    (ws : Vector Word 4) (off : BitVec 2) :
    memRead c.regions (writtenBack c m a ws) (blockWordAddr (cacheTag a) (cacheIndex a) off) =
      .ok (blockWord (blockAt a ws) off) := by
  obtain ⟨g, hg⟩ := Option.isSome_iff_exists.mp hmap
  rw [writtenBack, if_pos (show (regionOf c.regions (cacheBase a)).isSome = true from hmap)]
  rw [← blockBase_of_address] at hg ⊢
  rw [memRead_blockWord hc _ hg, memGetWord_memSetBlock m _ ws hm]
  rfl

/-- A write-back leaves the bytes outside its block alone. -/
theorem memGet_writtenBack_other (c : Config) (m : Memory) (a : Word) (ws : Vector Word 4) {n : Nat}
    (h : n < (cacheBase a).toNat ∨ (cacheBase a).toNat + 16 ≤ n) : memGet (writtenBack c m a ws) n = memGet m n := by
  unfold writtenBack
  split
  · exact memGet_memSetBlock_other m _ n ws h
  · rfl

/-- And so the words of every block with another index or another tag. -/
theorem memRead_writtenBack_other {c : Config} (hc : c.wf) (m : Memory) (a : Word) (ws : Vector Word 4) {tag : BitVec 24}
    {index : BitVec 4} (hne : index ≠ cacheIndex a) (hmap : mapped c (blockBase tag index)) (off : BitVec 2) :
    memRead c.regions (writtenBack c m a ws) (blockWordAddr tag index off) =
      memRead c.regions m (blockWordAddr tag index off) := by
  obtain ⟨g, hg⟩ := Option.isSome_iff_exists.mp hmap
  rw [memRead_blockWord hc _ hg, memRead_blockWord hc _ hg, writtenBack]
  split
  · have hidx : index.toNat ≠ (cacheIndex a).toNat := fun h => hne (BitVec.eq_of_toNat_eq h)
    rw [memGetWord_memSetBlock_other]
    have hoff := off.isLt
    have hi := index.isLt
    have hi' := (cacheIndex a).isLt
    rw [← blockBase_of_address, blockBase_toNat, blockBase_toNat]
    omega
  · rfl

/-! ### Coherence (R76) -/

section Coherent
variable {s t : State} {a v : Word} {width : Width} (hc : s.cfg.wf)

theorem cacheAccess_coherent (hcoh : CacheCoherent s) (h : cacheAccess a s = .ok t) : CacheCoherent t := by
  obtain ⟨ws, hws⟩ := accessedWith_of_cacheAccess h
  exact hws.coherent hcoh

include hc

/-- A store writes the merged block through to Memory, so the cache stays coherent. -/
theorem cacheWrite_coherent (hm : Memory.wf s.mem) (hcoh : CacheCoherent s) (h : cacheWrite a v width s = .ok t) :
    CacheCoherent t := by
  obtain ⟨ws, u, hws, e⟩ := cacheWrite_eq hc a v width
  cases e.symm.trans h
  intro index
  by_cases hi : index = cacheIndex a
  · subst hi
    intro _ hmap
    simp only [withStored, blockGet_blockSet_same, hws.mem.2, blockBase_of_address] at hmap ⊢
    exact memRead_writtenBack hc hm hmap _
  · intro hv hmap off
    simp only [withStored, blockGet_blockSet_other _ _ _ _ hi, hws.others index hi, hws.mem.2] at hv hmap ⊢
    rw [memRead_writtenBack_other hc _ _ _ hi hmap]
    exact hcoh index hv hmap off

end Coherent

/-- MEM keeps the cache coherent. -/
theorem memStage_coherent {s t : State} (hc : s.cfg.wf) (he : s.cfg.cacheEnabled = true) (hm : Memory.wf s.mem)
    (hcoh : CacheCoherent s) (h : memStage s = .next t) : CacheCoherent t := by
  rcases memStage_cases s with ⟨-, e⟩ | ⟨m, -, e⟩
  · cases e.symm.trans h
    exact hcoh
  · rcases performMem_cases (ofExcept_next_iff.mp (e.symm.trans h)) with
      ⟨-, rfl⟩ | ⟨width, w, u, -, hr, rfl⟩ | ⟨width, -, hw⟩ | ⟨-, rfl⟩ | ⟨-, rfl⟩
    · exact hcoh
    · rw [dataRead_cached (s := memLatch _ (atStage .mem s)) he] at hr
      exact cacheAccess_coherent (s := memLatch _ (atStage .mem s)) (t := u) hcoh (cacheRead_cases hr).1
    · rw [dataWrite_cached (s := memLatch _ (atStage .mem s)) he] at hw
      exact cacheWrite_coherent (s := memLatch _ (atStage .mem s)) hc hm hcoh hw
    · exact hcoh
    · exact hcoh

theorem CacheCoherent.of_sameMemory {s t : State} (h : CacheCoherent s) (hsame : SameMemory s t) (hcfg : t.cfg = s.cfg) :
    CacheCoherent t := by
  intro index
  rw [hsame.cache, hsame.mem, hcfg]
  exact h index

/-- Settles O53: of a cycle only MEM touches the cache and Memory; an access refills its block from Memory, and a store writes its
block back. -/
theorem stepKeepsTheCacheCoherent : Obligations.StepKeepsTheCacheCoherent := by
  unfold Obligations.StepKeepsTheCacheCoherent
  intro s t hc he hinv hcoh h
  cases hrun : s.runFlag with
  | false =>
    cases (cycle_halted hrun).symm.trans h
    exact hcoh
  | true =>
    obtain ⟨a, b, ha, hcfg, -, hb, hcfg', ht, hcfg''⟩ := step_data hrun h
    have hcoha : CacheCoherent a := CacheCoherent.of_sameMemory (s := { s with missFlag := false }) hcoh ha hcfg
    have hcohb : CacheCoherent b := by
      refine memStage_coherent ?_ ?_ ?_ hcoha hb
      · rw [hcfg]; exact hc
      · rw [hcfg]; exact he
      · rw [ha.mem]; exact hinv.canonical
    exact hcohb.of_sameMemory ht (hcfg''.trans hcfg'.symm)

end Sys2Proof.Machine
end

section
/-! PROOF. The instructions in their stages: the shapes that the meanings share (40_pipeline.md R160, R168, R175, R180), and from them
the ALU instructions (41_alu_register.md, 42_alu_immediate.md). -/

namespace Sys2Proof.Machine

/-! ### The shapes that the meanings share -/

section Shapes
variable {c : Traits} {rs rt : Reg} {f : ExIn → ExOut} {m : MemStep} {b : WbStep} {s : State} {alu hi lo target : Word}

/-- EX of an instruction whose EX step only sets `alu`, `hi` and `lo` (R160). -/
theorem perform_ex_results (h : s.stage = .ex) (hf : f (exInput rs rt s) = { alu := alu, hi := hi, lo := lo }) :
    perform c rs rt f m b s = .next (afterEx s rs rt c.dest c.we c.isLoad alu hi lo) := by
  rw [perform_ex h, performEx, hf]
  rfl

/-- EX of an instruction that takes a transfer, and may set `alu` to its link (R168). -/
theorem perform_ex_transfer (h : s.stage = .ex) (hf : f (exInput rs rt s) = { alu := alu, target := some target }) :
    perform c rs rt f m b s = .next (afterTransfer (afterEx s rs rt c.dest c.we c.isLoad alu 0 0) target) := by
  rw [perform_ex h, performEx, hf]
  rfl

/-- MEM of an instruction without a MEM step (R175). -/
theorem perform_mem_pass (h : s.stage = .mem) : perform c rs rt f .pass b s = .next (afterPass s c.dest c.we) :=
  perform_mem h

/-- WB of an instruction that writes a general register and has no WB step (R180). -/
theorem perform_wb_write (h : s.stage = .wb) (hload : c.isLoad = false) (hwe : c.we = true) :
    perform c rs rt f m .none s = .next (afterWrite s c.dest s.memwb.alu) := by
  rw [perform_wb h, performWb, wbWrite, hload, hwe]
  rfl

/-- WB of an instruction that writes no register and has no WB step. -/
theorem perform_wb_retire (h : s.stage = .wb) (hload : c.isLoad = false) (hwe : c.we = false) :
    perform c rs rt f m .none s = .next (afterRetire s) := by
  rw [perform_wb h, performWb, wbWrite, hload, hwe]
  rfl

end Shapes

/-! ### Results as exact integers, narrowed (R213) -/

section Arithmetic
variable (a b : Word)

theorem add_eq_ofNat : a + b = BitVec.ofNat 32 (a.toNat + b.toNat) := by
  apply BitVec.eq_of_toNat_eq
  rw [BitVec.toNat_add, BitVec.toNat_ofNat]

theorem add_eq_ofInt : a + b = BitVec.ofInt 32 (a.toInt + b.toInt) := by
  apply BitVec.eq_of_toInt_eq
  rw [BitVec.toInt_add, BitVec.toInt_ofInt]

theorem sub_eq_ofInt : a - b = BitVec.ofInt 32 (a.toInt - b.toInt) := by
  apply BitVec.eq_of_toInt_eq
  rw [BitVec.toInt_sub, BitVec.toInt_ofInt]

theorem setLess_eq : setLess a b = if a.toInt < b.toInt then 1 else 0 := by
  simp only [setLess, BitVec.slt, decide_eq_true_eq]

theorem shiftLeft_eq_ofNat (k : Nat) : a <<< k = BitVec.ofNat 32 (a.toNat * 2 ^ k) := by
  apply BitVec.eq_of_toNat_eq
  rw [BitVec.toNat_shiftLeft, BitVec.toNat_ofNat, Nat.shiftLeft_eq]

theorem ushiftRight_eq_ofNat (k : Nat) : a >>> k = BitVec.ofNat 32 (a.toNat / 2 ^ k) := by
  apply BitVec.eq_of_toNat_eq
  rw [BitVec.toNat_ushiftRight, BitVec.toNat_ofNat, Nat.shiftRight_eq_div_pow,
    Nat.mod_eq_of_lt (Nat.lt_of_le_of_lt (Nat.div_le_self _ _) a.isLt)]

theorem sshiftRight_eq_ofInt (k : Nat) : a.sshiftRight k = BitVec.ofInt 32 (a.toInt / 2 ^ k) := by
  rw [BitVec.sshiftRight, Int.shiftRight_eq_div_pow]
  norm_cast

/-- ID's sign extension keeps the number (30_encoding.md R103). -/
theorem sextImm_eq_ofInt (imm : Imm16) : sextImm imm = BitVec.ofInt 32 imm.toInt := rfl

theorem sextImm_toInt (imm : Imm16) : (sextImm imm).toInt = imm.toInt := BitVec.toInt_signExtend_of_le (by decide)

theorem zextImm_eq_ofNat (imm : Imm16) : zextImm imm = BitVec.ofNat 32 imm.toNat := by
  apply BitVec.eq_of_toNat_eq
  rw [zextImm, BitVec.toNat_setWidth, BitVec.toNat_ofNat]

theorem upperImm_eq_ofNat (imm : Imm16) : upperImm imm = BitVec.ofNat 32 (imm.toNat * 2 ^ 16) := by
  apply BitVec.eq_of_toNat_eq
  have := imm.isLt
  rw [upperImm, toNat_append_eq_add, BitVec.toNat_ofNat, BitVec.toNat_ofNat]
  omega

end Arithmetic

/-! ### Register ALU (41_alu_register.md) -/

section RegisterAlu
variable {i : Instr} {rd rs rt : Reg} {sa : Shamt} {f : Word → Word → Word} {s : State} {v : Word} (h : s.stage = .ex)
include h

/-- EX of the template R200. -/
theorem aluStep_ex (hv : f (resolve s s.selA rs) (resolve s s.selB rt) = v) :
    aluStep i rs rt f s = .next (afterEx s rs rt (traitsOf i).dest (traitsOf i).we (traitsOf i).isLoad v 0 0) :=
  perform_ex_results h (by rw [← hv]; rfl)

theorem exec_add_ex :
    exec (.add rd rs rt sa) s = .next (afterEx s rs rt rd true false
      (BitVec.ofNat 32 ((resolve s s.selA rs).toNat + (resolve s s.selB rt).toNat)) 0 0) :=
  aluStep_ex h (add_eq_ofNat _ _)

theorem exec_addu_ex :
    exec (.addu rd rs rt sa) s = .next (afterEx s rs rt rd true false
      (BitVec.ofNat 32 ((resolve s s.selA rs).toNat + (resolve s s.selB rt).toNat)) 0 0) :=
  aluStep_ex h (add_eq_ofNat _ _)

theorem exec_sub_ex :
    exec (.sub rd rs rt sa) s = .next (afterEx s rs rt rd true false
      (BitVec.ofInt 32 ((resolve s s.selA rs).toInt - (resolve s s.selB rt).toInt)) 0 0) :=
  aluStep_ex h (sub_eq_ofInt _ _)

theorem exec_subu_ex :
    exec (.subu rd rs rt sa) s = .next (afterEx s rs rt rd true false
      (BitVec.ofInt 32 ((resolve s s.selA rs).toInt - (resolve s s.selB rt).toInt)) 0 0) :=
  aluStep_ex h (sub_eq_ofInt _ _)

theorem exec_and_ex :
    exec (.and rd rs rt sa) s = .next (afterEx s rs rt rd true false
      (resolve s s.selA rs &&& resolve s s.selB rt) 0 0) :=
  aluStep_ex h rfl

theorem exec_or_ex :
    exec (.or rd rs rt sa) s = .next (afterEx s rs rt rd true false
      (resolve s s.selA rs ||| resolve s s.selB rt) 0 0) :=
  aluStep_ex h rfl

theorem exec_xor_ex :
    exec (.xor rd rs rt sa) s = .next (afterEx s rs rt rd true false
      (resolve s s.selA rs ^^^ resolve s s.selB rt) 0 0) :=
  aluStep_ex h rfl

theorem exec_nor_ex :
    exec (.nor rd rs rt sa) s = .next (afterEx s rs rt rd true false
      (~~~ (resolve s s.selA rs ||| resolve s s.selB rt)) 0 0) := by
  rw [exec, execNor]
  exact aluStep_ex h rfl

theorem exec_slt_ex :
    exec (.slt rd rs rt sa) s = .next (afterEx s rs rt rd true false
      (if (resolve s s.selA rs).toInt < (resolve s s.selB rt).toInt then 1 else 0) 0 0) :=
  aluStep_ex h (setLess_eq _ _)

theorem exec_sll_ex :
    exec (.sll rd rs rt sa) s = .next (afterEx s rs rt rd true false
      (BitVec.ofNat 32 ((resolve s s.selB rt).toNat * 2 ^ sa.toNat)) 0 0) := by
  rw [exec, execSll]
  exact aluStep_ex h (shiftLeft_eq_ofNat _ _)

theorem exec_srl_ex :
    exec (.srl rd rs rt sa) s = .next (afterEx s rs rt rd true false
      (BitVec.ofNat 32 ((resolve s s.selB rt).toNat / 2 ^ sa.toNat)) 0 0) := by
  rw [exec, execSrl]
  exact aluStep_ex h (ushiftRight_eq_ofNat _ _)

theorem exec_sra_ex :
    exec (.sra rd rs rt sa) s = .next (afterEx s rs rt rd true false
      (BitVec.ofInt 32 ((resolve s s.selB rt).toInt / 2 ^ sa.toNat)) 0 0) := by
  rw [exec, execSra]
  exact aluStep_ex h (sshiftRight_eq_ofInt _ _)

end RegisterAlu

/-- Settles O5: each of the twelve is the template R200 on a word operation, which is the exact one narrowed. -/
theorem registerAluComputesInEx : Obligations.RegisterAluComputesInEx := by
  unfold Obligations.RegisterAluComputesInEx
  intro s rd rs rt sa h
  exact ⟨exec_add_ex h, exec_addu_ex h, exec_sub_ex h, exec_subu_ex h, exec_and_ex h, exec_or_ex h, exec_xor_ex h,
    exec_nor_ex h, exec_slt_ex h, exec_sll_ex h, exec_srl_ex h, exec_sra_ex h⟩

/-- Settles O6: no instruction of the template R200 has a MEM or WB step of its own. -/
theorem registerAluPassesAndWrites : Obligations.RegisterAluPassesAndWrites := by
  unfold Obligations.RegisterAluPassesAndWrites
  intro s rd rs rt sa
  simp only [List.forall_mem_cons, List.not_mem_nil, false_implies, implies_true, and_true]
  refine ⟨?_, ?_, ?_, ?_, ?_, ?_, ?_, ?_, ?_, ?_, ?_, ?_⟩ <;>
    exact ⟨fun h => perform_mem_pass h, fun h => perform_wb_write h rfl rfl⟩

/-! ### Immediate ALU (42_alu_immediate.md) -/

section ImmediateAlu
variable {i : Instr} {rs rt : Reg} {imm : Imm16} {f : Word → Word → Word} {s : State} {v : Word} (h : s.stage = .ex)
include h

/-- EX of the template R230. -/
theorem aluImmStep_ex (hv : f (resolve s s.selA rs) s.idex.imm = v) :
    aluImmStep i rt rs f s = .next (afterEx s rs rt (traitsOf i).dest (traitsOf i).we (traitsOf i).isLoad v 0 0) :=
  perform_ex_results h (by rw [← hv]; rfl)

theorem exec_andi_ex :
    exec (.andi rt rs imm) s = .next (afterEx s rs rt rt true false
      (resolve s s.selA rs &&& BitVec.ofNat 32 imm.toNat) 0 0) := by
  rw [exec, execAndi]
  exact aluImmStep_ex h (by rw [zextImm_eq_ofNat])

theorem exec_ori_ex :
    exec (.ori rt rs imm) s = .next (afterEx s rs rt rt true false
      (resolve s s.selA rs ||| BitVec.ofNat 32 imm.toNat) 0 0) := by
  rw [exec, execOri]
  exact aluImmStep_ex h (by rw [zextImm_eq_ofNat])

theorem exec_xori_ex :
    exec (.xori rt rs imm) s = .next (afterEx s rs rt rt true false
      (resolve s s.selA rs ^^^ BitVec.ofNat 32 imm.toNat) 0 0) := by
  rw [exec, execXori]
  exact aluImmStep_ex h (by rw [zextImm_eq_ofNat])

theorem exec_lui_ex :
    exec (.lui rt rs imm) s = .next (afterEx s rs rt rt true false
      (BitVec.ofNat 32 (imm.toNat * 2 ^ 16)) 0 0) := by
  rw [exec, execLui]
  exact aluImmStep_ex h (upperImm_eq_ofNat imm)

variable (himm : s.idex.imm = sextImm imm)
include himm

theorem exec_addi_ex :
    exec (.addi rt rs imm) s = .next (afterEx s rs rt rt true false
      (BitVec.ofInt 32 ((resolve s s.selA rs).toInt + imm.toInt)) 0 0) :=
  aluImmStep_ex h (by rw [add_eq_ofInt, himm, sextImm_toInt])

theorem exec_addiu_ex :
    exec (.addiu rt rs imm) s = .next (afterEx s rs rt rt true false
      (BitVec.ofInt 32 ((resolve s s.selA rs).toInt + imm.toInt)) 0 0) :=
  aluImmStep_ex h (by rw [add_eq_ofInt, himm, sextImm_toInt])

theorem exec_slti_ex :
    exec (.slti rt rs imm) s = .next (afterEx s rs rt rt true false
      (if (resolve s s.selA rs).toInt < imm.toInt then 1 else 0) 0 0) :=
  aluImmStep_ex h (by rw [setLess_eq, himm, sextImm_toInt])

end ImmediateAlu

/-- Settles O7: as O5, on the template R230, with the immediate as ID latched it or as EX takes it from the word. -/
theorem immediateAluComputesInEx : Obligations.ImmediateAluComputesInEx := by
  unfold Obligations.ImmediateAluComputesInEx
  intro s rt rs imm h himm
  exact ⟨exec_addi_ex h himm, exec_addiu_ex h himm, exec_slti_ex h himm, exec_andi_ex h, exec_ori_ex h, exec_xori_ex h,
    exec_lui_ex h⟩

/-- Settles O8: no instruction of the template R230 has a MEM or WB step of its own. -/
theorem immediateAluPassesAndWrites : Obligations.ImmediateAluPassesAndWrites := by
  unfold Obligations.ImmediateAluPassesAndWrites
  intro s rt rs imm
  simp only [List.forall_mem_cons, List.not_mem_nil, false_implies, implies_true, and_true]
  refine ⟨?_, ?_, ?_, ?_, ?_, ?_, ?_⟩ <;> exact ⟨fun h => perform_mem_pass h, fun h => perform_wb_write h rfl rfl⟩

/-! ### An ALU instruction that runs alone (40_pipeline.md R134) -/

/-- EX of an ALU instruction whose operands come from the register file puts its result in `EXMEM.ALU`. -/
theorem exec_ex_of_aluResult {s : State} {i : Instr} {dest : Reg} {v : Word} (h : s.stage = .ex) (hA : s.selA = .none)
    (hB : s.selB = .none) (himm : s.idex.imm = sextImm (immField (encode i)))
    (hr : aluResult (readReg s) i = some (dest, v)) :
    ∃ rs rt, exec i s = .next (afterEx s rs rt dest true false v 0 0) := by
  have ra : ∀ r, resolve s s.selA r = readReg s r := fun r => by rw [hA]; rfl
  have rb : ∀ r, resolve s s.selB r = readReg s r := fun r => by rw [hB]; rfl
  have imm16 : ∀ op rt rs imm, encode i = iWord op rt rs imm → s.idex.imm = sextImm imm := fun op rt rs imm e => by
    rw [himm, e, immField_iWord]
  cases i with
  | add rd rs rt sa => cases hr; exact ⟨rs, rt, by rw [exec_add_ex h, ra, rb]⟩
  | addu rd rs rt sa => cases hr; exact ⟨rs, rt, by rw [exec_addu_ex h, ra, rb]⟩
  | sub rd rs rt sa => cases hr; exact ⟨rs, rt, by rw [exec_sub_ex h, ra, rb]⟩
  | subu rd rs rt sa => cases hr; exact ⟨rs, rt, by rw [exec_subu_ex h, ra, rb]⟩
  | and rd rs rt sa => cases hr; exact ⟨rs, rt, by rw [exec_and_ex h, ra, rb]⟩
  | or rd rs rt sa => cases hr; exact ⟨rs, rt, by rw [exec_or_ex h, ra, rb]⟩
  | xor rd rs rt sa => cases hr; exact ⟨rs, rt, by rw [exec_xor_ex h, ra, rb]⟩
  | nor rd rs rt sa => cases hr; exact ⟨rs, rt, by rw [exec_nor_ex h, ra, rb]⟩
  | slt rd rs rt sa => cases hr; exact ⟨rs, rt, by rw [exec_slt_ex h, ra, rb]⟩
  | sll rd rs rt sa => cases hr; exact ⟨rs, rt, by rw [exec_sll_ex h, rb]⟩
  | srl rd rs rt sa => cases hr; exact ⟨rs, rt, by rw [exec_srl_ex h, rb]⟩
  | sra rd rs rt sa => cases hr; exact ⟨rs, rt, by rw [exec_sra_ex h, rb]⟩
  | addi rt rs imm => cases hr; exact ⟨rs, dest, by rw [exec_addi_ex h (imm16 _ _ _ imm rfl), ra]⟩
  | addiu rt rs imm => cases hr; exact ⟨rs, dest, by rw [exec_addiu_ex h (imm16 _ _ _ imm rfl), ra]⟩
  | slti rt rs imm => cases hr; exact ⟨rs, dest, by rw [exec_slti_ex h (imm16 _ _ _ imm rfl), ra]⟩
  | andi rt rs imm => cases hr; exact ⟨rs, dest, by rw [exec_andi_ex h, ra]⟩
  | ori rt rs imm => cases hr; exact ⟨rs, dest, by rw [exec_ori_ex h, ra]⟩
  | xori rt rs imm => cases hr; exact ⟨rs, dest, by rw [exec_xori_ex h, ra]⟩
  | lui rt rs imm => cases hr; exact ⟨rs, dest, exec_lui_ex h⟩
  | _ => cases hr

/-- An ALU instruction writes its destination and has no MEM or WB step. -/
theorem exec_of_aluResult {x : Reg → Word} {i : Instr} {dest : Reg} {v : Word} (hr : aluResult x i = some (dest, v)) :
    ∃ c rs rt f, c.dest = dest ∧ c.we = true ∧ c.isLoad = false ∧ ∀ s, exec i s = perform c rs rt f .pass .none s := by
  cases i <;> cases hr <;> exact ⟨_, _, _, _, rfl, rfl, rfl, fun _ => rfl⟩

/-- The state after ID, IF and the commit when ID emits a bubble and IF fetches one. -/
def afterBubbleFetch (s : State) : State :=
  { s with
    idex := PipeReg.bubble
    selA := .none
    selB := .none
    ifid := fetchLatch 0 s.cur.pc
    nxt := { s.nxt with pc := s.cur.pc + 4 }
    cur := { s.nxt with pc := s.cur.pc + 4 }
    cycleCount := s.cycleCount + 1
    stage := .wb }

/-- The machine runs, nothing is stalled or flushed, ID finds a bubble, and the fetch finds one too. -/
structure Idle (s : State) : Prop where
  runFlag : s.runFlag = true
  stallCount : s.stallCount = 0
  branchFlag : s.branchFlag = false
  ifid : s.ifid.ir = 0
  fetch : memRead s.cfg.regions s.mem s.cur.pc = .ok 0

theorem idStage_bubble {s : State} (hifid : s.ifid.ir = 0) (hstall : s.stallCount = 0) (hflag : s.branchFlag = false) :
    idStage s = (idBubble s, false) := by
  rw [idStage, if_neg (by omega), if_neg (by simp [hflag]), if_pos hifid]

theorem finishCycle_of_idle {s : State} (h : Idle s) : finishCycle s = .next (afterBubbleFetch s) := by
  have hid := idStage_bubble h.ifid h.stallCount h.branchFlag
  refine finishCycle_of_fetch
    (t := { idBubble s with ifid := fetchLatch 0 s.cur.pc, nxt := { s.nxt with pc := s.cur.pc + 4 } }) ?_
  rw [hid, ifStage, if_neg Bool.false_ne_true]
  dsimp only [idBubble_cfg, idBubble_mem, idBubble_cur, bind, Except.bind]
  rw [h.fetch]
  rfl

/-- An idle machine stays so while the next fetch finds a bubble. -/
theorem idle_afterBubbleFetch {s : State} (h : Idle s) {pc : Word} (hpc : s.cur.pc = pc)
    (hfetch : memRead s.cfg.regions s.mem (pc + 4) = .ok 0) : Idle (afterBubbleFetch s) := by
  subst hpc
  exact ⟨h.runFlag, h.stallCount, h.branchFlag, rfl, hfetch⟩

/-- A cycle of a running machine, stage by stage. -/
theorem step_of_stages {s a b c t : State} (hrun : s.runFlag = true) (ha : wbStage { s with missFlag := false } = .next a)
    (hb : memStage a = .next b) (hc : exStage b = .next c) (hfinish : finishCycle c = .next t) : step s = .next t := by
  rw [step, cycle_running hrun, ha, andThen_next, hb, andThen_next, hc, andThen_next, hfinish]

theorem wbStage_bubble {s : State} (h : s.memwb.ir = 0) : wbStage s = .next (atStage .wb s) := by
  rw [wbStage, h, decode_zero]

theorem memStage_bubble {s : State} (h : s.exmem.ir = 0) : memStage s = .next (bubbleMem (atStage .mem s)) := by
  rw [memStage, h, decode_zero]

theorem exStage_bubble {s : State} (h : s.idex.ir = 0) : exStage s = .next (bubbleEx (atStage .ex s)) := by
  rw [exStage, h, decode_zero]

/-- What `withFetchWord` presents: the word itself, in ID/EX. -/
theorem withFetchWord_eq (s : State) (w : Word) : s.withFetchWord 32 w.toNat = presentWord w s := by
  rw [State.withFetchWord, Nat.mod_eq_of_lt w.isLt, BitVec.ofNat_toNat, BitVec.setWidth_eq]

/-! The states that an ALU instruction running alone leaves: its result stands in EX/MEM, then in MEM/WB, then in its
destination. -/

/-- The state before EX of the presented word, when no older one is in flight. -/
def beforeEx (w : Word) (s : State) : State :=
  atStage .ex (bubbleMem (atStage .mem (atStage .wb { presentWord w s with missFlag := false })))

/-- The state as MEM and EX leave it when MEM passes the instruction on to `dest`. -/
def alonePassed (s : State) (dest : Reg) : State :=
  bubbleEx (atStage .ex (afterPass (atStage .mem (atStage .wb { s with missFlag := false })) dest true))

/-- The state as WB, MEM and EX leave it when WB writes `dest`. -/
def aloneWritten (s : State) (dest : Reg) : State :=
  bubbleEx (atStage .ex (bubbleMem (atStage .mem
    (afterWrite (atStage .wb { s with missFlag := false }) dest s.memwb.alu))))

section Alone
variable {s : State} {i : Instr} {x : Reg → Word} {dest : Reg} {v : Word}

theorem idle_alonePassed (h : Idle s) : Idle (alonePassed s dest) := by
  obtain ⟨hrun, hstall, hflag, hifid, hfetch⟩ := h
  constructor <;> simpa [alonePassed, afterPass]

theorem idle_aloneWritten (h : Idle s) : Idle (aloneWritten s dest) := by
  obtain ⟨hrun, hstall, hflag, hifid, hfetch⟩ := h
  constructor <;> simpa [aloneWritten, afterWrite]

theorem step_alonePassed (hr : aluResult x i = some (dest, v)) (h : Idle s) (hmemwb : s.memwb.ir = 0)
    (hexmem : decode s.exmem.ir = .instr i) (hidex : s.idex.ir = 0) :
    step s = .next (afterBubbleFetch (alonePassed s dest)) := by
  obtain ⟨c, rs, rt, f, hdest, hwe, -, hperform⟩ := exec_of_aluResult hr
  refine step_of_stages h.runFlag (wbStage_bubble ?_) ((memStage_of_decode (i := i) ?_).trans ?_) (exStage_bubble ?_)
    (finishCycle_of_idle (idle_alonePassed h))
  · simpa using hmemwb
  · simpa using hexmem
  · rw [hperform, perform_mem_pass (by simp), hdest, hwe]
  · simpa [afterPass] using hidex

theorem step_aloneWritten (hr : aluResult x i = some (dest, v)) (h : Idle s) (hmemwb : decode s.memwb.ir = .instr i)
    (hexmem : s.exmem.ir = 0) (hidex : s.idex.ir = 0) : step s = .next (afterBubbleFetch (aloneWritten s dest)) := by
  obtain ⟨c, rs, rt, f, hdest, hwe, hload, hperform⟩ := exec_of_aluResult hr
  refine step_of_stages h.runFlag ((wbStage_of_decode (i := i) ?_).trans ?_) (memStage_bubble ?_) (exStage_bubble ?_)
    (finishCycle_of_idle (idle_aloneWritten h))
  · simpa using hmemwb
  · rw [hperform, perform_wb_write (by simp) hload hwe, hdest]
    simp
  · simpa [afterWrite] using hexmem
  · simpa [afterWrite] using hidex

end Alone

/-- EX of the presented ALU instruction changes nothing but EX/MEM, which takes the word and the result, and bubbles are elsewhere. -/
theorem exStage_alone {s : State} {i : Instr} {dest : Reg} {v : Word} (hq : Quiet s) (hwf : i.wf)
    (hr : aluResult (readReg s) i = some (dest, v)) (hfetch : memRead s.cfg.regions s.mem s.cur.pc = .ok 0) :
    ∃ c, exStage (bubbleMem (atStage .mem (atStage .wb { presentWord (encode i) s with missFlag := false }))) = .next c ∧
      Idle c ∧ c.exmem.ir = encode i ∧ c.exmem.alu = v ∧ c.memwb = PipeReg.bubble ∧ c.cfg = s.cfg ∧ c.mem = s.mem ∧
      c.cache = s.cache ∧ c.cur = s.cur ∧ c.nxt = s.nxt ∧ c.instructionCount = s.instructionCount ∧
      c.cycleCount = s.cycleCount := by
  have hregs : readReg (beforeEx (encode i) s) = readReg s := by
    funext r
    simp [readReg, beforeEx, presentWord]
  obtain ⟨rs, rt, hex⟩ := exec_ex_of_aluResult (s := beforeEx (encode i) s) rfl rfl rfl rfl (hregs ▸ hr)
  refine ⟨_, (exStage_of_decode (i := i) ?_).trans hex, ⟨rfl, ?_, ?_, ?_, ?_⟩, ?_⟩
  · simpa [presentWord, idLatch] using decode_encode hwf
  · simpa [afterEx, beforeEx, presentWord] using hq.stallCount
  · simpa [afterEx, beforeEx, presentWord] using hq.branchFlag
  · simpa [afterEx, beforeEx, presentWord] using hq.ifid
  · simpa [afterEx, beforeEx, presentWord] using hfetch
  · simp [afterEx, beforeEx, presentWord, idLatch]

/-- Settles O9: the first cycle executes the instruction among bubbles, the second passes it through MEM, and the third writes its
result; each of them fetches a bubble. -/
theorem loneAluInstructionWritesItsResult : Obligations.LoneAluInstructionWritesItsResult := by
  unfold Obligations.LoneAluInstructionWritesItsResult
  intro s i dest v hq ⟨hf0, hf4, hf8⟩ hwf hr
  have hd := decode_encode hwf
  obtain ⟨c, hex, hidle, hir, halu, hmemwb, hcfg, hmem, hcache, hcur, hnxt, hretired, hcycles⟩ :=
    exStage_alone hq hwf hr hf0
  have h1 : step (presentWord (encode i) s) = .next (afterBubbleFetch c) := by
    refine step_of_stages rfl (wbStage_bubble ?_) (memStage_bubble ?_) hex (finishCycle_of_idle hidle)
    · simpa [presentWord] using hq.memwb
    · simpa [presentWord] using hq.exmem
  have idle1 : Idle (afterBubbleFetch c) := idle_afterBubbleFetch hidle (by rw [hcur]) (by rw [hcfg, hmem, hf4])
  have h2 : step (afterBubbleFetch c) = .next (afterBubbleFetch (alonePassed (afterBubbleFetch c) dest)) := by
    refine step_alonePassed hr idle1 ?_ ?_ ?_
    · simp [afterBubbleFetch, hmemwb, PipeReg.bubble]
    · simp [afterBubbleFetch, hir, hd]
    · simp [afterBubbleFetch, PipeReg.bubble]
  have idle2 : Idle (afterBubbleFetch (alonePassed (afterBubbleFetch c) dest)) := by
    refine idle_afterBubbleFetch (idle_alonePassed idle1) (pc := s.cur.pc + 4) ?_ ?_
    · simp [alonePassed, afterPass, afterBubbleFetch, hcur]
    · simpa [alonePassed, afterPass, afterBubbleFetch, hcfg, hmem, BitVec.add_assoc] using hf8
  have h3 := step_aloneWritten hr idle2 (by simp [alonePassed, afterPass, afterBubbleFetch, hir, hd])
    (by simp [alonePassed, afterPass, afterBubbleFetch, PipeReg.bubble]) (by simp [afterBubbleFetch, PipeReg.bubble])
  refine ⟨afterBubbleFetch (aloneWritten (afterBubbleFetch (alonePassed (afterBubbleFetch c) dest)) dest), ?_, ?_⟩
  · rw [withFetchWord_eq, steps, h1, andThen_next, steps, h2, andThen_next, steps, h3, andThen_next, steps]
  · simp [afterBubbleFetch, aloneWritten, afterWrite, alonePassed, afterPass, halu, hmem, hcache, hnxt, hretired, hcycles,
      hq.generations, hidle.runFlag]

end Sys2Proof.Machine
end

section
/-! PROOF. Multiply, divide and the moves of HI and LO in their stages (43_muldiv_hilo.md). -/

namespace Sys2Proof.Machine

/-! ### The shapes -/

section Shapes
variable {c : Traits} {rs rt : Reg} {f : ExIn → ExOut} {m : MemStep} {b : WbStep} {s : State} {hi lo : Word}

/-- EX of a division that uses its `DIV_OVERFLOW` draw (R260). -/
theorem perform_ex_draw (h : s.stage = .ex) (hf : f (exInput rs rt s) = { hi := hi, lo := lo, drew := true }) :
    perform c rs rt f m b s =
      .next { afterEx s rs rt c.dest c.we c.isLoad 0 hi lo with drawCount := s.drawCount + 1 } := by
  rw [perform_ex h, performEx, hf]
  rfl

variable (h : s.stage = .wb) (hload : c.isLoad = false) (hwe : c.we = false)
include h hload hwe

/-- WB of an instruction that writes HI and LO and no general register (R250). -/
theorem perform_wb_hiLo : perform c rs rt f m .hiLo s = .next (afterHiLo s s.memwb.hi s.memwb.lo) := by
  rw [perform_wb h, performWb, wbWrite, hload, hwe]
  rfl

theorem perform_wb_hiLo_of_divisor (hb : s.memwb.b ≠ 0) :
    perform c rs rt f m .hiLoUnlessZeroDivisor s = .next (afterHiLo s s.memwb.hi s.memwb.lo) := by
  rw [perform_wb h, performWb, wbWrite, hload, hwe]
  simp only [wbStep, Bool.false_eq_true, if_false, if_neg hb]
  rfl

theorem perform_wb_hiLo_of_zeroDivisor (hb : s.memwb.b = 0) :
    perform c rs rt f m .hiLoUnlessZeroDivisor s = .next (afterRetire s) := by
  rw [perform_wb h, performWb, wbWrite, hload, hwe]
  simp only [wbStep, Bool.false_eq_true, if_false, if_pos hb]
  rfl

theorem perform_wb_hi : perform c rs rt f m .hi s = .next (afterHiLo s s.memwb.alu s.nxt.lo) := by
  rw [perform_wb h, performWb, wbWrite, hload, hwe]
  rfl

theorem perform_wb_lo : perform c rs rt f m .lo s = .next (afterHiLo s s.nxt.hi s.memwb.alu) := by
  rw [perform_wb h, performWb, wbWrite, hload, hwe]
  rfl

end Shapes

/-! ### Signed words -/

theorem word_toInt_bounds (a : Word) : -2147483648 ≤ a.toInt ∧ a.toInt < 2147483648 :=
  ⟨BitVec.le_toInt a, BitVec.toInt_lt⟩

theorem toInt_ofInt_of_fits {n : Int} (hlo : -2147483648 ≤ n) (hhi : n < 2147483648) : (BitVec.ofInt 32 n).toInt = n :=
  BitVec.toInt_ofInt_eq_self (by decide) hlo hhi

/-! ### Products (R251, R252, R259) -/

/-- The two halves of a 64-bit word, put together, are the word. -/
theorem append_halves (p : BitVec 64) : (p.extractLsb' 32 32 ++ p.extractLsb' 0 32 : BitVec 64) = p := by
  apply BitVec.eq_of_toNat_eq
  have := p.isLt
  rw [toNat_append_eq_add, BitVec.extractLsb'_toNat, BitVec.extractLsb'_toNat, Nat.shiftRight_eq_div_pow,
    Nat.shiftRight_zero]
  omega

/-- The product of two signed words has a 64-bit signed form. -/
theorem signedProduct_toInt (a b : Word) : (signedProduct a b).toInt = a.toInt * b.toInt := by
  have hlo : -2 ^ 62 ≤ a.toInt * b.toInt := BitVec.le_toInt_mul_toInt
  have hhi : a.toInt * b.toInt ≤ 2 ^ 62 := BitVec.toInt_mul_toInt_le
  exact BitVec.toInt_ofInt_eq_self (by decide) (by omega) (by omega)

/-- The product of two words has a 64-bit unsigned form. -/
theorem unsignedProduct_toNat (a b : Word) : (unsignedProduct a b).toNat = a.toNat * b.toNat := by
  have h : a.toNat * b.toNat < 2 ^ 32 * 2 ^ 32 := Nat.mul_lt_mul'' a.isLt b.isLt
  rw [unsignedProduct, BitVec.toNat_ofNat, Nat.mod_eq_of_lt (by omega)]

/-- Settles O10: the halves of the product in HI and LO make up the 64-bit product, which does not overflow. -/
theorem multiplyGivesTheExactProductInEx : Obligations.MultiplyGivesTheExactProductInEx := by
  unfold Obligations.MultiplyGivesTheExactProductInEx
  intro s rd rs rt sa h
  refine ⟨⟨_, _, ?_, perform_ex_results h rfl⟩, ⟨_, _, ?_, perform_ex_results h rfl⟩⟩
  · exact (congrArg BitVec.toInt (append_halves _)).trans (signedProduct_toInt _ _)
  · exact (congrArg BitVec.toNat (append_halves _)).trans (unsignedProduct_toNat _ _)

/-! ### DIV (R253, R259, R260) -/

section Div
variable {x : ExIn}

theorem divOut_zero (hb : x.opB = 0) : divOut x = {} := if_pos hb

theorem divOut_overflow (ha : x.opA = 0x80000000) (hb : x.opB = 0xFFFFFFFF) :
    divOut x = { hi := x.draw.1, lo := x.draw.2, drew := true } := by
  simp [divOut, divOverflows, ha, hb]

theorem divOut_quotient (hb : x.opB ≠ 0) (hov : ¬ (x.opA = 0x80000000 ∧ x.opB = 0xFFFFFFFF)) :
    divOut x =
      { hi := BitVec.ofInt 32 (x.opA.toInt.tmod x.opB.toInt), lo := BitVec.ofInt 32 (x.opA.toInt.tdiv x.opB.toInt) } := by
  have hov' : divOverflows x.opA x.opB = false := by
    simpa only [divOverflows, Bool.and_eq_false_iff, beq_eq_false_iff_ne, ← not_and_or] using hov
  rw [divOut, if_neg hb, hov', if_neg Bool.false_ne_true, Int.tmod_def, Int.mul_comm]

end Div

section Quotient
variable {a b : Word} (hb : b ≠ 0)
include hb

theorem toInt_ne_zero : b.toInt ≠ 0 := fun h => hb (BitVec.eq_of_toInt_eq h)

/-- The remainder is smaller than the divisor, so it has a signed form of 32 bits. -/
theorem tmod_fits : (BitVec.ofInt 32 (a.toInt.tmod b.toInt)).toInt = a.toInt.tmod b.toInt := by
  have hlt : (a.toInt.tmod b.toInt).natAbs < b.toInt.natAbs := by
    rw [Int.natAbs_tmod]
    exact Nat.mod_lt _ (Int.natAbs_pos.mpr (toInt_ne_zero hb))
  have hb' := word_toInt_bounds b
  exact toInt_ofInt_of_fits (by omega) (by omega)

/-- Only -2^31 / -1 has a quotient without such a form (R260). -/
theorem tdiv_fits (hov : ¬ (a = 0x80000000 ∧ b = 0xFFFFFFFF)) :
    (BitVec.ofInt 32 (a.toInt.tdiv b.toInt)).toInt = a.toInt.tdiv b.toInt := by
  have ha := word_toInt_bounds a
  have hle : (a.toInt.tdiv b.toInt).natAbs ≤ a.toInt.natAbs := Int.natAbs_tdiv_le_natAbs _ _
  have hne : a.toInt.tdiv b.toInt ≠ 2147483648 := fun hq => by
    have hdiv : a.toInt.natAbs / b.toInt.natAbs = 2147483648 := by
      have h := Int.natAbs_tdiv a.toInt b.toInt
      rw [hq] at h
      exact h.symm
    have hmul : 2147483648 * b.toInt.natAbs ≤ a.toInt.natAbs := by
      rw [← hdiv]
      exact Nat.div_mul_le_self _ _
    have hb0 := toInt_ne_zero hb
    have hA : a.toInt = -2147483648 := by omega
    rcases (by omega : b.toInt = 1 ∨ b.toInt = -1) with h1 | h1
    · rw [h1, Int.tdiv_one, hA] at hq
      exact absurd hq (by decide)
    · exact hov ⟨BitVec.eq_of_toInt_eq hA, BitVec.eq_of_toInt_eq h1⟩
  exact toInt_ofInt_of_fits (by omega) (by omega)

end Quotient

/-- The remainder of a division that rounds toward zero is 0 or has the dividend's sign (R259, D19). -/
theorem tmod_sign (a b : Int) : a.tmod b = 0 ∨ (a.tmod b < 0 ↔ a < 0) := by
  have hsign := Int.sign_tmod a b
  split at hsign
  · exact .inl (Int.sign_eq_zero_iff_zero.mp hsign)
  · exact .inr (by rw [← Int.sign_eq_neg_one_iff_neg, hsign, Int.sign_eq_neg_one_iff_neg])

/-- Settles O11: the three clauses are the three arms of DIV's EX step, and outside the overflow its results are the exact ones. -/
theorem divGivesQuotientAndRemainderInEx : Obligations.DivGivesQuotientAndRemainderInEx := by
  unfold Obligations.DivGivesQuotientAndRemainderInEx
  intro s rd rs rt sa h
  refine ⟨fun hb => perform_ex_results h (divOut_zero hb), fun ha hb => perform_ex_draw h (divOut_overflow ha hb),
    fun hb hov => ⟨_, _, perform_ex_results h (divOut_quotient hb hov), ?_, ?_, ?_⟩⟩
  · simp only [exInput]
    rw [tmod_fits hb, tdiv_fits hb hov, Int.mul_comm, Int.add_comm, Int.tmod_add_mul_tdiv]
  · simp only [exInput]
    rw [tmod_fits hb, Int.natAbs_tmod]
    exact Nat.mod_lt _ (Int.natAbs_pos.mpr (toInt_ne_zero hb))
  · simp only [exInput]
    rw [tmod_fits hb]
    refine (tmod_sign _ _).imp_left fun h0 => ?_
    rw [h0]
    rfl

/-! ### DIVU (R254) -/

theorem divuOut_zero {x : ExIn} (hb : x.opB = 0) : divuOut x = {} := if_pos hb

theorem divuOut_quotient {x : ExIn} (hb : x.opB ≠ 0) :
    divuOut x = { hi := BitVec.ofNat 32 (x.opA.toNat % x.opB.toNat), lo := BitVec.ofNat 32 (x.opA.toNat / x.opB.toNat) } :=
  if_neg hb

theorem toNat_ofNat_of_le {n : Nat} (a : Word) (h : n ≤ a.toNat) : (BitVec.ofNat 32 n).toNat = n :=
  Nat.mod_eq_of_lt (Nat.lt_of_le_of_lt h a.isLt)

/-- Settles O12: quotient and remainder are no larger than the dividend, so nothing is cut off. -/
theorem divuGivesQuotientAndRemainderInEx : Obligations.DivuGivesQuotientAndRemainderInEx := by
  unfold Obligations.DivuGivesQuotientAndRemainderInEx
  intro s rd rs rt sa h
  refine ⟨fun hb => perform_ex_results h (divuOut_zero hb),
    fun hb => ⟨_, _, perform_ex_results h (divuOut_quotient hb), ?_, ?_⟩⟩
  · simp only [exInput]
    rw [toNat_ofNat_of_le _ (Nat.mod_le _ _), toNat_ofNat_of_le _ (Nat.div_le_self _ _), Nat.mul_comm]
    exact Nat.div_add_mod _ _
  · simp only [exInput]
    rw [toNat_ofNat_of_le _ (Nat.mod_le _ _)]
    exact Nat.mod_lt _ (Nat.pos_of_ne_zero fun h0 => hb (BitVec.eq_of_toNat_eq h0))

/-! ### MEM and WB (R250, R261) -/

/-- Settles O13: none of the four has a MEM step or a destination, and their WB steps write HI and LO. -/
theorem multiplyAndDivideWriteHiLoInWb : Obligations.MultiplyAndDivideWriteHiLoInWb := by
  unfold Obligations.MultiplyAndDivideWriteHiLoInWb
  intro s rd rs rt sa
  simp only [List.forall_mem_cons, List.not_mem_nil, false_implies, implies_true, and_true]
  exact ⟨⟨fun h => perform_mem_pass h, fun h => perform_mem_pass h, fun h => perform_mem_pass h, fun h => perform_mem_pass h⟩,
    ⟨fun h => perform_wb_hiLo h rfl rfl, fun h => perform_wb_hiLo h rfl rfl⟩,
    ⟨fun h hb => perform_wb_hiLo_of_divisor h rfl rfl hb, fun h hb => perform_wb_hiLo_of_divisor h rfl rfl hb⟩⟩

/-- Settles O14: with a zero divisor the WB step of both is skipped. -/
theorem divideByZeroLeavesHiLo : Obligations.DivideByZeroLeavesHiLo := by
  unfold Obligations.DivideByZeroLeavesHiLo
  intro s rd rs rt sa h hb
  simp only [List.forall_mem_cons, List.not_mem_nil, false_implies, implies_true, and_true]
  exact ⟨perform_wb_hiLo_of_zeroDivisor h rfl rfl hb, perform_wb_hiLo_of_zeroDivisor h rfl rfl hb⟩

/-- Settles O15: the four moves, stage by stage. -/
theorem hiLoMovesInTheirStages : Obligations.HiLoMovesInTheirStages := by
  unfold Obligations.HiLoMovesInTheirStages
  intro s rd rs rt sa
  refine ⟨fun h => ⟨?_, ?_, ?_, ?_⟩, fun h => ⟨?_, ?_, ?_, ?_⟩, fun h => ⟨?_, ?_, ?_, ?_⟩⟩
  · exact perform_ex_results h rfl
  · exact perform_ex_results h rfl
  · exact perform_ex_results h rfl
  · exact perform_ex_results h rfl
  · exact perform_mem h
  · exact perform_mem h
  · exact perform_mem_pass h
  · exact perform_mem_pass h
  · exact perform_wb_write h rfl rfl
  · exact perform_wb_write h rfl rfl
  · exact perform_wb_hi h rfl rfl
  · exact perform_wb_lo h rfl rfl

/-! ### A read of HI or LO right behind a multiply (R250, R262; D15) -/

/-- WB of the multiply in MEM/WB has written next HI and LO before MEM runs. -/
theorem wbStage_multiply {s a : State} {rd rs rt : Reg} {sa : Shamt}
    (h : decode s.memwb.ir = .instr (.mult rd rs rt sa) ∨ decode s.memwb.ir = .instr (.multu rd rs rt sa))
    (ha : wbStage s = .next a) : a.nxt.hi = s.memwb.hi ∧ a.nxt.lo = s.memwb.lo := by
  have e : wbStage s = .next (afterHiLo (atStage .wb s) s.memwb.hi s.memwb.lo) := by
    rcases h with h | h
    · rw [wbStage_of_decode h, exec, execMult]
      exact perform_wb_hiLo rfl rfl rfl
    · rw [wbStage_of_decode h, exec, execMultu]
      exact perform_wb_hiLo rfl rfl rfl
  cases e.symm.trans ha
  exact ⟨rfl, rfl⟩

/-- Settles O16: MEM/WB keeps to the end of the cycle what MEM took from the next generation, which WB has just written. -/
theorem hiLoReadSeesTheRetiringMultiply : Obligations.HiLoReadSeesTheRetiringMultiply := by
  unfold Obligations.HiLoReadSeesTheRetiringMultiply
  intro s t rd rs rt rd' rs' rt' sa sa' hrun h hmul
  obtain ⟨a, b, c, f, n, ha, hb, hc, -, rfl⟩ := step_stages hrun h
  obtain ⟨hhi, hlo⟩ := wbStage_multiply (s := { s with missFlag := false }) hmul ha
  have hexmem : a.exmem = s.exmem := (wbStage_frame ha).exmem
  have hmemwb : (idStage c).1.memwb = b.memwb := by
    rw [idStage_writes]
    exact (exStage_frame hc).memwb
  dsimp only
  rw [hmemwb, ← hhi, ← hlo, ← hexmem]
  refine ⟨fun hd => ?_, fun hd => ?_⟩
  · rw [memStage_of_decode hd, exec, execMfhi, perform_mem rfl] at hb
    cases hb
    rfl
  · rw [memStage_of_decode hd, exec, execMflo, perform_mem rfl] at hb
    cases hb
    rfl

end Sys2Proof.Machine
end

section
/-! PROOF. Loads and stores in their stages (44_load_store.md), through the cache and without it (20_memory.md R70 to R81, R85). -/

namespace Sys2Proof.Machine

/-! ### EX and WB (R270) -/

/-- EX of the template R270: the effective address. -/
theorem accessStep_ex {i : Instr} {rt rs : Reg} {imm : Imm16} {m : MemStep} {s : State} (h : s.stage = .ex)
    (himm : s.idex.imm = sextImm imm) :
    accessStep i rt rs m s =
      .next (afterEx s rs rt (traitsOf i).dest (traitsOf i).we (traitsOf i).isLoad
        (BitVec.ofInt 32 ((resolve s s.selA rs).toInt + imm.toInt)) 0 0) :=
  perform_ex_results h (by rw [← sextImm_toInt, ← himm, ← add_eq_ofInt]; rfl)

/-- Settles O17: all six are the template R270, which reads the immediate that ID latched. -/
theorem loadsAndStoresComputeTheAddressInEx : Obligations.LoadsAndStoresComputeTheAddressInEx := by
  unfold Obligations.LoadsAndStoresComputeTheAddressInEx
  intro s rt rs imm h himm
  simp only [List.forall_mem_cons, List.not_mem_nil, false_implies, implies_true, and_true]
  exact ⟨⟨accessStep_ex h himm, accessStep_ex h himm, accessStep_ex h himm⟩,
    ⟨accessStep_ex h himm, accessStep_ex h himm, accessStep_ex h himm⟩⟩

/-- WB of a load writes LMD (40_pipeline.md R180). -/
theorem perform_wb_load {c : Traits} {rs rt : Reg} {f : ExIn → ExOut} {m : MemStep} {s : State} (h : s.stage = .wb)
    (hload : c.isLoad = true) : perform c rs rt f m .none s = .next (afterWrite s c.dest s.memwb.lmd) := by
  rw [perform_wb h, performWb, wbWrite, hload]
  rfl

/-- Settles O22: the frame of WB decides by the class alone. -/
theorem loadsWriteAndStoresRetireInWb : Obligations.LoadsWriteAndStoresRetireInWb := by
  unfold Obligations.LoadsWriteAndStoresRetireInWb
  intro s rt rs imm h
  simp only [List.forall_mem_cons, List.not_mem_nil, false_implies, implies_true, and_true]
  exact ⟨⟨perform_wb_load h rfl, perform_wb_load h rfl, perform_wb_load h rfl⟩,
    ⟨perform_wb_retire h rfl rfl, perform_wb_retire h rfl rfl, perform_wb_retire h rfl rfl⟩⟩

/-! ### MEM: the six instructions are two, each in three widths -/

theorem extendLoad_eq_loadedValue (w : Word) (width : Width) : extendLoad w width = loadedValue w width := by
  cases width <;> rfl

section Widths
variable {s : State} {rt rs : Reg} {imm : Imm16} {i : Instr} {width : Width} (h : s.stage = .mem)
include h

/-- MEM of a load reads after the frame's latches, and extends what it read (R271 to R273). -/
theorem exec_load_mem
    (hi : (i, width) ∈ ([(.lb rt rs imm, .byte), (.lh rt rs imm, .half), (.lw rt rs imm, .word)] : List (Instr × Width))) :
    exec i s = ofExcept (performMem (.load rt) (.load width) s) := by
  simp only [List.mem_cons, Prod.mk.injEq, List.not_mem_nil, or_false] at hi
  rcases hi with ⟨rfl, rfl⟩ | ⟨rfl, rfl⟩ | ⟨rfl, rfl⟩ <;> exact perform_mem h

/-- MEM of a store writes after the frame's latches (R274 to R276). -/
theorem exec_store_mem
    (hi : (i, width) ∈ ([(.sb rt rs imm, .byte), (.sh rt rs imm, .half), (.sw rt rs imm, .word)] : List (Instr × Width))) :
    exec i s = ofExcept (dataWrite s.exmem.alu s.exmem.b width (afterPass s 0 false)) := by
  simp only [List.mem_cons, Prod.mk.injEq, List.not_mem_nil, or_false] at hi
  rcases hi with ⟨rfl, rfl⟩ | ⟨rfl, rfl⟩ | ⟨rfl, rfl⟩ <;> exact perform_mem h

end Widths

section Load
variable {s u : State} {c : Traits} {w : Word} {width : Width}

theorem performMem_load_ok (h : dataRead s.exmem.alu (memLatch c s) = .ok (w, u)) :
    performMem c (.load width) s = .ok (withLoaded u (loadedValue w width)) := by
  rw [performMem, h, ← extendLoad_eq_loadedValue]
  rfl

theorem performMem_load_error {f : Fault} (h : dataRead s.exmem.alu (memLatch c s) = .error f) :
    performMem c (.load width) s = .error f := by
  rw [performMem, h]
  rfl

end Load

/-! ### Loads through the cache (R71, R72, R76) -/

/-- A load through the cache is an access, and takes the addressed word of the block. -/
theorem cacheRead_eq {s : State} (hc : s.cfg.wf) (a : Word) :
    ∃ ws u, AccessedWith s a ws u ∧
      cacheRead a s = .ok (getElem ws (cacheOffset a).toNat (cacheOffset a).isLt, u) := by
  obtain ⟨u, hu⟩ := cacheAccess_ok hc a
  obtain ⟨ws, hws⟩ := accessedWith_of_cacheAccess hu
  refine ⟨ws, u, hws, ?_⟩
  rw [cacheRead, hu]
  dsimp only [bind, Except.bind]
  rw [hws.block]
  rfl

section CachedLoad
variable {s : State} {rt rs : Reg} {imm : Imm16} {i : Instr} {width : Width} (h : s.stage = .mem) (hc : s.cfg.wf)
  (he : s.cfg.cacheEnabled = true)
  (hi : (i, width) ∈ ([(.lb rt rs imm, .byte), (.lh rt rs imm, .half), (.lw rt rs imm, .word)] : List (Instr × Width)))
include h hc he hi

theorem exec_load_cached :
    ∃ ws u, AccessedWith (afterPass s rt true) s.exmem.alu ws u ∧
      exec i s = .next (withLoaded u
        (loadedValue (getElem ws (cacheOffset s.exmem.alu).toNat (cacheOffset s.exmem.alu).isLt) width)) := by
  obtain ⟨ws, u, hws, hread⟩ := cacheRead_eq (s := afterPass s rt true) hc s.exmem.alu
  refine ⟨ws, u, hws, ?_⟩
  rw [exec_load_mem h hi, performMem_load_ok (c := .load rt) ((dataRead_cached (s := afterPass s rt true) he _).trans hread)]
  rfl

end CachedLoad

/-- Four words, put together again. -/
theorem vector_four_eta (ws : Vector Word 4) : #v[ws[0], ws[1], ws[2], ws[3]] = ws := by
  apply Vector.ext
  intro i hi
  interval_cases i <;> rfl

/-- Settles O18: the access is a hit or a miss, and in both the datum is the addressed word of the block that it leaves. -/
theorem loadsReadThroughTheCacheInMem : Obligations.LoadsReadThroughTheCacheInMem := by
  unfold Obligations.LoadsReadThroughTheCacheInMem
  intro s rt rs imm i width hi h hc he
  obtain ⟨ws, u, hws, hexec⟩ := exec_load_cached h hc he hi
  refine ⟨fun hhit => ?hit, fun hmiss => ?miss⟩
  case hit =>
    obtain ⟨rfl, rfl⟩ := hws.hit ((cacheHit_iff _ _).mpr hhit)
    exact hexec
  case miss =>
    have hmiss' : cacheHit (afterPass s rt true).cache s.exmem.alu = false := by
      rw [← Bool.not_eq_true, cacheHit_iff]
      exact hmiss
    obtain ⟨hrefill, rfl⟩ := hws.miss hmiss'
    obtain ⟨h0, h1, h2, h3⟩ := refillWords_words hrefill
    refine ⟨ws[0], ws[1], ws[2], ws[3], h0, h1, h2, h3, ?_⟩
    rw [vector_four_eta]
    exact hexec

/-- Settles O19: a coherent block, refilled or found, holds what Memory reads at the aligned address, which lies in a region. -/
theorem loadGetsWhatMemoryHolds : Obligations.LoadGetsWhatMemoryHolds := by
  unfold Obligations.LoadGetsWhatMemoryHolds
  intro s t rt rs imm i width hi h hc he hcoh hmap ht
  obtain ⟨ws, u, hws, hexec⟩ := exec_load_cached h hc he hi
  cases hexec.symm.trans ht
  have hbase : mapped s.cfg (cacheBase s.exmem.alu) := (mapped_cacheBase_iff hc _).mpr hmap
  have hread : memRead s.cfg.regions s.mem (alignedAddr s.exmem.alu) =
      .ok (getElem ws (cacheOffset s.exmem.alu).toNat (cacheOffset s.exmem.alu).isLt) := by
    rw [alignedAddr_eq]
    exact hws.memRead (s := afterPass s rt true) hcoh hbase _
  have hword : getElem ws (cacheOffset s.exmem.alu).toNat (cacheOffset s.exmem.alu).isLt =
      memGetWord s.mem (alignedAddr s.exmem.alu).toNat := by
    rcases memRead_cases hread with ⟨hnone, -⟩ | ⟨g, -, -, hw⟩
    · have hsame : regionOf s.cfg.regions (alignedAddr s.exmem.alu) = regionOf s.cfg.regions s.exmem.alu :=
        regionOf_sameBlock hc (by rw [alignedAddr_toNat]; omega)
      rw [mapped, ← hsame, hnone] at hmap
      cases hmap
    · exact hw
  rw [hword] at hread ⊢
  exact ⟨hread, rfl, hws.mem.1⟩

/-! ### Stores through the cache (R71, R73, R76, R77) -/

/-- The number of byte `k` of a word. -/
theorem byteOfWord_toNat (w : Word) (k : Nat) : (byteOfWord w k).toNat = w.toNat / 2 ^ (8 * k) % 256 := by
  rw [byteOfWord, BitVec.extractLsb'_toNat, Nat.shiftRight_eq_div_pow]

theorem width_bytes_le (width : Width) : width.bytes ≤ 4 := by
  cases width <;> decide

/-- A store replaces the low bytes of its width and keeps the others (D25). -/
theorem byteOfWord_storedWord (old v : Word) (width : Width) {k : Nat} (hk : k < 4) :
    byteOfWord (storedWord old v width) k = if k < width.bytes then byteOfWord v k else byteOfWord old k := by
  have hold := old.isLt
  apply BitVec.eq_of_toNat_eq
  rw [apply_ite BitVec.toNat]
  simp only [byteOfWord_toNat]
  cases width with
  | byte =>
    simp only [storedWord, Width.bytes, BitVec.toNat_ofNat]
    interval_cases k <;> norm_num <;> omega
  | half =>
    simp only [storedWord, Width.bytes, BitVec.toNat_ofNat]
    interval_cases k <;> norm_num <;> omega
  | word => exact (if_pos hk).symm

/-- The bytes of a block in a region, of which Memory reads a word. -/
theorem memGet_of_memRead_block {c : Config} (hc : c.wf) {m : Memory} {a w : Word} (hmap : mapped c (cacheBase a))
    {off : BitVec 2} (h : memRead c.regions m (blockWordAddr (cacheTag a) (cacheIndex a) off) = .ok w) {k : Nat} (hk : k < 4) :
    memGet m ((cacheBase a).toNat + off.toNat * 4 + k) = byteOfWord w k := by
  obtain ⟨g, hg⟩ := Option.isSome_iff_exists.mp hmap
  rw [← blockBase_of_address] at hg ⊢
  rw [memRead_blockWord hc m hg] at h
  cases h
  exact (byteOfWord_memGetWord m _ k hk).symm

section Merged
variable {s u : State} {a : Word} {ws : Vector Word 4}

theorem AccessedWith.memwb (h : AccessedWith s a ws u) : u.memwb = s.memwb := by
  cases hh : cacheHit s.cache a with
  | true => rw [(h.hit hh).2]; rfl
  | false => rw [(h.miss hh).2]; rfl

/-- In a coherent state a store to a region sets the low bytes of the addressed word and keeps every other byte of the block. -/
theorem memGet_stored (h : AccessedWith s a ws u) (hc : s.cfg.wf) (hm : Memory.wf s.mem) (hcoh : CacheCoherent s)
    (hmap : mapped s.cfg (cacheBase a)) (v : Word) (width : Width) (off : BitVec 2) {k : Nat} (hk : k < 4) :
    memGet (writtenBack s.cfg s.mem a (storedWords ws a v width)) ((cacheBase a).toNat + off.toNat * 4 + k) =
      if off = cacheOffset a ∧ k < width.bytes then byteOfWord v k
      else memGet s.mem ((cacheBase a).toNat + off.toNat * 4 + k) := by
  rw [memGet_of_memRead_block hc hmap (memRead_writtenBack hc hm hmap _ off) hk,
    memGet_of_memRead_block hc hmap (h.memRead hcoh hmap off) hk, ← blockSetWord_blockAt, mergeWord_eq_storedWord]
  by_cases hoff : off = cacheOffset a
  · subst hoff
    rw [blockWord_blockSetWord_same, byteOfWord_storedWord _ _ _ hk]
    simp only [true_and]
  · rw [blockWord_blockSetWord_other _ _ _ _ hoff, if_neg fun hh => hoff hh.1]

end Merged

/-- A store through the cache outside every region leaves Memory alone (R73). -/
theorem writtenBack_unmapped {c : Config} (hc : c.wf) (m : Memory) {a : Word} (h : ¬ mapped c a) (ws : Vector Word 4) :
    writtenBack c m a ws = m :=
  if_neg fun hs => h ((mapped_cacheBase_iff hc a).mp hs)

theorem alignedAddr_eq_base (a : Word) : (alignedAddr a).toNat = (cacheBase a).toNat + (cacheOffset a).toNat * 4 := by
  rw [alignedAddr_eq, blockWordAddr_of_address]

/-- In a coherent state a store changes only the bytes that it stores (20_memory.md R81). -/
theorem memGet_writtenBack_unstored {s u : State} {a : Word} {ws : Vector Word 4} (h : AccessedWith s a ws u) (hc : s.cfg.wf)
    (hm : Memory.wf s.mem) (hcoh : CacheCoherent s) (v : Word) (width : Width) {n : Nat} (hn : ¬ storedByte a width n) :
    memGet (writtenBack s.cfg s.mem a (storedWords ws a v width)) n = memGet s.mem n := by
  by_cases hmap : mapped s.cfg a
  · by_cases hout : n < (cacheBase a).toNat ∨ (cacheBase a).toNat + 16 ≤ n
    · exact memGet_writtenBack_other _ _ _ _ hout
    · have hoff : (BitVec.ofNat 2 ((n - (cacheBase a).toNat) / 4)).toNat = (n - (cacheBase a).toNat) / 4 := by
        rw [BitVec.toNat_ofNat]
        omega
      have hsplit : n = (cacheBase a).toNat + (BitVec.ofNat 2 ((n - (cacheBase a).toNat) / 4)).toNat * 4 +
          (n - (cacheBase a).toNat) % 4 := by
        rw [hoff]
        omega
      rw [hsplit, memGet_stored h hc hm hcoh ((mapped_cacheBase_iff hc a).mpr hmap) v width _ (Nat.mod_lt _ (by decide)),
        if_neg]
      rintro ⟨heq, hk⟩
      refine hn ⟨?_, ?_⟩ <;> rw [alignedAddr_eq_base, ← heq, hoff] <;> omega
  · rw [writtenBack_unmapped hc _ hmap]

theorem exec_store_cached {s : State} {rt rs : Reg} {imm : Imm16} {i : Instr} {width : Width} (h : s.stage = .mem)
    (hc : s.cfg.wf) (he : s.cfg.cacheEnabled = true)
    (hi : (i, width) ∈ ([(.sb rt rs imm, .byte), (.sh rt rs imm, .half), (.sw rt rs imm, .word)] : List (Instr × Width))) :
    ∃ ws u, AccessedWith (afterPass s 0 false) s.exmem.alu ws u ∧
      exec i s = .next (withStored u s.exmem.alu s.exmem.b width ws
        (writtenBack s.cfg s.mem s.exmem.alu (storedWords ws s.exmem.alu s.exmem.b width))) := by
  obtain ⟨ws, u, hws, hwrite⟩ := cacheWrite_eq (s := afterPass s 0 false) hc s.exmem.alu s.exmem.b width
  refine ⟨ws, u, hws, ?_⟩
  rw [exec_store_mem h hi, dataWrite_cached (s := afterPass s 0 false) he, hwrite]
  rfl

/-- Settles O20: the access is a hit or a miss, the block that it leaves is merged and written back, and in a coherent state the
write-back gives every byte but the stored ones the value that Memory had. -/
theorem storesChangeOnlyTheStoredBytes : Obligations.StoresChangeOnlyTheStoredBytes := by
  unfold Obligations.StoresChangeOnlyTheStoredBytes
  intro s rt rs imm i width hi h hc he
  obtain ⟨ws, u, hws, hexec⟩ := exec_store_cached h hc he hi
  have hhit_iff := cacheHit_iff s.cache s.exmem.alu
  refine ⟨ws, _, hexec, hws.memwb, fun hhit => ?hit, fun hmiss => ?miss, fun hunmapped => ?unmapped,
    fun hm hmap => ⟨fun off => ?written, fun n hn => ?outside⟩,
    fun hinv hcoh => ⟨fun hmap k hk => ?stored, fun n hn => ?unstored⟩⟩
  case hit =>
    obtain ⟨rfl, rfl⟩ := hws.hit (hhit_iff.mpr hhit)
    exact ⟨rfl, rfl⟩
  case miss =>
    obtain ⟨hrefill, rfl⟩ := hws.miss (by rw [← Bool.not_eq_true]; exact fun hh => hmiss (hhit_iff.mp hh))
    obtain ⟨h0, h1, h2, h3⟩ := refillWords_words hrefill
    exact ⟨h0, h1, h2, h3, rfl⟩
  case unmapped => exact writtenBack_unmapped hc _ hunmapped _
  case written =>
    simp only [withStored, blockGet_blockSet_same]
    exact memRead_writtenBack hc hm ((mapped_cacheBase_iff hc _).mpr hmap) _ off
  case outside => exact memGet_writtenBack_other _ _ _ _ hn
  case stored =>
    have hk4 : k < 4 := Nat.lt_of_lt_of_le hk (width_bytes_le width)
    rw [alignedAddr_eq_base]
    refine (memGet_stored hws hc hinv.canonical hcoh ((mapped_cacheBase_iff hc _).mpr hmap) _ _ _ hk4).trans ?_
    exact if_pos ⟨rfl, hk⟩
  case unstored => exact memGet_writtenBack_unstored hws hc hinv.canonical hcoh _ _ hn

/-! ### A load right after a store (R73, R77, R85) -/

/-- What a store through the cache leaves: the access's state with the merged block, whatever is written to Memory. -/
theorem cacheWrite_leaves {s t : State} {a v : Word} {width : Width} (h : cacheWrite a v width s = .ok t) :
    ∃ ws u m, AccessedWith s a ws u ∧ t = withStored u a v width ws m := by
  obtain ⟨u, m, hu, -, rfl⟩ := cacheWrite_cases h
  obtain ⟨ws, hws⟩ := accessedWith_of_cacheAccess hu
  refine ⟨ws, u, m, hws, ?_⟩
  rw [hws.block, blockSetWord_blockAt]
  rfl

/-- Two accesses to one address from one state find or fetch the same words. -/
theorem AccessedWith.unique {s u u' : State} {a : Word} {ws ws' : Vector Word 4} (h : AccessedWith s a ws u)
    (h' : AccessedWith s a ws' u') : ws = ws' := by
  cases hh : cacheHit s.cache a with
  | true => rw [(h.hit hh).1, (h'.hit hh).1]
  | false => exact Except.ok.inj ((h.miss hh).1.symm.trans (h'.miss hh).1)

/-- The low and high bits of a merged word (D25). -/
theorem mergeWord_byte (old v : Word) :
    (mergeWord old v .byte).extractLsb' 0 8 = v.extractLsb' 0 8 ∧
      (mergeWord old v .byte).extractLsb' 8 24 = old.extractLsb' 8 24 :=
  ⟨BitVec.extractLsb'_append_eq_right, BitVec.extractLsb'_append_eq_left⟩

theorem mergeWord_half (old v : Word) :
    (mergeWord old v .half).extractLsb' 0 16 = v.extractLsb' 0 16 ∧
      (mergeWord old v .half).extractLsb' 16 16 = old.extractLsb' 16 16 :=
  ⟨BitVec.extractLsb'_append_eq_right, BitVec.extractLsb'_append_eq_left⟩

/-- Settles O51: the store leaves its block valid with the address's tag, so the load hits and takes the merged word. -/
theorem loadAfterStoreGetsTheMergedWord : Obligations.LoadAfterStoreGetsTheMergedWord := by
  unfold Obligations.LoadAfterStoreGetsTheMergedWord
  intro s u t a v old width he hread hwrite
  rw [dataRead_cached he] at hread
  rw [dataWrite_cached he] at hwrite
  obtain ⟨haccess, hold⟩ := cacheRead_cases hread
  obtain ⟨ws, hws⟩ := accessedWith_of_cacheAccess haccess
  obtain ⟨ws', u', m, hws', rfl⟩ := cacheWrite_leaves hwrite
  cases hws.unique hws'
  rw [hws.block] at hold
  have hblock : blockGet (withStored u' a v width ws m).cache (cacheIndex a) = blockAt a (storedWords ws a v width) :=
    blockGet_blockSet_same _ _ _
  have hhit : cacheHit (withStored u' a v width ws m).cache a = true := by
    rw [cacheHit_iff, hblock]
    exact ⟨rfl, rfl⟩
  have hen : (withStored u' a v width ws m).cfg.cacheEnabled = true := by
    rw [← he, ← hws'.mem.2]
    rfl
  refine ⟨mergeWord old v width, afterHit (withStored u' a v width ws m), ?_, rfl, rfl, ?_, ?_, ?_⟩
  · rw [dataRead_cached hen, cacheRead, cacheAccess, if_pos hhit]
    dsimp only [bind, Except.bind]
    rw [hblock, ← blockSetWord_blockAt, blockWord_blockSetWord_same, ← hold]
    rfl
  · rintro rfl
    exact mergeWord_byte old v
  · rintro rfl
    exact mergeWord_half old v
  · rintro rfl
    rfl

/-! ### Without the cache (R80, R81; D24, D26) -/

section Uncached
variable {s : State} (he : s.cfg.cacheEnabled = false) (a v : Word) (width : Width)
include he

theorem dataRead_uncached_ok {w : Word} (h : memRead s.cfg.regions s.mem a = .ok w) : dataRead a s = .ok (w, s) := by
  rw [dataRead, he, if_neg Bool.false_ne_true, h]
  rfl

theorem dataRead_uncached_error {f : Fault} (h : memRead s.cfg.regions s.mem a = .error f) : dataRead a s = .error f := by
  rw [dataRead, he, if_neg Bool.false_ne_true, h]
  rfl

theorem dataWrite_uncached_ok {w : Word} {m : Memory} (h : memRead s.cfg.regions s.mem a = .ok w)
    (hw : memWrite s.cfg.regions s.mem a (mergeWord w v width) = .ok m) :
    dataWrite a v width s = .ok { s with mem := m } := by
  rw [dataWrite, he, if_neg Bool.false_ne_true, h]
  dsimp only [bind, Except.bind]
  rw [hw]
  rfl

theorem dataWrite_uncached_error {f : Fault} (h : memRead s.cfg.regions s.mem a = .error f) :
    dataWrite a v width s = .error f := by
  rw [dataWrite, he, if_neg Bool.false_ne_true, h]
  rfl

end Uncached

/-- Settles O21: the access is Memory's own read, or its read and write, and its fault is the instruction's. -/
theorem loadsAndStoresWithoutTheCache : Obligations.LoadsAndStoresWithoutTheCache := by
  unfold Obligations.LoadsAndStoresWithoutTheCache
  intro s rt rs imm h he
  refine ⟨fun i width hi => ⟨fun w hr => ?_, fun f hr => ?_⟩, fun i width hi => ⟨fun w m hr hw => ?_, fun f hr => ?_⟩⟩
  · rw [exec_load_mem h hi, performMem_load_ok (c := .load rt) (dataRead_uncached_ok (s := afterPass s rt true) he _ hr)]
    rfl
  · rw [exec_load_mem h hi, performMem_load_error (c := .load rt) (dataRead_uncached_error (s := afterPass s rt true) he _ hr)]
    rfl
  · rw [exec_store_mem h hi, dataWrite_uncached_ok (s := afterPass s 0 false) he _ _ _ hr hw]
    rfl
  · rw [exec_store_mem h hi, dataWrite_uncached_error (s := afterPass s 0 false) he _ _ _ hr]
    rfl

end Sys2Proof.Machine
end

section
/-! PROOF. Branches and jumps (45_control_transfer.md), SYSCALL, unimplemented words and bubbles (46_system.md; 40_pipeline.md R136) in
their stages. -/

namespace Sys2Proof.Machine

/-! ### Targets (D20) -/

/-- Shifting the sign-extended offset left by two multiplies it by four. -/
theorem branchTarget_eq (pc : Word) (imm : Imm16) :
    branchTarget pc (sextImm imm) = pc + BitVec.ofInt 32 (4 * imm.toInt) := by
  have h : sextImm imm <<< 2 = BitVec.ofInt 32 (4 * imm.toInt) := by
    rw [BitVec.shiftLeft_eq_mul_twoPow, BitVec.ofInt_mul, ← sextImm_eq_ofInt, BitVec.mul_comm]
    rfl
  rw [branchTarget, h]

/-- The 26-bit target in the segment of `pc`, as a number. -/
theorem jumpTarget_eq (pc : Word) (target : Target26) :
    jumpTarget pc target = BitVec.ofNat 32 (pc.toNat / 2 ^ 28 * 2 ^ 28 + target.toNat * 4) := by
  apply BitVec.eq_of_toNat_eq
  have hpc := pc.isLt
  have ht := target.isLt
  rw [jumpTarget, toNat_append_eq_add, toNat_append_eq_add, BitVec.extractLsb'_toNat, Nat.shiftRight_eq_div_pow,
    BitVec.toNat_ofNat, BitVec.toNat_ofNat]
  omega

/-! ### Branches (R290 to R296) -/

section Branch
variable {i : Instr} {rs rt : Reg} {imm : Imm16} {taken : Word → Word → Bool} {s : State} (h : s.stage = .ex)
include h

/-- EX of the template R290, taken. -/
theorem branchStep_ex_taken (himm : s.idex.imm = sextImm imm)
    (ht : taken (resolve s s.selA rs) (resolve s s.selB rt) = true) :
    branchStep i rs rt taken s =
      .next (afterTransfer (afterEx s rs rt (traitsOf i).dest (traitsOf i).we (traitsOf i).isLoad 0 0 0)
        (s.idex.pc + BitVec.ofInt 32 (4 * imm.toInt))) := by
  refine perform_ex_transfer h ?_
  rw [← branchTarget_eq, ← himm]
  simp only [exInput, ht, if_true]

/-- EX of the template R290, not taken. -/
theorem branchStep_ex_untaken (ht : taken (resolve s s.selA rs) (resolve s s.selB rt) = false) :
    branchStep i rs rt taken s =
      .next (afterEx s rs rt (traitsOf i).dest (traitsOf i).we (traitsOf i).isLoad 0 0 0) := by
  refine perform_ex_results h ?_
  simp only [exInput, ht, Bool.false_eq_true, if_false]

/-- EX of a branch with condition `P`: it transfers exactly if `P` holds. -/
theorem branchStep_ex {P : Prop} (himm : s.idex.imm = sextImm imm)
    (hP : taken (resolve s s.selA rs) (resolve s s.selB rt) = true ↔ P) :
    (P → branchStep i rs rt taken s =
      .next (afterTransfer (afterEx s rs rt (traitsOf i).dest (traitsOf i).we (traitsOf i).isLoad 0 0 0)
        (s.idex.pc + BitVec.ofInt 32 (4 * imm.toInt)))) ∧
    (¬ P → branchStep i rs rt taken s =
      .next (afterEx s rs rt (traitsOf i).dest (traitsOf i).we (traitsOf i).isLoad 0 0 0)) :=
  ⟨fun hp => branchStep_ex_taken h himm (hP.mpr hp),
    fun hp => branchStep_ex_untaken h (Bool.not_eq_true _ ▸ fun ht => hp (hP.mp ht))⟩

end Branch

/-- Settles O23: all six are the template R290 on their conditions. -/
theorem branchesRedirectInEx : Obligations.BranchesRedirectInEx := by
  unfold Obligations.BranchesRedirectInEx
  intro s rt rs imm h himm
  refine ⟨?beq, ?bne, ?blez, ?bgtz, ?bltz, ?bgez⟩
  case beq => exact branchStep_ex h himm (by simp only [condEq, beq_iff_eq])
  case bne => exact branchStep_ex h himm (by simp only [condNe, bne_iff_ne])
  case blez => exact branchStep_ex (taken := fun a _ => condLez a) h himm decide_eq_true_iff
  case bgtz => exact branchStep_ex (taken := fun a _ => condGtz a) h himm decide_eq_true_iff
  case bltz => exact branchStep_ex (taken := fun a _ => condLtz a) h himm decide_eq_true_iff
  case bgez => exact branchStep_ex (taken := fun a _ => condGez a) h himm decide_eq_true_iff

/-! ### Jumps (R297 to R300) -/

/-- Settles O24: the target of J and JAL is the number `jumpTarget_eq` names, and the link is `IDEX.PC`. -/
theorem jumpsRedirectInEx : Obligations.JumpsRedirectInEx := by
  unfold Obligations.JumpsRedirectInEx
  intro s rd rs rt sa target h
  simp only [← jumpTarget_eq]
  refine ⟨?j, ?jal, ?jr, ?jalr⟩
  case j => exact perform_ex_transfer h rfl
  case jal => exact perform_ex_transfer h rfl
  case jr => exact perform_ex_transfer h rfl
  case jalr => exact perform_ex_transfer h rfl

/-- Settles O25: no transfer has a MEM or WB step of its own, and only JAL and JALR are of a class that writes. -/
theorem transfersPassAndLink : Obligations.TransfersPassAndLink := by
  unfold Obligations.TransfersPassAndLink
  intro s rd rs rt sa imm target
  simp only [List.forall_mem_cons, List.not_mem_nil, false_implies, implies_true, and_true]
  refine ⟨fun h => ⟨⟨?_, ?_, ?_, ?_, ?_, ?_, ?_, ?_⟩, perform_mem_pass h, perform_mem_pass h⟩,
    fun h => ⟨⟨?_, ?_, ?_, ?_, ?_, ?_, ?_, ?_⟩, perform_wb_write h rfl rfl, perform_wb_write h rfl rfl⟩⟩
  iterate 8 exact perform_mem_pass h
  iterate 8 exact perform_wb_retire h rfl rfl

/-! ### SYSCALL (46_system.md R320) -/

section Halt
variable {c : Traits} {rs rt : Reg} {f : ExIn → ExOut} {m : MemStep} {s : State} (h : s.stage = .wb)
  (hload : c.isLoad = false) (hwe : c.we = false)
include h hload hwe

theorem perform_wb_haltTest_halts (hr2 : readReg s 2 = haltCode) :
    perform c rs rt f m .haltTest s = .next { afterRetire s with runFlag := false } := by
  rw [perform_wb h, performWb, wbWrite, hload, hwe]
  simp only [wbStep, Bool.false_eq_true, if_false, haltTest, if_pos hr2]
  rfl

theorem perform_wb_haltTest_retires (hr2 : readReg s 2 ≠ haltCode) :
    perform c rs rt f m .haltTest s = .next (afterRetire s) := by
  rw [perform_wb h, performWb, wbWrite, hload, hwe]
  simp only [wbStep, Bool.false_eq_true, if_false, haltTest, if_neg hr2]
  rfl

end Halt

/-- Settles O26: SYSCALL has no EX and no MEM step, and its WB step is the halt test. -/
theorem syscallHaltsOnTheHaltCode : Obligations.SyscallHaltsOnTheHaltCode := by
  unfold Obligations.SyscallHaltsOnTheHaltCode
  intro s code
  exact ⟨fun h => perform_ex_results h rfl, fun h => perform_mem_pass h,
    fun h => ⟨fun hr2 => perform_wb_haltTest_halts h rfl rfl hr2, fun hr2 => perform_wb_haltTest_retires h rfl rfl hr2⟩⟩

/-! ### Unimplemented words and bubbles (46_system.md R322; 40_pipeline.md R136) -/

section Unimplemented
variable {s : State}

theorem wbStage_unimplemented (h : decode s.memwb.ir = .unimplemented) :
    wbStage s = execUnimplemented s.memwb.ir (atStage .wb s) := by
  rw [wbStage, h]

theorem memStage_unimplemented (h : decode s.exmem.ir = .unimplemented) :
    memStage s = execUnimplemented s.exmem.ir (atStage .mem s) := by
  rw [memStage, h]

theorem exStage_unimplemented (h : decode s.idex.ir = .unimplemented) :
    exStage s = execUnimplemented s.idex.ir (atStage .ex s) := by
  rw [exStage, h]

end Unimplemented

/-- Settles O27: the report is the EX step of an unimplemented word, which has no other step. -/
theorem unimplementedWordIsReportedOnce : Obligations.UnimplementedWordIsReportedOnce := by
  unfold Obligations.UnimplementedWordIsReportedOnce
  intro s
  refine ⟨fun h => ?ex, fun h => ?mem, fun h => ?wb⟩
  case ex => rw [exStage_unimplemented h, execUnimplemented_performs, perform_ex rfl]; rfl
  case mem => rw [memStage_unimplemented h, execUnimplemented_performs, perform_mem_pass rfl]; rfl
  case wb => rw [wbStage_unimplemented h, execUnimplemented_performs, perform_wb_retire rfl rfl rfl]

/-- Settles O28: each stage takes its bubble's arm. -/
theorem bubbleHasNoEffectInAnyStage : Obligations.BubbleHasNoEffectInAnyStage := by
  unfold Obligations.BubbleHasNoEffectInAnyStage
  intro s
  exact ⟨wbStage_bubble, memStage_bubble, exStage_bubble, idStage_bubble⟩

/-! ### The word that `withFetchWord` presents (log 2) -/

/-- Settles O30: with bubbles in MEM/WB and EX/MEM nothing stands between the presented word and its EX. -/
theorem presentedWordIsExecutedByTheNextStep : Obligations.PresentedWordIsExecutedByTheNextStep := by
  unfold Obligations.PresentedWordIsExecutedByTheNextStep
  intro s w i hd hmemwb hexmem
  refine ⟨beforeEx w s, ?_⟩
  have hstep : step (s.withFetchWord 32 w.toNat) = andThen (exec i (beforeEx w s)) finishCycle := by
    rw [withFetchWord_eq, step, cycle_running rfl, wbStage_bubble (by simpa [presentWord] using hmemwb), andThen_next,
      memStage_bubble (by simpa [presentWord] using hexmem), andThen_next,
      exStage_of_decode (i := i) (by simpa [presentWord, idLatch] using hd), beforeEx]
  simp [hstep, beforeEx, presentWord, idLatch, fetchLatch]

end Sys2Proof.Machine
end

section
/-! PROOF. What the stages may write, over all instructions (40_pipeline.md R132), and the rules of a whole cycle (R130 to R138). -/

namespace Sys2Proof.Machine

/-! ### The frames, instruction by instruction (R132) -/

/-- Settles O32: every meaning is the three frames, and each frame writes only what R132 lists. -/
theorem instructionsWriteOnlyWhatTheirStageMay : Obligations.InstructionsWriteOnlyWhatTheirStageMay := by
  unfold Obligations.InstructionsWriteOnlyWhatTheirStageMay
  intro i s t h
  obtain ⟨rs, rt, f, m, b, hperform⟩ := exec_performs i
  rw [hperform] at h
  refine ⟨fun hs => ?ex, fun hs => ?mem, fun hs => ?wb⟩
  case ex =>
    rw [perform_ex hs] at h
    cases h
    exact performEx_frame _ _ _ f s
  case mem =>
    rw [perform_mem hs] at h
    exact performMem_frame (ofExcept_next_iff.mp h)
  case wb =>
    rw [perform_wb hs] at h
    cases h
    exact performWb_frame _ b s

/-! ### MEM: only the loads and stores make an access (R175) -/

/-- The MEM step of an instruction. -/
def memStepOf : Instr → MemStep
  | .lb _ _ _ => .load .byte
  | .lh _ _ _ => .load .half
  | .lw _ _ _ => .load .word
  | .sb _ _ _ => .store .byte
  | .sh _ _ _ => .store .half
  | .sw _ _ _ => .store .word
  | .mfhi _ _ _ _ => .readHi
  | .mflo _ _ _ _ => .readLo
  | _ => .pass

theorem exec_mem (i : Instr) {s : State} (h : s.stage = .mem) :
    exec i s = ofExcept (performMem (traitsOf i) (memStepOf i) s) := by
  cases i <;> exact perform_mem h

/-- The step stores. -/
def MemStep.stores : MemStep → Bool
  | .store _ => true
  | _ => false

/-- The step makes a data access. -/
def MemStep.accesses : MemStep → Bool
  | .load _ => true
  | .store _ => true
  | _ => false

theorem memStepOf_stores {i : Instr} (h : (memStepOf i).stores = true) :
    ∃ rt rs imm, i = .sb rt rs imm ∨ i = .sh rt rs imm ∨ i = .sw rt rs imm := by
  cases i with
  | sb rt rs imm => exact ⟨rt, rs, imm, .inl rfl⟩
  | sh rt rs imm => exact ⟨rt, rs, imm, .inr (.inl rfl)⟩
  | sw rt rs imm => exact ⟨rt, rs, imm, .inr (.inr rfl)⟩
  | _ => cases h

theorem memStepOf_accesses {i : Instr} (h : (memStepOf i).accesses = true) :
    ∃ rt rs imm, i ∈ ([.lb rt rs imm, .lh rt rs imm, .lw rt rs imm, .sb rt rs imm, .sh rt rs imm, .sw rt rs imm] :
      List Instr) := by
  cases i with
  | lb rt rs imm => exact ⟨rt, rs, imm, by simp⟩
  | lh rt rs imm => exact ⟨rt, rs, imm, by simp⟩
  | lw rt rs imm => exact ⟨rt, rs, imm, by simp⟩
  | sb rt rs imm => exact ⟨rt, rs, imm, by simp⟩
  | sh rt rs imm => exact ⟨rt, rs, imm, by simp⟩
  | sw rt rs imm => exact ⟨rt, rs, imm, by simp⟩
  | _ => cases h

section MemStep
variable {c : Traits} {m : MemStep} {s t : State} (h : performMem c m s = .ok t)
include h

theorem performMem_mem (hm : m.stores = false) : t.mem = s.mem := by
  rcases performMem_cases h with ⟨-, rfl⟩ | ⟨width, w, u, -, hr, rfl⟩ | ⟨width, rfl, -⟩ | ⟨-, rfl⟩ | ⟨-, rfl⟩
  · rfl
  · have hu : u.mem = s.mem := dataRead_mem (s := memLatch c s) hr
    exact hu
  · cases hm
  · rfl
  · rfl

theorem performMem_sameMemory (hm : m.accesses = false) : SameMemory s t := by
  rcases performMem_cases h with ⟨-, rfl⟩ | ⟨width, w, u, rfl, -, -⟩ | ⟨width, rfl, -⟩ | ⟨-, rfl⟩ | ⟨-, rfl⟩
  · exact ⟨rfl, rfl, rfl, rfl, rfl⟩
  · cases hm
  · cases hm
  · exact ⟨rfl, rfl, rfl, rfl, rfl⟩
  · exact ⟨rfl, rfl, rfl, rfl, rfl⟩

/-- The data path sees the cache and Memory as they were before the frame's latches. -/
theorem performMem_accessed (he : s.cfg.cacheEnabled = true) (hm : m.accesses = true) : Accessed s.exmem.alu s t := by
  rcases performMem_cases h with ⟨rfl, -⟩ | ⟨width, w, u, -, hr, rfl⟩ | ⟨width, -, hw⟩ | ⟨rfl, -⟩ | ⟨rfl, -⟩
  · cases hm
  · obtain ⟨hit, miss, valid, tag, others⟩ := dataRead_accessed (s := memLatch c s) he hr
    exact ⟨hit, miss, valid, tag, others⟩
  · obtain ⟨hit, miss, valid, tag, others⟩ := dataWrite_accessed (s := memLatch c s) he hw
    exact ⟨hit, miss, valid, tag, others⟩
  · cases hm
  · cases hm

end MemStep

/-- Settles O33: an instruction whose MEM step is no store leaves Memory alone, and without an access the cache too. -/
theorem onlyStoresChangeMemoryInMem : Obligations.OnlyStoresChangeMemoryInMem := by
  unfold Obligations.OnlyStoresChangeMemoryInMem
  intro i s t hs h
  have hperform := ofExcept_next_iff.mp ((exec_mem i hs).symm.trans h)
  refine ⟨fun hno => performMem_mem hperform ?_, fun hno => performMem_sameMemory hperform ?_⟩
  · rw [← Bool.not_eq_true]
    intro hstores
    obtain ⟨rt, rs, imm, hi⟩ := memStepOf_stores hstores
    obtain ⟨hsb, hsh, hsw⟩ := hno rt rs imm
    rcases hi with hi | hi | hi
    · exact hsb hi
    · exact hsh hi
    · exact hsw hi
  · rw [← Bool.not_eq_true]
    intro haccesses
    obtain ⟨rt, rs, imm, hi⟩ := memStepOf_accesses haccesses
    obtain ⟨hsb, hsh, hsw, hlb, hlh, hlw⟩ := hno rt rs imm
    simp [hsb, hsh, hsw, hlb, hlh, hlw] at hi

/-! ### WB: the destination, HI and LO, and the halt (R180, R181) -/

/-- The WB step of an instruction. -/
def wbStepOf : Instr → WbStep
  | .mult _ _ _ _ => .hiLo
  | .multu _ _ _ _ => .hiLo
  | .div _ _ _ _ => .hiLoUnlessZeroDivisor
  | .divu _ _ _ _ => .hiLoUnlessZeroDivisor
  | .mthi _ _ _ _ => .hi
  | .mtlo _ _ _ _ => .lo
  | .syscall _ => .haltTest
  | _ => .none

theorem exec_wb (i : Instr) {s : State} (h : s.stage = .wb) : exec i s = .next (performWb (traitsOf i) (wbStepOf i) s) := by
  cases i <;> exact perform_wb h

/-- A load is of a class that writes (30_encoding.md R116). -/
theorem traitsOf_we_of_isLoad (i : Instr) (h : (traitsOf i).isLoad = true) : (traitsOf i).we = true := by
  cases i with
  | lb => rfl
  | lh => rfl
  | lw => rfl
  | _ => cases h

/-- A WB step writes neither HI nor LO, or its instruction is one of the six that do (10_state.md R23). -/
theorem wbStepOf_cases (i : Instr) :
    wbStepOf i = .none ∨ wbStepOf i = .haltTest ∨
      ∃ rd rs rt sa, i ∈ ([.mult rd rs rt sa, .multu rd rs rt sa, .div rd rs rt sa, .divu rd rs rt sa, .mthi rd rs rt sa,
        .mtlo rd rs rt sa] : List Instr) := by
  cases i with
  | mult rd rs rt sa => exact .inr (.inr ⟨rd, rs, rt, sa, by simp⟩)
  | multu rd rs rt sa => exact .inr (.inr ⟨rd, rs, rt, sa, by simp⟩)
  | div rd rs rt sa => exact .inr (.inr ⟨rd, rs, rt, sa, by simp⟩)
  | divu rd rs rt sa => exact .inr (.inr ⟨rd, rs, rt, sa, by simp⟩)
  | mthi rd rs rt sa => exact .inr (.inr ⟨rd, rs, rt, sa, by simp⟩)
  | mtlo rd rs rt sa => exact .inr (.inr ⟨rd, rs, rt, sa, by simp⟩)
  | syscall code => exact .inr (.inl rfl)
  | _ => exact .inl rfl

/-- The frame of WB writes general registers only. -/
theorem wbWrite_hi_lo (c : Traits) (s : State) : (wbWrite c s).nxt.hi = s.nxt.hi ∧ (wbWrite c s).nxt.lo = s.nxt.lo := by
  unfold wbWrite
  split_ifs <;> exact ⟨rfl, rfl⟩

theorem haltTest_nxt (s : State) : (haltTest s).nxt = s.nxt := by
  unfold haltTest
  split_ifs <;> rfl

theorem performWb_hi_lo (c : Traits) {b : WbStep} (hb : b = .none ∨ b = .haltTest) (s : State) :
    (performWb c b s).nxt.hi = s.nxt.hi ∧ (performWb c b s).nxt.lo = s.nxt.lo := by
  rcases hb with rfl | rfl
  · exact wbWrite_hi_lo c s
  · simp only [performWb, wbStep, haltTest_nxt]
    exact wbWrite_hi_lo c s

/-- Settles O34: the frame writes the destination and the WB step HI and LO, if they write at all. -/
theorem wbWritesOnlyTheDestination : Obligations.WbWritesOnlyTheDestination := by
  unfold Obligations.WbWritesOnlyTheDestination
  intro i s t hs h
  rw [exec_wb i hs] at h
  cases h
  refine ⟨fun r hr => ?regs, fun hno => performWb_hi_lo _ ?hiLo s, performWb_instructionCount _ _ _⟩
  case regs =>
    have hne : (traitsOf i).we = true → r ≠ (traitsOf i).dest := fun hwe he => hr ⟨hwe, he.symm⟩
    rw [performWb_regs]
    split
    · next hload => exact regGet_regSet_other _ _ _ _ (hne (traitsOf_we_of_isLoad i hload))
    · split
      · next hwe => exact regGet_regSet_other _ _ _ _ (hne hwe)
      · rfl
  case hiLo =>
    rcases wbStepOf_cases i with hb | hb | ⟨rd, rs, rt, sa, hi⟩
    · exact .inl hb
    · exact .inr hb
    · obtain ⟨h1, h2, h3, h4, h5, h6⟩ := hno rd rs rt sa
      simp [h1, h2, h3, h4, h5, h6] at hi

/-! ### The commit and the counts (R135, R180) -/

/-- WB counts a word that is no bubble. -/
theorem wbStage_instructionCount {s t : State} (h : wbStage s = .next t) :
    t.instructionCount = s.instructionCount + (if s.memwb.ir = 0 then 0 else 1) := by
  rcases wbStage_cases s with ⟨h0, e⟩ | ⟨b, hne, e⟩ <;> cases e.symm.trans h
  · rw [if_pos h0]
    rfl
  · rw [if_neg hne]
    exact performWb_instructionCount _ b _

/-- Settles O35: only WB counts words, and only the commit counts cycles. -/
theorem eachCycleCommitsAndCounts : Obligations.EachCycleCommitsAndCounts := by
  unfold Obligations.EachCycleCommitsAndCounts
  intro s t hrun h
  obtain ⟨a, b, c, f, n, ha, hb, hc, -, rfl⟩ := step_stages hrun h
  have fa := wbStage_frame ha
  have fb := memStage_frame hb
  have fc := exStage_frame hc
  have hcycles : (idStage c).1.cycleCount = s.cycleCount := by
    rw [idStage_writes]
    exact fc.cycleCount.trans (fb.cycleCount.trans fa.cycleCount)
  have hretired : (idStage c).1.instructionCount = a.instructionCount := by
    rw [idStage_writes]
    exact fc.instructionCount.trans fb.instructionCount
  refine ⟨rfl, ?_, ?_⟩
  · dsimp only
    rw [hcycles]
  · dsimp only
    rw [hretired]
    exact wbStage_instructionCount (s := { s with missFlag := false }) ha

/-! ### The halt (46_system.md R320) -/

theorem wbWrite_runFlag (c : Traits) (s : State) : (wbWrite c s).runFlag = s.runFlag ∧ (wbWrite c s).cur = s.cur := by
  unfold wbWrite
  split_ifs <;> exact ⟨rfl, rfl⟩

/-- Only the halt test touches the run flag. -/
theorem performWb_runFlag (c : Traits) (b : WbStep) (s : State) (hrun : s.runFlag = true) :
    (performWb c b s).runFlag = false ↔ b = .haltTest ∧ readReg s 2 = haltCode := by
  obtain ⟨hflag, hcur⟩ := wbWrite_runFlag c s
  rw [hrun] at hflag
  have hr2 : readReg (wbWrite c s) 2 = readReg s 2 := by rw [readReg, hcur, readReg]
  cases b with
  | haltTest =>
    have hhalt : (performWb c .haltTest s).runFlag = (haltTest (wbWrite c s)).runFlag := rfl
    rw [hhalt, haltTest, hr2]
    split
    · next h => simp only [h, and_self]
    · next h => simp only [hflag, h, and_false, Bool.true_eq_false]
  | hiLoUnlessZeroDivisor =>
    simp only [performWb, wbStep]
    split_ifs <;> simp [hflag]
  | none => simp [performWb, wbStep, hflag]
  | hiLo => simp [performWb, wbStep, hflag]
  | hi => simp [performWb, wbStep, hflag]
  | lo => simp [performWb, wbStep, hflag]

theorem wbStepOf_eq_haltTest_iff (i : Instr) : wbStepOf i = .haltTest ↔ ∃ code, i = .syscall code := by
  cases i <;> simp [wbStepOf]

theorem wbStage_runFlag {s t : State} (hrun : s.runFlag = true) (h : wbStage s = .next t) :
    t.runFlag = false ↔ (∃ code, decode s.memwb.ir = .instr (.syscall code)) ∧ readReg s 2 = haltCode := by
  cases hd : decode s.memwb.ir with
  | bubble =>
    rw [wbStage, hd] at h
    cases h
    simp [hrun]
  | unimplemented =>
    rw [wbStage_unimplemented hd, execUnimplemented_performs, perform_wb rfl] at h
    cases h
    rw [performWb_runFlag _ _ _ (by simpa using hrun)]
    simp
  | instr i =>
    rw [wbStage_of_decode hd, exec_wb i rfl] at h
    cases h
    rw [performWb_runFlag _ _ _ (by simpa using hrun), wbStepOf_eq_haltTest_iff]
    simp [readReg]

/-- Settles O36: after WB no stage of the cycle touches the run flag. -/
theorem onlyAHaltingSyscallClearsTheRunFlag : Obligations.OnlyAHaltingSyscallClearsTheRunFlag := by
  unfold Obligations.OnlyAHaltingSyscallClearsTheRunFlag
  intro s t hrun h
  obtain ⟨a, b, c, f, n, ha, hb, hc, -, rfl⟩ := step_stages hrun h
  have hflag : (idStage c).1.runFlag = a.runFlag := by
    rw [idStage_writes]
    exact (exStage_frame hc).runFlag.trans (memStage_frame hb).runFlag
  dsimp only
  rw [hflag]
  exact wbStage_runFlag (s := { s with missFlag := false }) hrun ha

/-! ### The diagnostic log (46_system.md R322) -/

/-- No instruction reports a diagnostic. -/
theorem exec_performs_silently (i : Instr) :
    ∃ rs rt f m b, (∀ s, exec i s = perform (traitsOf i) rs rt f m b s) ∧ ∀ x, (f x).report = false := by
  cases i with
  | div rd rs rt sa =>
    refine ⟨_, _, _, _, _, fun _ => rfl, fun x => ?_⟩
    unfold divOut
    split_ifs <;> rfl
  | divu rd rs rt sa =>
    refine ⟨_, _, _, _, _, fun _ => rfl, fun x => ?_⟩
    unfold divuOut
    split_ifs <;> rfl
  | _ => exact ⟨_, _, _, _, _, fun _ => rfl, fun _ => rfl⟩

theorem exStage_diagLog {s t : State} (h : exStage s = .next t) :
    t.diagLog = s.diagLog ++ (if decode s.idex.ir = .unimplemented then [⟨s.idex.pc - 4, s.idex.ir⟩] else []) := by
  cases hd : decode s.idex.ir with
  | bubble =>
    rw [exStage, hd] at h
    cases h
    simp
  | unimplemented =>
    rw [exStage_unimplemented hd, execUnimplemented_performs, perform_ex rfl] at h
    cases h
    rw [performEx_diagLog]
    rfl
  | instr i =>
    obtain ⟨rs, rt, f, m, b, hperform, hsilent⟩ := exec_performs_silently i
    rw [exStage_of_decode hd, hperform, perform_ex rfl] at h
    cases h
    rw [performEx_diagLog, hsilent]
    simp

/-- Settles O38: the word in EX is still the one in ID/EX when EX runs, and no other stage writes the log. -/
theorem diagnosticLogRecordsUnimplementedWords : Obligations.DiagnosticLogRecordsUnimplementedWords := by
  unfold Obligations.DiagnosticLogRecordsUnimplementedWords
  intro s t hrun h
  obtain ⟨a, b, c, f, n, ha, hb, hc, -, rfl⟩ := step_stages hrun h
  have fa := wbStage_frame ha
  have fb := memStage_frame hb
  have hidex : b.idex = s.idex := fb.idex.trans fa.idex
  have hlog : b.diagLog = s.diagLog := fb.diagLog.trans fa.diagLog
  have hid : (idStage c).1.diagLog = c.diagLog := by rw [idStage_writes]
  dsimp only
  rw [hid, exStage_diagLog hc, hidex, hlog]

/-! ### The settings (10_state.md R45, R53) -/

/-- Settles O39: every stage's frame keeps them, and so do IF and the commit. -/
theorem stepChangesNoSetting : Obligations.StepChangesNoSetting := by
  unfold Obligations.StepChangesNoSetting
  intro s t h
  cases hrun : s.runFlag with
  | false =>
    cases (cycle_halted hrun).symm.trans h
    exact ⟨rfl, rfl, rfl⟩
  | true =>
    obtain ⟨a, b, c, f, n, ha, hb, hc, -, rfl⟩ := step_stages hrun h
    obtain ⟨acfg, afwd, apen⟩ := (wbStage_frame ha).toSameSettings
    obtain ⟨bcfg, bfwd, bpen⟩ := (memStage_frame hb).toSameSettings
    obtain ⟨ccfg, cfwd, cpen⟩ := (exStage_frame hc).toSameSettings
    rw [idStage_writes]
    exact ⟨ccfg.trans (bcfg.trans acfg), cfwd.trans (bfwd.trans afwd), cpen.trans (bpen.trans apen)⟩

/-! ### One access in a cycle (20_memory.md R71, R74; R138) -/

/-- The MEM step of a word: an unimplemented word and a bubble have none. -/
def memStepOfWord (w : Word) : MemStep :=
  match decode w with
  | .instr i => memStepOf i
  | _ => .pass

theorem memStepOfWord_accesses_iff (w : Word) :
    (∃ rt rs imm, decode w ∈ ([.instr (.lb rt rs imm), .instr (.lh rt rs imm), .instr (.lw rt rs imm),
      .instr (.sb rt rs imm), .instr (.sh rt rs imm), .instr (.sw rt rs imm)] : List Decoded)) ↔
      (memStepOfWord w).accesses = true := by
  unfold memStepOfWord
  cases hd : decode w with
  | bubble => simp [MemStep.accesses]
  | unimplemented => simp [MemStep.accesses]
  | instr i =>
    simp only [List.mem_cons, Decoded.instr.injEq, List.not_mem_nil, or_false]
    constructor
    · rintro ⟨rt, rs, imm, rfl | rfl | rfl | rfl | rfl | rfl⟩ <;> rfl
    · intro h
      simpa using memStepOf_accesses h

/-- MEM on any word performs that step, or passes a bubble. -/
theorem memStage_performs {s t : State} (h : memStage s = .next t) :
    (decode s.exmem.ir = .bubble ∧ t = bubbleMem (atStage .mem s)) ∨
      performMem (traitsOfWord s.exmem.ir) (memStepOfWord s.exmem.ir) (atStage .mem s) = .ok t := by
  unfold traitsOfWord memStepOfWord
  cases hd : decode s.exmem.ir with
  | bubble =>
    rw [memStage, hd] at h
    cases h
    exact .inl ⟨rfl, rfl⟩
  | unimplemented =>
    rw [memStage_unimplemented hd, execUnimplemented_performs, perform_mem rfl] at h
    exact .inr (ofExcept_next_iff.mp h)
  | instr i =>
    rw [memStage_of_decode hd, exec_mem i rfl] at h
    exact .inr (ofExcept_next_iff.mp h)

section MemStage
variable {s t : State} (h : memStage s = .next t)
include h

theorem memStage_accessed (he : s.cfg.cacheEnabled = true) (hacc : (memStepOfWord s.exmem.ir).accesses = true) :
    Accessed s.exmem.alu s t := by
  rcases memStage_performs h with ⟨hd, -⟩ | hperform
  · rw [memStepOfWord, hd] at hacc
    cases hacc
  · obtain ⟨hit, miss, valid, tag, others⟩ := performMem_accessed (s := atStage .mem s) hperform he hacc
    exact ⟨hit, miss, valid, tag, others⟩

theorem memStage_sameMemory (hacc : (memStepOfWord s.exmem.ir).accesses = false) : SameMemory s t := by
  rcases memStage_performs h with ⟨-, rfl⟩ | hperform
  · exact ⟨rfl, rfl, rfl, rfl, rfl⟩
  · obtain ⟨hmem, hcache, hhit, hmiss, hflag⟩ := performMem_sameMemory hperform hacc
    exact ⟨hmem, hcache, hhit, hmiss, hflag⟩

end MemStage

/-- An access is made between two states if one is made between states with the same cache and counters. -/
theorem Accessed.of_sameMemory {x : Word} {s a b t : State} (h : Accessed x a b) (ha : SameMemory s a) (ht : SameMemory b t) :
    Accessed x s t := by
  obtain ⟨hit, miss, valid, tag, others⟩ := h
  rw [ha.cache, ha.hitEvents, ha.missEvents, ha.missFlag, ← ht.hitEvents, ← ht.missEvents, ← ht.missFlag] at hit
  rw [ha.cache, ha.hitEvents, ha.missEvents, ← ht.hitEvents, ← ht.missEvents, ← ht.missFlag] at miss
  rw [← ht.cache] at valid tag others
  rw [ha.cache] at others
  exact ⟨hit, miss, valid, tag, others⟩

theorem SameMemory.trans {s t u : State} (h : SameMemory s t) (h' : SameMemory t u) : SameMemory s u :=
  ⟨h'.mem.trans h.mem, h'.cache.trans h.cache, h'.hitEvents.trans h.hitEvents, h'.missEvents.trans h.missEvents,
    h'.missFlag.trans h.missFlag⟩

/-- Settles O40: MEM makes the cycle's one access if its word is a load or a store, and else none is made. -/
theorem oneCacheAccessForEachLoadOrStore : Obligations.OneCacheAccessForEachLoadOrStore := by
  unfold Obligations.OneCacheAccessForEachLoadOrStore
  intro s t hrun he h
  obtain ⟨a, b, ha, hcfg, hexmem, hb, -, ht, -⟩ := step_data hrun h
  simp only [memStepOfWord_accesses_iff, ← cacheHit_iff]
  have access : (memStepOfWord s.exmem.ir).accesses = true → Accessed s.exmem.alu { s with missFlag := false } t := fun hacc => by
    have haccess := (memStage_accessed hb (by rw [hcfg, he]) (by rw [hexmem, hacc])).of_sameMemory ha ht
    rwa [hexmem] at haccess
  refine ⟨fun hacc hhit => (access hacc).hit hhit, fun hacc hmiss => (access hacc).miss ?_,
    fun hacc => ⟨(access hacc).valid, (access hacc).tag, (access hacc).others⟩, fun hacc => ?_⟩
  · simpa using hmiss
  · rw [← hexmem, Bool.not_eq_true] at hacc
    obtain ⟨hmem, hcache, hhit, hmiss, hflag⟩ := (ha.trans (memStage_sameMemory hb hacc)).trans ht
    exact ⟨hhit, hmiss, hflag, hcache, hmem⟩

/-! ### Faults (60_exceptions.md R402) -/

/-- MEM answers a state or a fault. -/
theorem memStage_not_refused (s : State) (r : Refusal) : memStage s ≠ .refused r := by
  rcases memStage_cases s with ⟨-, e⟩ | ⟨m, -, e⟩
  · rw [e]
    exact fun h => nomatch h
  · rw [e]
    cases performMem (traitsOfWord s.exmem.ir) m (atStage .mem s) <;> exact fun h => nomatch h

/-- With the cache enabled, in a map that meets 20_memory.md R60, MEM answers a state. -/
theorem memStage_next {s : State} (hc : s.cfg.wf) (he : s.cfg.cacheEnabled = true) : ∃ t, memStage s = .next t := by
  rcases memStage_cases s with ⟨-, e⟩ | ⟨m, -, e⟩
  · exact ⟨_, e⟩
  · have hperform : ∃ t, performMem (traitsOfWord s.exmem.ir) m (atStage .mem s) = .ok t := by
      cases m with
      | pass => exact ⟨_, rfl⟩
      | load width =>
        obtain ⟨⟨w, u⟩, hr⟩ := dataRead_ok (s := memLatch (traitsOfWord s.exmem.ir) (atStage .mem s)) hc he s.exmem.alu
        exact ⟨_, performMem_load_ok hr⟩
      | store width => exact dataWrite_ok (s := memLatch (traitsOfWord s.exmem.ir) (atStage .mem s)) hc he _ _ _
      | readHi => exact ⟨_, rfl⟩
      | readLo => exact ⟨_, rfl⟩
    obtain ⟨t, ht⟩ := hperform
    exact ⟨t, by rw [e, ht]; rfl⟩

/-- ID, IF and the commit fault exactly where IF fetches a word that overruns (R140; D24). -/
theorem finishCycle_fault {s : State} {f : Fault} (h : finishCycle s = .fault f) :
    (idStage s).2 = false ∧ memRead s.cfg.regions s.mem s.cur.pc = .error f := by
  obtain ⟨hcfg, hmem, hcur, -⟩ := idStage_frame s
  cases hif : ifStage (idStage s).2 (idStage s).1 with
  | ok t => rw [finishCycle_of_fetch hif] at h; cases h
  | error g =>
    rw [finishCycle_of_fault hif] at h
    cases h
    unfold ifStage at hif
    split at hif
    · cases hif
    · next hstall =>
      rw [hcfg, hmem, hcur] at hif
      refine ⟨by simpa using hstall, ?_⟩
      cases hr : memRead s.cfg.regions s.mem s.cur.pc with
      | ok w => rw [hr] at hif; cases hif
      | error g => rw [hr] at hif; cases hif; rfl

theorem finishCycle_not_refused (s : State) (r : Refusal) : finishCycle s ≠ .refused r := by
  cases hif : ifStage (idStage s).2 (idStage s).1 with
  | ok t => rw [finishCycle_of_fetch hif]; exact fun h => nomatch h
  | error f => rw [finishCycle_of_fault hif]; exact fun h => nomatch h

theorem step_not_refused (s : State) (r : Refusal) : step s ≠ .refused r := by
  cases hrun : s.runFlag with
  | false => rw [step, cycle_halted hrun]; exact fun h => nomatch h
  | true =>
    obtain ⟨a, ha⟩ := wbStage_next { s with missFlag := false }
    rw [step, cycle_running hrun, ha, andThen_next]
    cases hb : memStage a with
    | refused q => exact absurd hb (memStage_not_refused a q)
    | fault f => exact fun h => nomatch h
    | next b =>
      obtain ⟨c, hc⟩ := exStage_next b
      rw [andThen_next, hc, andThen_next]
      exact finishCycle_not_refused c r

/-- A word that overruns starts in a region, and runs past its end. -/
theorem memRead_error_cases {gs : List Region} {m : Memory} {a : Word} {f : Fault} (h : memRead gs m a = .error f) :
    f = .memOverrun a ∧ ∃ g, regionOf gs a = some g ∧ g.base + g.size < a.toNat + 4 := by
  cases hr : regionOf gs a with
  | none => rw [memRead_unmapped m hr] at h; cases h
  | some g =>
    by_cases hfit : a.toNat + 4 ≤ g.base + g.size
    · rw [memRead_fits m hr hfit] at h
      cases h
    · have hover : g.base + g.size < a.toNat + 4 := Nat.lt_of_not_le hfit
      rw [memRead_overruns m hr hover] at h
      cases h
      exact ⟨rfl, g, rfl, hover⟩

/-- Settles O41: the stages before ID answer a state, so a fault is the fetch's, and an aligned word never overruns. -/
theorem onlyAMisalignedFetchFaults : Obligations.OnlyAMisalignedFetchFaults := by
  unfold Obligations.OnlyAMisalignedFetchFaults
  intro s
  refine ⟨step_not_refused s, fun hwf he => ?_⟩
  obtain ⟨a, ha⟩ := wbStage_next { s with missFlag := false }
  have hacfg : a.cfg = s.cfg := (wbStage_frame ha).cfg
  obtain ⟨b, hb⟩ := memStage_next (s := a) (hacfg ▸ hwf) (hacfg ▸ he)
  obtain ⟨c, hc⟩ := exStage_next b
  have hccfg : c.cfg = s.cfg := (exStage_frame hc).cfg.trans ((memStage_frame hb).cfg.trans hacfg)
  have hstep : s.runFlag = true → step s = finishCycle c := fun hrun => by
    rw [step, cycle_running hrun, ha, andThen_next, hb, andThen_next, hc, andThen_next]
  refine ⟨a, b, c, ha, hb, hc, fun x hx => ?fault, fun hok => ?answers⟩
  case fault =>
    cases hrun : s.runFlag with
    | false => rw [step, cycle_halted hrun] at hx; cases hx
    | true =>
      rw [hstep hrun] at hx
      obtain ⟨hstall, hread⟩ := finishCycle_fault hx
      obtain ⟨hx', g, hg, hover⟩ := memRead_error_cases hread
      cases hx'
      obtain ⟨hmem, -, hhi⟩ := regionOf_some hg
      have haligned : c.cur.pc.toNat % 4 ≠ 0 := fun h0 => by
        have := aligned_fits (c := c.cfg) (hccfg ▸ hwf) h0 hg
        omega
      exact ⟨rfl, hstall, rfl, hread, haligned, g, hccfg ▸ hmem, hover, hhi⟩
  case answers =>
    cases hrun : s.runFlag with
    | false => exact ⟨s, cycle_halted hrun⟩
    | true =>
      rw [hstep hrun]
      cases hfinish : finishCycle c with
      | next t => exact ⟨t, rfl⟩
      | refused r => exact absurd hfinish (finishCycle_not_refused c r)
      | fault f =>
        obtain ⟨hstall, hread⟩ := finishCycle_fault hfinish
        rcases hok with h0 | h1
        · obtain ⟨w, hw⟩ := memRead_aligned (c := c.cfg) (hccfg ▸ hwf) c.mem h0
          rw [hw] at hread
          cases hread
        · rw [h1] at hstall
          cases hstall

end Sys2Proof.Machine
end

section
/-! PROOF. Operands in program order, stalls, selectors and flushes (30_encoding.md R116; 40_pipeline.md R142, R143, R150 to R169). -/

namespace Sys2Proof.Machine

/-! ### The table R116 -/

theorem traitsOfWord_of_decode {w : Word} {i : Instr} (h : decode w = .instr i) : traitsOfWord w = traitsOf i := by
  rw [traitsOfWord, h, traitsOfClass]

/-- A row of R116: instructions of one class give a word that decodes to one of them that class. -/
theorem traitsOfWord_row {is : List Instr} {c : Traits} (h : ∀ i ∈ is, traitsOf i = c) (w : Word) :
    ∀ i ∈ is, decode w = .instr i → traitsOfWord w = c :=
  fun i hi hd => (traitsOfWord_of_decode hd).trans (h i hi)

/-! ### Forwarding is exact (R163 to R166) -/

/-- WB leaves alone every register that its word does not write (R181). -/
theorem wbStage_regs_other {s a : State} {r : Reg} (h : wbStage s = .next a) (hr : ¬ writesReg s.memwb.ir r) :
    regGet a.nxt.regs r = regGet s.nxt.regs r := by
  rcases wbStage_cases s with ⟨-, e⟩ | ⟨b, -, e⟩ <;> cases e.symm.trans h
  · rfl
  · have hne : (traitsOfWord s.memwb.ir).we = true → r ≠ (traitsOfWord s.memwb.ir).dest := fun hwe he => hr ⟨hwe, he.symm⟩
    rw [performWb_regs]
    split
    · next hload => exact regGet_regSet_other _ _ _ _ (hne (isLoad_we _ hload))
    · split
      · next hwe => exact regGet_regSet_other _ _ _ _ (hne hwe)
      · rfl

theorem valueInOrder_of_writes {s : State} {r : Reg} (h : writesReg s.memwb.ir r) : valueInOrder s r = resultOf s.memwb := by
  obtain ⟨hwe, hdest⟩ := h
  rw [valueInOrder, hwe, hdest, if_pos (by simp)]

theorem valueInOrder_of_not_writes {s : State} {r : Reg} (h : ¬ writesReg s.memwb.ir r) :
    valueInOrder s r = readNextReg s r := by
  rw [valueInOrder, if_neg]
  simp only [Bool.and_eq_true, beq_iff_eq]
  exact h

section Resolve
variable {s a b : State} (ha : wbStage { s with missFlag := false } = .next a) (hb : memStage a = .next b) {reads : Bool}
  {r : Reg} {sel : Selector}
include ha hb

/-- Register 0 is never forwarded (70_reset_and_hazards.md R481). -/
theorem resolve_zero (hfit : selectorFits s reads r sel) (hr : r = 0) : resolve b sel r = regGet s.cur.regs 0 := by
  have hcur : b.cur = s.cur := (memStage_frame hb).cur.trans (wbStage_frame ha).cur
  cases sel with
  | fromEx =>
    obtain ⟨-, hne, -⟩ := hfit
    exact absurd hr hne
  | fromMem =>
    obtain ⟨-, hne, -⟩ := hfit
    exact absurd hr hne
  | none => rw [hr, resolve, readReg, hcur]

variable (hinv : PipelineInv s)
include hinv

/-- WB and MEM leave the current generation alone, and WB the next one where its word does not write. -/
theorem readNextReg_eq_readReg (hr : ¬ writesReg s.memwb.ir r) : readNextReg b r = readReg b r := by
  have hnxt : b.nxt = a.nxt := (memStage_frame hb).nxt
  have hcur : b.cur = s.cur := (memStage_frame hb).cur.trans (wbStage_frame ha).cur
  have hother := wbStage_regs_other (s := { s with missFlag := false }) ha hr
  rw [readNextReg, readReg, hnxt, hcur, hother, ← hinv.generations]

/-- A selector that fits resolves to the value in program order, in each of its three positions. -/
theorem resolve_eq_valueInOrder (hreads : reads = true) (hfit : selectorFits s reads r sel) (hr : r ≠ 0) :
    resolve b sel r = valueInOrder b r := by
  have hword : b.memwb.ir = s.exmem.ir := by
    rw [(memStage_memwb hb).1]
    exact congrArg PipeReg.ir (wbStage_frame ha).exmem
  cases sel with
  | fromEx =>
    obtain ⟨-, -, hw⟩ := hfit
    exact (valueInOrder_of_writes (hword ▸ hw)).symm
  | fromMem =>
    obtain ⟨-, -, hnw, -⟩ := hfit
    exact (valueInOrder_of_not_writes (hword ▸ hnw)).symm
  | none =>
    obtain ⟨hnx, hnm⟩ := hfit hreads hr
    rw [valueInOrder_of_not_writes (hword ▸ hnx), readNextReg_eq_readReg ha hb hinv hnm]
    rfl

end Resolve

/-- Settles O42: the rows are the table itself, and the invariant says that the selectors fit the older instructions, whose
results WB and MEM have just moved to where EX takes them from. -/
theorem operandsAreExactInProgramOrder : Obligations.OperandsAreExactInProgramOrder := by
  unfold Obligations.OperandsAreExactInProgramOrder
  refine ⟨fun w rd rs rt sa imm target code => ?rows, fun s a b hinv hrun ha hb => ?operands⟩
  case rows =>
    refine ⟨traitsOfWord_row ?_ w, traitsOfWord_row ?_ w, traitsOfWord_row ?_ w, traitsOfWord_row ?_ w, traitsOfWord_row ?_ w,
      traitsOfWord_row ?_ w, traitsOfWord_row ?_ w, traitsOfWord_row ?_ w, traitsOfWord_row ?_ w, traitsOfWord_row ?_ w,
      traitsOfWord_row ?_ w, traitsOfWord_row ?_ w, traitsOfWord_row ?_ w, traitsOfWord_row ?_ w, ?noInstr⟩
    case noInstr => rintro (h | h) <;> rw [traitsOfWord, h] <;> rfl
    all_goals simp [traitsOf, Traits.writes, Traits.load, Traits.reads, Traits.inert]
  case operands =>
    have hidex : b.idex = s.idex := (memStage_frame hb).idex.trans (wbStage_frame ha).idex
    have hselA : b.selA = s.selA := (memStage_frame hb).selA.trans (wbStage_frame ha).selA
    have hselB : b.selB = s.selB := (memStage_frame hb).selB.trans (wbStage_frame ha).selB
    rw [hidex, hselA, hselB]
    exact ⟨fun hreads => ⟨resolve_eq_valueInOrder ha hb hinv hreads hinv.selAFits,
        resolve_zero ha hb hinv.selAFits⟩,
      fun hreads => ⟨resolve_eq_valueInOrder ha hb hinv hreads hinv.selBFits,
        resolve_zero ha hb hinv.selBFits⟩⟩

/-! ### How long ID stalls (R152 to R156) -/

section Decode
variable {s : State}

theorem idStage_decodes (hstall : s.stallCount = 0) (hflag : s.branchFlag = false) (hne : s.ifid.ir ≠ 0) :
    idStage s = idDecode s := by
  rw [idStage, if_neg (by omega), if_neg (by simp [hflag]), if_neg hne]

theorem idDecode_stalls {n : Nat}
    (h : stallNeed s (traitsOfWord s.ifid.ir) (rsField s.ifid.ir) (rtField s.ifid.ir) = n + 1) :
    idDecode s = (afterDecode s 0 .none .none n, true) := by
  rcases idDecode_cases s with ⟨-, e⟩ | ⟨h0, -⟩
  · rw [e, h]
    rfl
  · omega

theorem idDecode_passes (h : stallNeed s (traitsOfWord s.ifid.ir) (rsField s.ifid.ir) (rtField s.ifid.ir) = 0) :
    idDecode s =
      (afterDecode s s.ifid.ir (operandSelector s (traitsOfWord s.ifid.ir).srcA (rsField s.ifid.ir))
        (operandSelector s (traitsOfWord s.ifid.ir).srcB (rtField s.ifid.ir)) s.stallCount, false) := by
  rcases idDecode_cases s with ⟨hpos, -⟩ | ⟨-, e⟩
  · omega
  · exact e

theorem exHit_eq_true_iff (r : Reg) : exHit s r = true ↔ s.exWe = true ∧ s.exDest ≠ 0 ∧ s.exDest = r := by
  simp only [exHit, Bool.and_eq_true, bne_iff_ne, beq_iff_eq, and_assoc]

theorem memHit_eq_true_iff (r : Reg) : memHit s r = true ↔ s.memWe = true ∧ s.memDest ≠ 0 ∧ s.memDest = r := by
  simp only [memHit, Bool.and_eq_true, bne_iff_ne, beq_iff_eq, and_assoc]

/-! One operand's stall (R155). -/

variable {reads : Bool} {r : Reg}

theorem operandStall_forwarding (hf : s.forwardingEnabled = true) : operandStall s reads r = 0 := by
  rw [operandStall, hf, Bool.or_true, if_pos rfl]

theorem operandStall_of_exHit (hf : s.forwardingEnabled = false) (hreads : reads = true) (hx : exHit s r = true) :
    operandStall s reads r = 3 := by
  simp [operandStall, hf, hreads, hx, stallEx]

theorem operandStall_of_memHit (hf : s.forwardingEnabled = false) (hreads : reads = true) (hx : exHit s r = false)
    (hm : memHit s r = true) : operandStall s reads r = 2 := by
  simp [operandStall, hf, hreads, hx, hm, stallMem]

theorem operandStall_le_two (hx : ¬ (reads = true ∧ exHit s r = true)) : operandStall s reads r ≤ 2 := by
  cases hr : reads with
  | false => simp [operandStall]
  | true =>
    have hx : exHit s r = false := by simpa [hr] using hx
    simp only [operandStall, hx, stallMem, Bool.false_eq_true, if_false]
    split_ifs <;> omega

theorem operandStall_eq_zero (hx : ¬ (reads = true ∧ exHit s r = true)) (hm : ¬ (reads = true ∧ memHit s r = true)) :
    operandStall s reads r = 0 := by
  cases hr : reads with
  | false => simp [operandStall]
  | true =>
    have hx : exHit s r = false := by simpa [hr] using hx
    have hm : memHit s r = false := by simpa [hr] using hm
    simp [operandStall, hx, hm]

theorem operandSelector_noForwarding (hf : s.forwardingEnabled = false) : operandSelector s reads r = .none := by
  simp [operandSelector, hf]

end Decode

/-! The two operands together: what the statements call a match of an occupant. -/

section Match
variable {s : State} {c : Traits} {rs rt : Reg}

/-- A source register that the EX occupant writes is an operand that it hits. -/
theorem exMatch_iff :
    (s.exWe = true ∧ s.exDest ≠ 0 ∧ ((c.srcA = true ∧ rs = s.exDest) ∨ (c.srcB = true ∧ rt = s.exDest))) ↔
      (c.srcA = true ∧ exHit s rs = true) ∨ (c.srcB = true ∧ exHit s rt = true) := by
  simp only [exHit_eq_true_iff, eq_comm (b := s.exDest)]
  tauto

theorem memMatch_iff :
    (s.memWe = true ∧ s.memDest ≠ 0 ∧ ((c.srcA = true ∧ rs = s.memDest) ∨ (c.srcB = true ∧ rt = s.memDest))) ↔
      (c.srcA = true ∧ memHit s rs = true) ∨ (c.srcB = true ∧ memHit s rt = true) := by
  simp only [memHit_eq_true_iff, eq_comm (b := s.memDest)]
  tauto

theorem stallNeed_of_exMatch (hf : s.forwardingEnabled = false)
    (h : (c.srcA = true ∧ exHit s rs = true) ∨ (c.srcB = true ∧ exHit s rt = true)) : stallNeed s c rs rt = 3 := by
  have hle := stallNeed_le s c rs rt
  rcases h with ⟨hreads, hx⟩ | ⟨hreads, hx⟩
  · have h3 := operandStall_of_exHit hf hreads hx
    unfold stallNeed at hle ⊢
    omega
  · have h3 := operandStall_of_exHit hf hreads hx
    unfold stallNeed at hle ⊢
    omega

section NoExMatch
variable (hx : ¬ ((c.srcA = true ∧ exHit s rs = true) ∨ (c.srcB = true ∧ exHit s rt = true)))
include hx

theorem stallNeed_of_memMatch (hf : s.forwardingEnabled = false)
    (h : (c.srcA = true ∧ memHit s rs = true) ∨ (c.srcB = true ∧ memHit s rt = true)) : stallNeed s c rs rt = 2 := by
  obtain ⟨hxA, hxB⟩ := not_or.mp hx
  have hA := operandStall_le_two hxA
  have hB := operandStall_le_two hxB
  have hload : (if s.exLoad then stallLoad else 0) ≤ 2 := by
    unfold stallLoad
    split <;> omega
  unfold stallNeed
  rcases h with ⟨hreads, hm⟩ | ⟨hreads, hm⟩
  · have h2 := operandStall_of_memHit hf hreads (by simpa [hreads] using hxA) hm
    omega
  · have h2 := operandStall_of_memHit hf hreads (by simpa [hreads] using hxB) hm
    omega

/-- With no match only a load ahead stalls. -/
theorem stallNeed_of_noMatch (hm : ¬ ((c.srcA = true ∧ memHit s rs = true) ∨ (c.srcB = true ∧ memHit s rt = true))) :
    stallNeed s c rs rt = if s.exLoad then stallLoad else 0 := by
  obtain ⟨hxA, hxB⟩ := not_or.mp hx
  obtain ⟨hmA, hmB⟩ := not_or.mp hm
  rw [stallNeed, operandStall_eq_zero hxA hmA, operandStall_eq_zero hxB hmB, Nat.max_self, Nat.zero_max]

end NoExMatch

/-- With forwarding too. -/
theorem stallNeed_forwarding (hf : s.forwardingEnabled = true) :
    stallNeed s c rs rt = if s.exLoad then stallLoad else 0 := by
  rw [stallNeed, operandStall_forwarding hf, operandStall_forwarding hf, Nat.max_self, Nat.zero_max]

end Match

/-- Settles O43: the longest stall that an operand needs is the EX occupant's, then the MEM occupant's. -/
theorem stallsWithoutForwarding : Obligations.StallsWithoutForwarding := by
  unfold Obligations.StallsWithoutForwarding
  intro s hstall hflag hne hf
  simp only [exMatch_iff, memMatch_iff]
  rw [idStage_decodes hstall hflag hne]
  refine ⟨fun hx => idDecode_stalls (stallNeed_of_exMatch hf hx),
    fun hx hm => idDecode_stalls (stallNeed_of_memMatch hx hf hm), fun hx hm hload => ?_⟩
  rw [idDecode_passes (by rw [stallNeed_of_noMatch hx hm, hload]; rfl), hstall, operandSelector_noForwarding hf,
    operandSelector_noForwarding hf]

/-- With forwarding an operand's selector is the youngest occupant that writes its register (R155, R156). -/
theorem operandSelector_chosen {s : State} (hf : s.forwardingEnabled = true) (reads : Bool) (r : Reg) :
    (reads = true → exHit s r = true → operandSelector s reads r = .fromEx) ∧
    (reads = true → ¬ exHit s r = true → memHit s r = true → operandSelector s reads r = .fromMem) ∧
    (reads = false ∨ (¬ exHit s r = true ∧ ¬ memHit s r = true) → operandSelector s reads r = .none) := by
  refine ⟨fun hreads hx => ?_, fun hreads hx hm => ?_, ?_⟩
  · simp [operandSelector, hf, hreads, hx]
  · simp [operandSelector, hf, hreads, hx, hm]
  · rintro (hreads | ⟨hx, hm⟩)
    · simp [operandSelector, hreads]
    · simp [operandSelector, hx, hm]

/-- Settles O44: with forwarding and no load ahead nothing needs a stall. -/
theorem selectorsWithForwarding : Obligations.SelectorsWithForwarding := by
  unfold Obligations.SelectorsWithForwarding
  intro s hstall hflag hne hf hload
  simp only [← exHit_eq_true_iff, ← memHit_eq_true_iff]
  refine ⟨_, _, operandSelector_chosen hf _ _, operandSelector_chosen hf _ _, ?_⟩
  rw [idStage_decodes hstall hflag hne, idDecode_passes (by rw [stallNeed_forwarding hf, hload]; rfl), hstall]

/-- Settles O45: the load's stall is one of the three whose longest counts. -/
theorem loadUseStallIsUnconditional : Obligations.LoadUseStallIsUnconditional := by
  unfold Obligations.LoadUseStallIsUnconditional
  intro s hstall hflag hne hload
  simp only [exMatch_iff, memMatch_iff]
  rw [idStage_decodes hstall hflag hne]
  have htwo : (if s.exLoad then stallLoad else 0) = 2 := by rw [hload]; rfl
  have hneed : 2 ≤ stallNeed s (traitsOfWord s.ifid.ir) (rsField s.ifid.ir) (rtField s.ifid.ir) := by
    unfold stallNeed
    omega
  refine ⟨stallNeed s (traitsOfWord s.ifid.ir) (rsField s.ifid.ir) (rtField s.ifid.ir) - 1, by omega,
    idDecode_stalls (by omega), fun hf => ?_, fun _ hx hm => ?_⟩
  · rw [stallNeed_forwarding hf, htwo]
  · rw [stallNeed_of_noMatch hx hm, htwo]

/-! ### Stalls and flushes in the cycle (R142, R143, R151, R168, R169) -/

/-- Settles O46: ID takes one off the count and tells IF to hold, and WB leaves the next PC alone. -/
theorem outstandingStallHoldsTheFetch : Obligations.OutstandingStallHoldsTheFetch := by
  unfold Obligations.OutstandingStallHoldsTheFetch
  intro s t k hinv hrun hk h
  obtain ⟨a, b, c, f, n, ha, hb, hc, hif, rfl⟩ := step_stages hrun h
  have fa := wbStage_frame ha
  have fb := memStage_frame hb
  have fc := exStage_frame hc
  have hstall : c.stallCount = k + 1 := (fc.stallCount.trans (fb.stallCount.trans fa.stallCount)).trans hk
  have hifid : c.ifid = s.ifid := fc.ifid.trans (fb.ifid.trans fa.ifid)
  have hpc : c.nxt.pc = s.nxt.pc := by
    rw [fc.nxt]
    exact (congrArg ArchState.pc fb.nxt).trans fa.pc
  have hid : idStage c = (idBubble { c with stallCount := c.stallCount - 1 }, true) := if_pos (by omega)
  rw [hid] at hif ⊢
  have hheld : f = c.ifid ∧ n = c.nxt := by
    rcases ifStage_cases hif with ⟨-, e⟩ | ⟨w, hs, -⟩
    · exact ⟨congrArg State.ifid e, congrArg State.nxt e⟩
    · cases hs
  obtain ⟨rfl, rfl⟩ := hheld
  refine ⟨?_, rfl, hifid, ?_⟩
  · simp [hstall]
  · rw [hinv.generations]
    exact hpc

/-- Settles O47: a transfer is taken only without an outstanding stall, and then ID flushes and IF fetches where EX has set the
current PC. -/
theorem takenTransferFlushesExactlyOne : Obligations.TakenTransferFlushesExactlyOne := by
  unfold Obligations.TakenTransferFlushesExactlyOne
  intro s a b c t hinv hrun ha hb hc hflag h
  obtain ⟨a', b', c', f, n, ha', hb', hc', hif, rfl⟩ := step_stages hrun h
  cases ha.symm.trans ha'
  cases hb.symm.trans hb'
  cases hc.symm.trans hc'
  have hstall : c.stallCount = 0 := by
    by_contra hne
    have hdown := (readyForId hinv ha hb hc).stallBranch (Nat.pos_of_ne_zero hne)
    rw [hflag] at hdown
    cases hdown
  have hid : idStage c = (idBubble { c with branchFlag := false }, false) := by
    rw [idStage, if_neg (by omega), if_pos hflag]
  rw [hid] at hif ⊢
  rcases ifStage_cases hif with ⟨hs, -⟩ | ⟨w, -, hread, e⟩
  · cases hs
  · have hf : f = fetchLatch w c.cur.pc := congrArg State.ifid e
    have hn : n = { c.nxt with pc := c.cur.pc + 4 } := congrArg State.nxt e
    subst hf hn
    exact ⟨rfl, hread, rfl, rfl, rfl, hstall⟩

end Sys2Proof.Machine
end

section
/-! PROOF. Reset, the loader, the host's commands and its runs (10_state.md R55; 40_pipeline.md R137, R138, R190 to R197;
70_reset_and_hazards.md R450 to R452). -/

namespace Sys2Proof.Machine

/-! ### Power-on (10_state.md R55) -/

theorem reset_regGet (r : Reg) : regGet (Vector.replicate 32 0) r = 0 := Vector.getElem_replicate _

theorem reset_blockGet (i : BitVec 4) : blockGet (Vector.replicate 16 CacheBlock.empty) i = CacheBlock.empty :=
  Vector.getElem_replicate _

theorem empty_blockWord (k : BitVec 2) : blockWord CacheBlock.empty k = 0 := Vector.getElem_replicate _

/-- Settles O54: the registers, the blocks and their words are all copies of one value, and Memory is the empty list. -/
theorem resetLeavesTheListedValues : Obligations.ResetLeavesTheListedValues := by
  unfold Obligations.ResetLeavesTheListedValues
  refine ⟨fun r => ⟨reset_regGet r, reset_regGet r⟩, rfl, rfl, rfl, rfl, rfl, rfl, ?pipe, rfl, rfl, rfl, rfl, rfl, rfl, rfl, rfl,
    rfl, rfl, rfl, rfl, rfl, rfl, fun i => ?block, rfl, rfl, rfl, rfl, fun _ => rfl⟩
  case pipe =>
    simp only [List.forall_mem_cons, List.not_mem_nil, false_implies, implies_true, and_true]
    exact ⟨rfl, rfl, rfl, rfl⟩
  case block =>
    have hblock : blockGet State.reset.cache i = CacheBlock.empty := reset_blockGet i
    rw [hblock]
    exact ⟨rfl, rfl, empty_blockWord⟩

/-- With bubbles everywhere the invariant of the pipeline holds: no word writes a register, and no selector is armed. -/
theorem powerOn_pipelineInv (c : Config) : PipelineInv (State.powerOn c) := by
  constructor
  case generations => rfl
  case branchFlag => rfl
  case stage => rfl
  case stallBound => exact Nat.zero_le 2
  case stallBubble => exact fun _ => rfl
  case idexImm => exact fun h => absurd rfl h
  case exmemImm => exact fun h => absurd rfl h
  case memwbImm => exact fun h => absurd rfl h
  case exDest => rfl
  case exWe => rfl
  case exLoad => rfl
  case memDest => rfl
  case memWe => rfl
  case bubbleSelectors => exact fun _ => ⟨rfl, rfl⟩
  case selAFits => exact (selectorFits_bubble _ _).1
  case selBFits => exact (selectorFits_bubble _ _).2

theorem powerOn_memoryInv (c : Config) : MemoryInv (State.powerOn c) :=
  ⟨emptyMemory_wf, fun _ h => nomatch h⟩

/-- No block is valid at power-on. -/
theorem powerOn_coherent (c : Config) : CacheCoherent (State.powerOn c) := by
  intro index hvalid
  have hblock : blockGet (State.powerOn c).cache index = CacheBlock.empty := reset_blockGet index
  rw [hblock] at hvalid
  cases hvalid

/-- Settles O55: the invariants hold at power-on with any parameters, and the default map meets R60. -/
theorem resetMeetsTheInvariants : Obligations.ResetMeetsTheInvariants := by
  unfold Obligations.ResetMeetsTheInvariants
  have hmap : Config.default.wf := by decide
  exact ⟨hmap, powerOn_pipelineInv _, powerOn_memoryInv _, powerOn_coherent _⟩

/-! ### The loader and the dump of Memory (R197, R452) -/

/-- `LoadImage` writes Memory and nothing else. -/
theorem loadImage_cases {image : List Word} {s t : State} (h : loadImage image s = .ok t) :
    ∃ m, writeImage s.cfg.regions image s.cfg.textBase s.mem = .ok m ∧ t = { s with mem := m } := by
  unfold loadImage at h
  cases hw : writeImage s.cfg.regions image s.cfg.textBase s.mem with
  | error f => rw [hw] at h; cases h
  | ok m =>
    rw [hw] at h
    cases h
    exact ⟨m, rfl, rfl⟩

/-- Settles O56: the loader starts from power-on's Memory, which is empty. -/
theorem hostResetKeepsOnlyTheForwardingMode : Obligations.HostResetKeepsOnlyTheForwardingMode := by
  unfold Obligations.HostResetKeepsOnlyTheForwardingMode
  intro s t image h
  obtain ⟨m, hm, rfl⟩ := loadImage_cases h
  exact ⟨hm, rfl⟩

/-- The list that a dump shows of an image that stands in Memory from `a` up. -/
def dumped : List Word → Word → List (Word × Word)
  | [], _ => []
  | w :: ws, a => (a, w) :: dumped ws (a + 4)

theorem dumped_eq_zipIdx (ws : List Word) (a : Word) (k : Nat) :
    dumped ws (a + BitVec.ofNat 32 (4 * k)) = (ws.zipIdx k).map fun p => (a + BitVec.ofNat 32 (4 * p.2), p.1) := by
  induction ws generalizing k with
  | nil => rfl
  | cons w ws ih =>
    have hnext : a + BitVec.ofNat 32 (4 * k) + 4 = a + BitVec.ofNat 32 (4 * (k + 1)) := by
      rw [BitVec.add_assoc, Nat.mul_add, BitVec.ofNat_add]
      rfl
    rw [dumped, hnext, ih (k + 1), List.zipIdx_cons, List.map_cons]

/-- Every word of the image, written from `a` up, lies in a region and does not wrap past the last address. -/
def ImageFits (gs : List Region) : List Word → Word → Prop
  | [], _ => True
  | _ :: ws, a => (∃ g, regionOf gs a = some g ∧ a.toNat + 4 ≤ g.base + g.size) ∧
      (ws ≠ [] → a.toNat + 4 < 2 ^ 32) ∧ ImageFits gs ws (a + 4)

theorem add_four_toNat {a : Word} (h : a.toNat + 4 < 2 ^ 32) : (a + 4).toNat = a.toNat + 4 := by
  rw [BitVec.toNat_add]
  exact Nat.mod_eq_of_lt h

section Image
variable {gs : List Region}

/-- The loader does not touch what stands below its first address. -/
theorem writeImage_below {ws : List Word} {a : Word} {m m' : Memory} (hfit : ImageFits gs ws a)
    (h : writeImage gs ws a m = .ok m') {n : Nat} (hn : n < a.toNat) : memGet m' n = memGet m n := by
  induction ws generalizing a m with
  | nil => cases h; rfl
  | cons w ws ih =>
    obtain ⟨⟨g, hg, hend⟩, hwrap, hrest⟩ := hfit
    rw [writeImage, memWrite_fits m w hg hend] at h
    dsimp only [bind, Except.bind] at h
    cases ws with
    | nil =>
      cases h
      exact memGet_memSetWord_other m _ n w (.inl hn)
    | cons w' ws =>
      have hnext := add_four_toNat (hwrap (by simp))
      rw [ih hrest h (by omega), memGet_memSetWord_other m _ n w (.inl hn)]

/-- What the loader wrote is dumped back (R197). -/
theorem dumpWords_writeImage {ws : List Word} {a : Word} {m : Memory} {s : State} (hm : Memory.wf m)
    (hfit : ImageFits s.cfg.regions ws a) (h : writeImage s.cfg.regions ws a m = .ok s.mem) :
    dumpWords s ws.length a = .ok (dumped ws a) := by
  induction ws generalizing a m with
  | nil => rfl
  | cons w ws ih =>
    obtain ⟨⟨g, hg, hend⟩, hwrap, hrest⟩ := hfit
    rw [writeImage, memWrite_fits m w hg hend] at h
    dsimp only [bind, Except.bind] at h
    have hword : memGetWord s.mem a.toNat = w := by
      have hbytes : ∀ k < 4, memGet s.mem (a.toNat + k) = memGet (memSetWord m a.toNat w) (a.toNat + k) := fun k hk => by
        cases ws with
        | nil =>
          have hmem : memSetWord m a.toNat w = s.mem := Except.ok.inj h
          rw [hmem]
        | cons w' ws =>
          have hnext := add_four_toNat (hwrap (by simp))
          exact writeImage_below hrest h (by omega)
      have h0 := hbytes 0 (by omega)
      have h1 := hbytes 1 (by omega)
      have h2 := hbytes 2 (by omega)
      have h3 := hbytes 3 (by omega)
      rw [Nat.add_zero] at h0
      rw [memGetWord, h0, h1, h2, h3]
      exact memGetWord_memSetWord_same m _ w hm
    rw [List.length_cons, dumpWords, memRead_fits s.mem hg hend, hword]
    dsimp only [bind, Except.bind]
    rw [ih (memSetWord_wf m _ w hm) hrest h]
    rfl

/-- An image all of whose words lie in regions, said of each of its indices, fits. -/
theorem imageFits_of_forall {base : Word} {ws : List Word} (k : Nat) (hwrap : base.toNat + 4 * (k + ws.length) ≤ 2 ^ 32)
    (h : ∀ i, k ≤ i → i < k + ws.length → ∃ g, regionOf gs (base + BitVec.ofNat 32 (4 * i)) = some g ∧
      base.toNat + 4 * i + 4 ≤ g.base + g.size) :
    ImageFits gs ws (base + BitVec.ofNat 32 (4 * k)) := by
  induction ws generalizing k with
  | nil => trivial
  | cons w ws ih =>
    rw [List.length_cons] at hwrap h
    have haddr : (base + BitVec.ofNat 32 (4 * k)).toNat = base.toNat + 4 * k := by
      rw [BitVec.toNat_add, BitVec.toNat_ofNat]
      omega
    have hnext : base + BitVec.ofNat 32 (4 * k) + 4 = base + BitVec.ofNat 32 (4 * (k + 1)) := by
      rw [BitVec.add_assoc, Nat.mul_add, BitVec.ofNat_add]
      rfl
    obtain ⟨g, hg, hend⟩ := h k (Nat.le_refl k) (by omega)
    refine ⟨⟨g, hg, by rw [haddr]; exact hend⟩, fun hne => ?_, ?_⟩
    · have := List.length_pos_iff.mpr hne
      rw [haddr]
      omega
    · rw [hnext]
      exact ih (k + 1) (by omega) fun i hlo hhi => h i (by omega) (by omega)

end Image

/-- Settles O57: the bounds of the dump are those of the image, and each word read is the one written. -/
theorem loadedProgramIsDumpedBack : Obligations.LoadedProgramIsDumpedBack := by
  unfold Obligations.LoadedProgramIsDumpedBack
  intro s t image hne hwrap hregions h
  obtain ⟨m, hm, rfl⟩ := loadImage_cases h
  have hlen := List.length_pos_iff.mpr hne
  have hfit : ImageFits s.cfg.regions image s.cfg.textBase := by
    have := imageFits_of_forall (gs := s.cfg.regions) (base := s.cfg.textBase) (ws := image) 0 (by omega)
      fun i _ hi => hregions i (by omega)
    simpa using this
  have hend : (s.cfg.textBase + BitVec.ofNat 32 (4 * (image.length - 1))).toNat =
      s.cfg.textBase.toNat + 4 * (image.length - 1) := by
    rw [BitVec.toNat_add, BitVec.toNat_ofNat]
    omega
  have hcount : (s.cfg.textBase.toNat + 4 * (image.length - 1) - s.cfg.textBase.toNat) / 4 + 1 = image.length := by omega
  have hdump := dumped_eq_zipIdx image s.cfg.textBase 0
  rw [Nat.mul_zero, BitVec.add_zero] at hdump
  rw [memoryDump, hend, if_pos (Nat.le_add_right _ _), hcount, ← hdump]
  exact dumpWords_writeImage emptyMemory_wf hfit hm

/-! ### The commands (R191 to R197) -/

section MemoryDump
variable {s : State} {a b w : Word}

theorem memoryDump_empty (h : b.toNat < a.toNat) : memoryDump a b s = .ok [] := by
  rw [memoryDump, if_neg (Nat.not_le.mpr h), dumpWords]

/-- A dump shows the word at `a`, and then what the dump of the rest shows. -/
theorem dumpWords_succ {n : Nat} {rest : List (Word × Word)} (hread : memRead s.cfg.regions s.mem a = .ok w)
    (hrest : dumpWords s n (a + 4) = .ok rest) : dumpWords s (n + 1) a = .ok ((a, w) :: rest) := by
  rw [dumpWords, hread]
  dsimp only [bind, Except.bind]
  rw [hrest]
  rfl

theorem memoryDump_one (hle : a.toNat ≤ b.toNat) (hlt : b.toNat < a.toNat + 4)
    (hread : memRead s.cfg.regions s.mem a = .ok w) : memoryDump a b s = .ok [(a, w)] := by
  have hcount : (b.toNat - a.toNat) / 4 = 0 := by omega
  rw [memoryDump, if_pos hle, hcount]
  exact dumpWords_succ hread rfl

theorem memoryDump_cons {rest : List (Word × Word)} (hle : a.toNat + 4 ≤ b.toNat)
    (hread : memRead s.cfg.regions s.mem a = .ok w) (hrest : memoryDump (a + 4) b s = .ok rest) :
    memoryDump a b s = .ok ((a, w) :: rest) := by
  have hb := b.isLt
  have hnext : (a + 4).toNat = a.toNat + 4 := add_four_toNat (by omega)
  have hcount : (b.toNat - a.toNat) / 4 = (b.toNat - (a.toNat + 4)) / 4 + 1 := by omega
  rw [memoryDump, hnext, if_pos hle] at hrest
  rw [memoryDump, if_pos (by omega), hcount]
  exact dumpWords_succ hread hrest

end MemoryDump

/-- Settles O58: the commands are the updates and the projections that the statement names, and a dump goes on from address to
address while the bound allows. -/
theorem hostCommandsSetAndDump : Obligations.HostCommandsSetAndDump := by
  unfold Obligations.HostCommandsSetAndDump
  intro s r v
  exact ⟨fun q => ⟨regGet_regSet _ r q v, regGet_regSet _ r q v⟩, rfl, rfl, rfl, rfl, rfl, rfl, rfl,
    fun _ _ h => memoryDump_empty h, fun _ _ _ hle hlt hread => memoryDump_one hle hlt hread,
    fun _ _ _ _ hle hread hrest => memoryDump_cons hle hread hrest⟩

/-! ### The runs (R137, R138) -/

section Runs
variable {s : State} (p n : Nat)

theorem runAll_halted (h : s.runFlag = false) : runAll n s = some (.next s) := by
  cases n <;> rw [runAll, h, if_neg Bool.false_ne_true]

theorem runBounded_halted (h : s.runFlag = false) : runBounded p n s = .next s := by
  cases n with
  | zero => rfl
  | succ n => rw [runBounded, h, if_neg Bool.false_ne_true]

theorem runBounded_running (h : s.runFlag = true) :
    runBounded p (n + 1) s = andThen (boundedIteration p s) (runBounded p n) := by
  rw [runBounded, if_pos h]

/-- An iteration of the bounded run when no penalty is owed: a cycle, after which a miss charges the penalty (R138). -/
theorem boundedIteration_cycle (h : s.penaltyRemaining = 0) :
    boundedIteration p s =
      andThen (step s) fun t => .next (if t.missFlag then { t with penaltyRemaining := p } else t) :=
  if_neg (by omega)

/-- Without a penalty to charge, it is the cycle and nothing else. -/
theorem boundedIteration_noPenalty (h : s.penaltyRemaining = 0) : boundedIteration 0 s = step s := by
  rw [boundedIteration_cycle 0 h]
  cases hstep : step s with
  | fault f => rfl
  | refused r => rfl
  | next t =>
    have hpen : t.penaltyRemaining = 0 := by
      rw [(stepChangesNoSetting s t hstep).penaltyRemaining, h]
    have hsame : { t with penaltyRemaining := 0 } = t := by rw [← hpen]
    rw [andThen_next, hsame, ite_self]

end Runs

/-- Settles O37: a halted machine's cycle changes nothing, and neither run loop starts one. -/
theorem haltedMachineKeepsItsState : Obligations.HaltedMachineKeepsItsState := by
  unfold Obligations.HaltedMachineKeepsItsState
  exact fun s h => ⟨cycle_halted h, fun fuel => runAll_halted fuel h, fun p n => runBounded_halted p n h⟩

/-- Settles O59, by induction on the number of cycles: without a penalty every iteration is a cycle, after which none is owed. -/
theorem boundedRunWithoutPenaltyIsRunAll : Obligations.BoundedRunWithoutPenaltyIsRunAll := by
  unfold Obligations.BoundedRunWithoutPenaltyIsRunAll
  intro n
  induction n with
  | zero =>
    intro s o _ h
    cases hrun : s.runFlag with
    | true => rw [runAll, if_pos hrun] at h; cases h
    | false => rw [runAll_halted 0 hrun] at h; cases h; rfl
  | succ n ih =>
    intro s o hpen h
    cases hrun : s.runFlag with
    | false =>
      rw [runAll_halted _ hrun] at h
      cases h
      exact runBounded_halted _ _ hrun
    | true =>
      rw [runBounded_running _ _ hrun, boundedIteration_noPenalty hpen, step]
      rw [runAll, if_pos hrun] at h
      cases hcycle : cycle s with
      | next t =>
        rw [hcycle] at h
        exact ih t o ((stepChangesNoSetting s t hcycle).penaltyRemaining.trans hpen) h
      | fault f => rw [hcycle] at h; cases h; rfl
      | refused r => rw [hcycle] at h; cases h; rfl

/-- Settles O60: the iteration's two arms, and the two equations of the loop. -/
theorem penaltyCycleOnlyCounts : Obligations.PenaltyCycleOnlyCounts := by
  unfold Obligations.PenaltyCycleOnlyCounts
  intro p s
  refine ⟨fun hpos => if_pos hpos, fun h0 t ht => ?_, fun h0 f hf => ?_, rfl, fun n hrun => runBounded_halted p n hrun,
    fun n hrun => runBounded_running p n hrun⟩
  · rw [boundedIteration_cycle p h0, ht, andThen_next]
  · rw [boundedIteration_cycle p h0, hf, andThen_fault]

end Sys2Proof.Machine
end
